-- ==== Sys2Proof/Word.lean ====
section
/-! DEFINITION. The bit-vector types of the block (00_scope.md R8, R9, R10). -/

namespace Sys2Proof

/-- A data byte, a symbol, a table index or a padding operand (R8 `SYM_W`, R70 field `B`). -/
abbrev Byte := BitVec 8

/-- A 32-bit value: a binary32 pattern, the word operand or a response (R8 `RESP_W`, R70 field `W`). -/
abbrev Word := BitVec 32

/-- A command word (R8 `CMD_W`, R70). -/
abbrev CmdWord := BitVec 64

/-- A node index, 9 bits (R8 `NNODE`). -/
abbrev NodeIdx := BitVec 9

/-- The bits of one code-table entry `CODE[b]`, 255 of them (10_state.md R25). -/
abbrev CodeBits := BitVec 255

end Sys2Proof
end

