-- ==== Sys2Proof/Config.lean ====
section
/-! DEFINITION. The block's parameters (00_scope.md R8) and the values the spec leaves open. -/

namespace Sys2Proof.Config

/-- `NSYM`: the number of symbols (R8). -/
def nsym : Nat := 256

/-- `NINT`: the internal nodes of every tree, which is also the number of merges (R8). -/
def nint : Nat := 255

/-- `ROOT`: the index of the root (R8). -/
def root : NodeIdx := 510

/-- The index of the first internal node (R14: leaves are 0..255, internal nodes 256..510). -/
def firstInternal : Nat := 256

/-- `PAD_MAX`: the largest padding count (R8). -/
def padMax : Byte := 7

/-- `HDR_BYTES`: the size of the container header (R8). -/
def hdrBytes : Nat := 1025

/-- The bits of a NaN result of `f32_add`. The spec states none: BUILD, the only user, adds legal
weights, and no such sum is a NaN (42_tree_builder.md R120). DESIGN CHOICE, log entry 6: a free value,
safe, because nothing can be proved about it. -/
opaque nanResult : Word → Word → Word

/-- `OUTPUT_COUNT_INCLUDES_HEADER` (92_eei_decisions.md D24), the one parameter the spec leaves OPEN.
It is host-side. DESIGN CHOICE, log entry 10: a constant with no body, safe. -/
opaque outputCountIncludesHeader : Bool

end Sys2Proof.Config
end

