-- ==== Sys2Proof/Machine/State.lean ====
section
/-! DEFINITION. The state of the block (10_state.md), its reset value (R41) and the reasons a step can stop. -/

namespace Sys2Proof.Machine

/-- One internal-node record `NODE[n]` (R24). -/
structure NodeRec where
  /-- The node reached on bit 0. -/
  child0 : NodeIdx
  /-- The node reached on bit 1. -/
  child1 : NodeIdx
  /-- The representative byte value. -/
  rep : Byte
  /-- The binary32 weight. -/
  w : Word
  deriving DecidableEq, Repr

/-- What the host can present to the block (20_memory.md R51, 70_reset_and_hazards.md R235). -/
inductive HostInput where
  /-- One command word on the command port. -/
  | command (w : CmdWord)
  /-- The reset input: power-on reset (R230). -/
  | reset
  deriving DecidableEq, Repr

/-- The whole state of the block, and the two fields of the model's own that stand for its ports. -/
structure State where
  /-- `FREQ[0..255]` (R22). -/
  freq : Vector Word 256
  /-- `TREE_VALID` (R23). -/
  treeValid : Bool
  /-- `NODE[256..510]` (R24): entry `k` is `NODE[256 + k]`. -/
  node : Vector NodeRec 255
  /-- `CLEN[0..255]` (R25). -/
  clen : Vector Byte 256
  /-- `CODE[0..255]` (R25): bit `i` of an entry is the branch at depth `i`. -/
  code : Vector CodeBits 256
  /-- `ACC` (R26). -/
  acc : Byte
  /-- `BITPOS` (R27). -/
  bitpos : BitVec 3
  /-- `PAD_OUT` (R28). -/
  padOut : BitVec 3
  /-- `ENC_OPEN` (R30). -/
  encOpen : Bool
  /-- `PAD_IN` (R31). -/
  padIn : BitVec 3
  /-- `CURSOR` (R32). -/
  cursor : NodeIdx
  /-- `DEC_OPEN` (R33). -/
  decOpen : Bool
  /-- `RESP` (R35). -/
  resp : Word
  /-- `ERR` (R36). -/
  err : BitVec 4
  /-- `ERR_OPC` (R37). -/
  errOpc : Byte
  /-- The model's field for the output port `OUT` (R34): the bytes handed to the host so far, oldest
  first. A command's own bytes are what it appends. DESIGN CHOICE, log entry 3. -/
  out : List Byte
  /-- The model's field for the command port and the reset input (R43, R51): what the host has presented
  and the block has not yet taken, oldest first. DESIGN CHOICE, log entry 2. -/
  port : List HostInput
  deriving DecidableEq, Repr

/-- Why a step stops with a fault. -/
inductive Fault where
  /-- Raised by the one read of `NODE[n]` (`readNode` of Machine/Ops.lean) for an `n` outside 256..510, which
  has no record (R24, 20_memory.md R50); only the descent of DEC and DECLAST can come to it. Safe: no state
  with a tree BUILD made does (R122, R171), so it only leaves unproved what no run shows. Log entry 5. -/
  | noSuchNode (n : NodeIdx)
  deriving DecidableEq, Repr

/-- Why a step has no meaning. No command of this model is refused. -/
inductive Refusal where
  /-- The command of this mnemonic has no meaning yet. Raised by `exec`'s own arms only, and by none of
  them now. Safe. -/
  | notModelled (mnemonic : String)
  deriving DecidableEq, Repr

/-- What a step or a command answers. -/
abbrev Result := Host.Outcome State Fault Refusal

/-- The state after reset (R41, R230). The spec gives `NODE`, `CLEN` and `CODE` no value; zero is DESIGN
CHOICE, log entry 1. The two port fields are empty, log entries 2 and 3. -/
def State.reset : State where
  freq := Vector.replicate 256 0
  treeValid := false
  node := Vector.replicate 255 ⟨0, 0, 0, 0⟩
  clen := Vector.replicate 256 0
  code := Vector.replicate 256 0
  acc := 0
  bitpos := 0
  padOut := 0
  encOpen := false
  padIn := 0
  cursor := Config.root
  decOpen := false
  resp := 0
  err := 0
  errOpc := 0
  out := []
  port := []

end Sys2Proof.Machine
end

