-- ==== Sys2Proof/Syntax.lean ====
section
/-! DEFINITION. The command set: one constructor per row of spec/opcode_table.json (30_encoding.md R72). -/

namespace Sys2Proof

/-- A command with its operands, named as the opcode table names them. -/
inductive Instr where
  /-- R190 -/
  | nop
  /-- R191 -/
  | clear
  /-- R100: `i` the byte value, `v` the binary32 pattern. -/
  | wfreq (i : Byte) (v : Word)
  /-- R101 -/
  | rfreq (i : Byte)
  /-- R121 -/
  | build
  /-- R126 -/
  | rclen (b : Byte)
  /-- R127: `k` the 32-bit chunk of the code. -/
  | rcode (b : Byte) (k : BitVec 3)
  /-- R124 -/
  | rnode (n : NodeIdx)
  /-- R125 -/
  | rwgt (n : NodeIdx)
  /-- R150 -/
  | enc (b : Byte)
  /-- R151 -/
  | eflush
  /-- R170 -/
  | setpad (p : Byte)
  /-- R173 -/
  | dec (x : Byte)
  /-- R174 -/
  | declast (x : Byte)
  /-- R175 -/
  | decend
  deriving DecidableEq, Repr

end Sys2Proof
end

