-- ==== Sys2Proof/WellFormed.lean ====
section
/-! DEFINITION. The range checks a decoded command meets (30_encoding.md R76). -/

namespace Sys2Proof

/-- R76, RNODE: `n` names an internal node, 256..510. -/
def isInternalIdx (n : NodeIdx) : Bool := Config.firstInternal ≤ n.toNat && n.toNat ≤ Config.root.toNat

/-- R76, RWGT: `n` names a node, 0..510. -/
def isNodeIdx (n : NodeIdx) : Bool := n.toNat ≤ Config.root.toNat

/-- The command is one a legal word stands for. Every operand but a node operand may hold any value of
its field (R72); SETPAD's range is checked at execution, not here (R170). -/
def Instr.wellFormed : Instr → Bool
  | .nop => true
  | .clear => true
  | .wfreq _ _ => true
  | .rfreq _ => true
  | .build => true
  | .rclen _ => true
  | .rcode _ _ => true
  | .rnode n => isInternalIdx n
  | .rwgt n => isNodeIdx n
  | .enc _ => true
  | .eflush => true
  | .setpad _ => true
  | .dec _ => true
  | .declast _ => true
  | .decend => true

end Sys2Proof
end

