-- ==== Sys2Proof/Machine/Operands.lean ====
section
/-! DEFINITION. What an operand reaches: table entries by index, node records, bits of a byte (20_memory.md
R50, R57; 30_encoding.md R71, R79). -/

namespace Sys2Proof.Machine

/-- The number whose bits are the list, first bit least significant. -/
def bitsToNat : List Bool → Nat
  | [] => 0
  | b :: bs => b.toNat + 2 * bitsToNat bs

/-- The bits of a payload byte, low to high (20_memory.md R52). -/
def byteBits (x : Byte) : List Bool := (List.range 8).map x.getLsbD

/-- The record of an internal node, none for an index outside 256..510 (R24). -/
def nodeAt (node : Vector NodeRec 255) (n : NodeIdx) : Option NodeRec :=
  if n.toNat < Config.firstInternal then none else node[n.toNat - Config.firstInternal]?

/-- `FREQ[i]` (R22). -/
def State.freqAt (s : State) (i : Byte) : Word := s.freq[i.toNat]'i.isLt

/-- `CLEN[b]` (R25). -/
def State.clenAt (s : State) (b : Byte) : Byte := s.clen[b.toNat]'b.isLt

/-- `CODE[b]` (R25). -/
def State.codeAt (s : State) (b : Byte) : CodeBits := s.code[b.toNat]'b.isLt

/-- The code of a byte as its bits: `CODE[b][0..CLEN[b]-1]` (00_scope.md R14). -/
def State.codeBitsOf (s : State) (b : Byte) : List Bool :=
  (List.range (s.clenAt b).toNat).map (s.codeAt b).getLsbD

/-- The response of RCODE: bit `j` is `CODE[b][32k + j]` when `32k + j < CLEN[b]`, else 0 (R79, R127). -/
def State.codeChunk (s : State) (b : Byte) (k : BitVec 3) : Word :=
  BitVec.ofNat 32 (bitsToNat ((List.range 32).map fun j =>
    decide (32 * k.toNat + j < (s.clenAt b).toNat) && (s.codeAt b).getLsbD (32 * k.toNat + j)))

/-- The response of RNODE: `rep << 18 | child1 << 9 | child0` (R79, R124). -/
def nodeResponse (r : NodeRec) : Word := (0 : BitVec 6) ++ r.rep ++ r.child1 ++ r.child0

/-- A byte with one bit replaced: `v[i] <- bit`. -/
def setBit (v : Byte) (i : BitVec 3) (bit : Bool) : Byte :=
  if bit then v ||| (1#8 <<< i.toNat) else v &&& ~~~(1#8 <<< i.toNat)

/-- The bits of the last payload byte that are consumed: `x[0]` to `x[(8 - PAD_IN) - 1]` (44_decoder.md R174). -/
def State.lastBits (s : State) (x : Byte) : List Bool := (byteBits x).take (8 - s.padIn.toNat)

end Sys2Proof.Machine
end

