-- ==== Sys2Proof/Machine/Ops.lean ====
section
/-! DEFINITION. The named operations on the state (00_scope.md R11): each register's write, `emit`, `respond`,
`raise`, the reset of every register, the order of checks (60_exceptions.md R202, R203), the read of a node. -/

namespace Sys2Proof.Machine

/-! ## One write per register -/

/-- `FREQ[i] <- v` (R22). -/
def State.setFreq (s : State) (i : Byte) (v : Word) : State := { s with freq := s.freq.set i.toNat v i.isLt }

/-- `TREE_VALID <- v` (R23). -/
def State.setTreeValid (s : State) (v : Bool) : State := { s with treeValid := v }

/-- `NODE`, `CLEN` and `CODE`, which only BUILD writes, and together (R24, R25). -/
def State.setTables (s : State) (node : Vector NodeRec 255) (clen : Vector Byte 256)
    (code : Vector CodeBits 256) : State := { s with node := node, clen := clen, code := code }

/-- `ACC <- v` (R26). -/
def State.setAcc (s : State) (v : Byte) : State := { s with acc := v }

/-- `BITPOS <- v` (R27). -/
def State.setBitpos (s : State) (v : BitVec 3) : State := { s with bitpos := v }

/-- `PAD_OUT <- v` (R28). -/
def State.setPadOut (s : State) (v : BitVec 3) : State := { s with padOut := v }

/-- `ENC_OPEN <- v` (R30). -/
def State.setEncOpen (s : State) (v : Bool) : State := { s with encOpen := v }

/-- `PAD_IN <- v` (R31). -/
def State.setPadIn (s : State) (v : BitVec 3) : State := { s with padIn := v }

/-- `CURSOR <- v` (R32). -/
def State.setCursor (s : State) (v : NodeIdx) : State := { s with cursor := v }

/-- `DEC_OPEN <- v` (R33). -/
def State.setDecOpen (s : State) (v : Bool) : State := { s with decOpen := v }

/-- `respond(v)`: `RESP <- v` (R35, 00_scope.md R11). -/
def State.respond (s : State) (v : Word) : State := { s with resp := v }

/-- `emit(v)`: one byte more on `OUT` (R34, 00_scope.md R11). -/
def State.emit (s : State) (v : Byte) : State := { s with out := s.out ++ [v] }

/-- `ERR` and `ERR_OPC`, which are written together (R36, R37). -/
def State.setErr (s : State) (code : BitVec 4) (opc : Byte) : State := { s with err := code, errOpc := opc }

/-- The port after the block has taken what stands first in it. -/
def State.setPort (s : State) (p : List HostInput) : State := { s with port := p }

/-- Every register at its reset value (R41, R230, 45_control.md R191). It emits nothing and takes back no
byte of `OUT` (R34); what the host has presented still stands in the port. -/
def State.resetRegs (s : State) : State := { State.reset with out := s.out, port := s.port }

/-! ## Errors -/

/-- The errors of 60_exceptions.md R200. -/
inductive ErrCode where
  | illegalCmd
  | noTree
  | corruptHeader
  | corruptPayload
  | sequence
  deriving DecidableEq, Repr

/-- The code in `ERR` (R200). -/
def ErrCode.bits : ErrCode → BitVec 4
  | .illegalCmd => 1
  | .noTree => 2
  | .corruptHeader => 3
  | .corruptPayload => 4
  | .sequence => 5

/-- `raise E(code)` (60_exceptions.md R201), this block's taking of an exception: `ERR` and `ERR_OPC` are
written and the command ends. There is no vector, no saved pc and no mode (R205). The return is CLEAR
(R206). -/
def raise (c : ErrCode) (opc : Byte) (s : State) : Result := .next (s.setErr c.bits opc)

/-- The sticky error state (60_exceptions.md R202). -/
def State.sticky (s : State) : Bool := s.err != 0

/-- The first check of a list that fails decides the error (60_exceptions.md R203). A check is true when
it fails. -/
def firstError : List (Bool × ErrCode) → Option ErrCode
  | [] => none
  | (true, c) :: _ => some c
  | (false, _) :: cs => firstError cs

/-- A command of opcode `opc` with its checks in the order of 60_exceptions.md R203: in the sticky state it is
ignored (R202), else the first failing check raises, else its effect is had. -/
def execute (opc : Byte) (checks : List (Bool × ErrCode)) (s : State) (effect : Result) : Result :=
  if s.sticky then .next s
  else match firstError checks with
    | some c => raise c opc s
    | none => effect

/-- An illegal word: ILLEGAL_CMD and no other effect, or ignored in the sticky state (30_encoding.md R74). -/
def rejectWord (opc : Byte) (s : State) : Result := execute opc [(true, .illegalCmd)] s (.next s)

/-! ## Sequencing and the node read -/

/-- What follows a result, when it is a next state. -/
def andThen (r : Result) (f : State → Result) : Result :=
  match r with
  | .next s => f s
  | .fault e => .fault e
  | .refused e => .refused e

/-- The one read of `NODE[n]`. An index without a record faults: log entry 5. -/
def readNode (n : NodeIdx) (s : State) (f : NodeRec → Result) : Result :=
  match nodeAt s.node n with
  | some r => f r
  | none => .fault (.noSuchNode n)

end Sys2Proof.Machine
end

