-- ==== Sys2Proof/Machine/Control.lean ====
section
/-! DEFINITION. NOP and CLEAR (45_control.md). Both execute in the sticky state too (60_exceptions.md R202). -/

namespace Sys2Proof.Machine

/-- R190. -/
def execNop (s : State) : Result := .next s

/-- R191: the soft reset, and the one way out of the error state (60_exceptions.md R206). -/
def execClear (s : State) : Result := .next s.resetRegs

end Sys2Proof.Machine
end

