-- ==== Sys2Proof/Machine/Flags.lean ====
section
/-! DEFINITION. The status flags (10_state.md R40), the checks that read them (60_exceptions.md R203) and the
host's read-only views (10_state.md R35, R38, R39). -/

namespace Sys2Proof.Machine

/-- A stream is open (R30, R33). -/
def State.streamOpen (s : State) : Bool := s.encOpen || s.decOpen

/-- Check 3 of R203: WFREQ and BUILD need both streams closed. -/
def State.streamCheck (s : State) : Bool × ErrCode := (s.streamOpen, .sequence)

/-- Check 4 of R203: the command needs the tree. -/
def State.treeCheck (s : State) : Bool × ErrCode := (!s.treeValid, .noTree)

/-- One bit as a field. -/
def flag (b : Bool) : BitVec 1 := BitVec.ofBool b

/-- `STATUS` (R38), from bit 31 down. -/
def State.statusView (s : State) : Word :=
  (0 : BitVec 6) ++ s.cursor ++ s.padIn ++ s.padOut ++ s.bitpos ++ (0 : BitVec 1) ++
    flag s.decOpen ++ flag s.encOpen ++ flag s.treeValid ++ s.err

/-- `ERRINFO` (R39). -/
def State.errInfoView (s : State) : Word := (0 : BitVec 24) ++ s.errOpc

/-- The host's read of `RESP` (R35). -/
def State.respView (s : State) : Word := s.resp

end Sys2Proof.Machine
end

