-- ==== Sys2Proof/Machine/Decoder.lean ====
section
/-! DEFINITION. The bitstream decoder (44_decoder.md). -/

namespace Sys2Proof.Machine

/-- R170. -/
def execSetpad (p : Byte) (s : State) : Result :=
  execute 0x30 [(Config.padMax.ult p, .corruptHeader)] s (.next (s.setPadIn (p.setWidth 3)))

/-- The second half of `dec_bit` (R171): a leaf is emitted at once and the cursor goes back to `ROOT`. -/
def landOn (n : NodeIdx) (s : State) : State :=
  if n.toNat < Config.firstInternal then (s.emit (n.setWidth 8)).setCursor Config.root
  else s.setCursor n

/-- `dec_bit` (R171). -/
def decBit (bit : Bool) (s : State) : Result :=
  readNode s.cursor s fun r => .next (landOn (if bit then r.child1 else r.child0) s)

/-- `dec_bit` on each bit in turn (R173, R174). -/
def decBits : List Bool → State → Result
  | [], s => .next s
  | b :: bs, s => andThen (decBit b s) (decBits bs)

/-- `end_check` (R172), in the command of opcode `opc`. -/
def endCheck (opc : Byte) (s : State) : Result :=
  if s.cursor = Config.root then .next (s.setDecOpen false)
  else raise .corruptPayload opc ((s.setCursor Config.root).setDecOpen false)

/-- R173: all 8 bits. -/
def execDec (x : Byte) (s : State) : Result :=
  execute 0x31 [s.treeCheck] s (andThen (decBits (byteBits x) s) fun t => .next (t.setDecOpen true))

/-- R174: the low `8 - PAD_IN` bits, then the end check. -/
def execDeclast (x : Byte) (s : State) : Result :=
  execute 0x32 [s.treeCheck] s (andThen (decBits (s.lastBits x) s) (endCheck 0x32))

/-- R175. -/
def execDecend (s : State) : Result := execute 0x33 [s.treeCheck] s (endCheck 0x33 s)

end Sys2Proof.Machine
end

