-- ==== Sys2Proof/Machine/Encoder.lean ====
section
/-! DEFINITION. The bitstream encoder (43_encoder.md). -/

namespace Sys2Proof.Machine

/-- One pass of R150's loop: the bit goes to `ACC[BITPOS]`, and a full byte is emitted. -/
def appendBit (s : State) (bit : Bool) : State :=
  let t := s.setAcc (setBit s.acc s.bitpos bit)
  if s.bitpos = 7 then ((t.emit t.acc).setAcc 0).setBitpos 0 else t.setBitpos (s.bitpos + 1)

/-- R150's loop over the bits of a code, the branch at depth 0 first (20_memory.md R52). -/
def appendBits (s : State) (bits : List Bool) : State := bits.foldl appendBit s

/-- R150. -/
def execEnc (b : Byte) (s : State) : Result :=
  execute 0x20 [s.treeCheck] s (.next ((appendBits s (s.codeBitsOf b)).setEncOpen true))

/-- R151: the partial byte, if any, goes out as it is, and `PAD_OUT` counts its unused high bits. -/
def flushed (s : State) : State :=
  let t := if s.bitpos = 0 then s.setPadOut 0
    else (s.emit s.acc).setPadOut (BitVec.ofNat 3 (8 - s.bitpos.toNat))
  ((t.setAcc 0).setBitpos 0).setEncOpen false

/-- R151. -/
def execEflush (s : State) : Result := execute 0x21 [] s (.next (flushed s))

end Sys2Proof.Machine
end

