-- ==== Sys2Proof/Machine/Binary32.lean ====
section
/-! DEFINITION. The binary32 primitives (00_scope.md R12), on 32-bit patterns. What binary32 addition and
comparison mean is PRESUMED: the spec names IEEE 754 and marks the meaning as general knowledge (93_implementation_defined.md
GK1); log entry 7. -/

namespace Sys2Proof.Machine

/-- `v[hi:lo]` of a pattern, read as an unsigned number (00_scope.md R9). -/
def bits32 (v : Word) (hi lo : Nat) : Nat := v.toNat / 2 ^ lo % 2 ^ (hi + 1 - lo)

/-- The sign bit `v[31]`. -/
def signBit (v : Word) : Bool := bits32 v 31 31 == 1

/-- The biased exponent `v[30:23]`. -/
def expField (v : Word) : Nat := bits32 v 30 23

/-- The fraction `v[22:0]`. -/
def fracField (v : Word) : Nat := bits32 v 22 0

/-- The magnitude bits `v[30:0]`. -/
def magField (v : Word) : Nat := bits32 v 30 0

/-- `is_nan` (R12). -/
def isNan (v : Word) : Bool := expField v == 0xFF && fracField v != 0

/-- `is_neg_nonzero` (R12). -/
def isNegNonzero (v : Word) : Bool := signBit v && magField v != 0

/-- An infinity of either sign. -/
def isInf (v : Word) : Bool := expField v == 0xFF && fracField v == 0

/-- The magnitude bits of an infinity. -/
def infMag : Nat := 0x7F800000

/-- The magnitude of a finite pattern in units of 2^-149, exactly; subnormals count (R12: none is flushed). -/
def unitsOf (v : Word) : Nat :=
  if expField v = 0 then fracField v else (2 ^ 23 + fracField v) * 2 ^ (expField v - 1)

/-- The exact value of a finite pattern in units of 2^-149. -/
def signedUnits (v : Word) : Int := if signBit v then -(unitsOf v : Int) else unitsOf v

/-- How many low bits a magnitude of `m` whole units loses: none while it fits 24 bits. -/
def dropBits (m : Nat) : Nat := m.log2 - 23

/-- The magnitude bits of the binary32 value nearest to `n / d` units of 2^-149, ties to even (R12), before
overflow is looked at. The kept bits of a value that drops `k` bits are a significand of 24 bits, and its
pattern is `k * 2^23` above it; a carry out of the significand lands in the exponent. -/
def roundBits (n d : Nat) : Nat :=
  let k := dropBits (n / d)
  let unit := d * 2 ^ k
  let q := n / unit
  let r := n % unit
  let up := if unit < 2 * r ∨ (2 * r = unit ∧ q % 2 = 1) then 1 else 0
  k * 2 ^ 23 + q + up

/-- The same, with overflow to +infinity (R12). -/
def roundMag (n d : Nat) : Nat := min (roundBits n d) infMag

/-- A pattern from a sign and magnitude bits. -/
def withSign (neg : Bool) (mag : Nat) : Word := BitVec.ofNat 32 (mag + if neg then 2 ^ 31 else 0)

/-- `f32_add` (R12): the exact sum rounded once, to nearest with ties to even. A NaN operand, or infinities
of opposite sign, give the free value of log entry 6. -/
def f32Add (a b : Word) : Word :=
  if isNan a || isNan b then Config.nanResult a b
  else if isInf a then
    if isInf b && signBit a != signBit b then Config.nanResult a b else a
  else if isInf b then b
  else
    let x := signedUnits a + signedUnits b
    if x = 0 then withSign (signBit a && signBit b) 0
    else withSign (x < 0) (roundMag x.natAbs 1)

/-- The place of a non-NaN pattern in the order of values: its magnitude bits, with its sign. Both zeros
have place 0. -/
def orderKey (v : Word) : Int := if signBit v then -(magField v : Int) else magField v

/-- `f32_lt` (R12): ordered comparison. -/
def f32Lt (a b : Word) : Bool := !isNan a && !isNan b && orderKey a < orderKey b

/-- `f32_eq` (R12): ordered comparison. -/
def f32Eq (a b : Word) : Bool := !isNan a && !isNan b && orderKey a == orderKey b

/-- The binary32 value nearest to the rational `n / d`, ties to even: `rnd32` of 41_weights.md R102. -/
def rnd32 (n d : Nat) : Word := withSign false (roundMag (n * 2 ^ 149) d)

/-- A weight BUILD accepts (42_tree_builder.md R120). -/
def legalWeight (v : Word) : Bool := !isNan v && !isNegNonzero v

end Sys2Proof.Machine
end

