-- ==== Sys2Proof/Machine/Tree.lean ====
section
/-! DEFINITION. The tree builder and the code table as functions (42_tree_builder.md R121, R123). -/

namespace Sys2Proof.Machine

/-- An entry of the working set: the triple (weight, rep, node) of 00_scope.md R13. -/
structure Entry where
  w : Word
  rep : Byte
  node : NodeIdx
  deriving DecidableEq, Repr

/-- `key_lt` (00_scope.md R13). -/
def keyLt (x y : Entry) : Bool := f32Lt x.w y.w || (f32Eq x.w y.w && x.rep.toNat < y.rep.toNat)

/-- The working set is kept in `key_lt` order, so that its head is its least entry: a new entry goes in
before the first one it is less than (the source's "ordered working set", "tie-break queue"; R14). -/
def enqueue (e : Entry) : List Entry → List Entry
  | [] => [e]
  | x :: xs => if keyLt e x then e :: x :: xs else x :: enqueue e xs

/-- The record a merge makes: the entry of lower rep is child 0, whatever the weights (R121). -/
def mergeRec (a b : Entry) : NodeRec :=
  if a.rep.toNat < b.rep.toNat then ⟨a.node, b.node, a.rep, f32Add a.w b.w⟩
  else ⟨b.node, a.node, b.rep, f32Add a.w b.w⟩

/-- The index of an internal node by its merge: `256 + k` (R121). -/
def internalIdx (k : Nat) : NodeIdx := BitVec.ofNat 9 (Config.firstInternal + k)

/-- The entry a merge puts back (R121). -/
def mergeEntry (k : Nat) (a b : Entry) : Entry := ⟨(mergeRec a b).w, (mergeRec a b).rep, internalIdx k⟩

/-- `m` merges from merge `k` on: each takes the two least entries (R121). The records, in the order they
are made. -/
def merges : (m k : Nat) → List Entry → List NodeRec
  | m + 1, k, a :: b :: rest => mergeRec a b :: merges m (k + 1) (enqueue (mergeEntry k a b) rest)
  | _, _, _ => []

/-- The entries BUILD starts from, one for each byte value, in index order (R121). -/
def leafEntries (freq : Vector Word 256) : List Entry :=
  freq.toList.zipIdx.map fun p => ⟨p.1, BitVec.ofNat 8 p.2, BitVec.ofNat 9 p.2⟩

/-- The working set BUILD starts from (R121). -/
def startSet (freq : Vector Word 256) : List Entry := (leafEntries freq).foldr enqueue []

/-- `NODE[256..510]` as BUILD makes it from `FREQ` (R121). There are always 255 records, so the filler
is never used. -/
def buildNodes (freq : Vector Word 256) : Vector NodeRec 255 :=
  let recs := merges Config.nint 0 (startSet freq)
  Vector.ofFn fun k => recs.getD k ⟨0, 0, 0, 0⟩

/-- The leaves below `n` with the branches taken to each, child 0 first (R123: the depth-first traversal).
`fuel` bounds the nodes on a path; 256 is enough, since no leaf is deeper than 255 (R122). -/
def leafPaths (node : Vector NodeRec 255) : (fuel : Nat) → NodeIdx → List (Byte × List Bool)
  | 0, _ => []
  | fuel + 1, n =>
    if n.toNat < Config.firstInternal then [(n.setWidth 8, [])]
    else match nodeAt node n with
      | none => []
      | some r =>
        (leafPaths node fuel r.child0).map (fun p => (p.1, false :: p.2)) ++
        (leafPaths node fuel r.child1).map (fun p => (p.1, true :: p.2))

/-- The branches from `ROOT` to leaf `b`, given all leaves' paths. -/
def pathOf (paths : List (Byte × List Bool)) (b : Byte) : List Bool := (paths.lookup b).getD []

/-- Every leaf of a tree with its path from `ROOT`. -/
def rootPaths (node : Vector NodeRec 255) : List (Byte × List Bool) := leafPaths node 256 Config.root

/-- `CLEN`: the depth of each leaf (R123). -/
def deriveClen (node : Vector NodeRec 255) : Vector Byte 256 :=
  let paths := rootPaths node
  Vector.ofFn fun b => BitVec.ofNat 8 (pathOf paths (BitVec.ofNat 8 b)).length

/-- `CODE`: bit `i` is the branch at depth `i`, and the bits past the depth are 0 (R123). -/
def deriveCode (node : Vector NodeRec 255) : Vector CodeBits 256 :=
  let paths := rootPaths node
  Vector.ofFn fun b => BitVec.ofNat 255 (bitsToNat (pathOf paths (BitVec.ofNat 8 b)))

/-- Every weight is legal (R120). -/
def allLegal (freq : Vector Word 256) : Bool := freq.toList.all legalWeight

end Sys2Proof.Machine
end

