-- ==== Sys2Proof/Machine/TreeBuilder.lean ====
section
/-! DEFINITION. BUILD and the tree readback commands (42_tree_builder.md). -/

namespace Sys2Proof.Machine

/-- What a BUILD that raises nothing does (R121). -/
def State.builtTree (s : State) : State :=
  let node := buildNodes s.freq
  ((s.setTables node (deriveClen node) (deriveCode node)).setTreeValid true).setCursor Config.root

/-- R121. -/
def execBuild (s : State) : Result :=
  execute 0x12 [s.streamCheck, (!allLegal s.freq, .corruptHeader)] s (.next s.builtTree)

/-- R124. A decoded RNODE names an internal node; another operand is the illegal word's ILLEGAL_CMD. -/
def execRnode (n : NodeIdx) (s : State) : Result :=
  execute 0x15 [(!isInternalIdx n, .illegalCmd), s.treeCheck] s
    (readNode n s fun r => .next (s.respond (nodeResponse r)))

/-- R125. A leaf's weight is `FREQ[n]`; 511 is the illegal word's ILLEGAL_CMD. -/
def execRwgt (n : NodeIdx) (s : State) : Result :=
  execute 0x16 [(!isNodeIdx n, .illegalCmd), s.treeCheck] s
    (if n.toNat < Config.firstInternal then .next (s.respond (s.freqAt (n.setWidth 8)))
     else readNode n s fun r => .next (s.respond r.w))

/-- R126. -/
def execRclen (b : Byte) (s : State) : Result :=
  execute 0x13 [s.treeCheck] s (.next (s.respond ((s.clenAt b).setWidth 32)))

/-- R127. -/
def execRcode (b : Byte) (k : BitVec 3) (s : State) : Result :=
  execute 0x14 [s.treeCheck] s (.next (s.respond (s.codeChunk b k)))

end Sys2Proof.Machine
end

