-- ==== Sys2Proof/Machine/Weights.lean ====
section
/-! DEFINITION. The weight table commands (41_weights.md). -/

namespace Sys2Proof.Machine

/-- R100. The pattern is stored as it is; BUILD looks at it later. -/
def execWfreq (i : Byte) (v : Word) (s : State) : Result :=
  execute 0x10 [s.streamCheck] s (.next ((s.setFreq i v).setTreeValid false))

/-- R101. -/
def execRfreq (i : Byte) (s : State) : Result := execute 0x11 [] s (.next (s.respond (s.freqAt i)))

end Sys2Proof.Machine
end

