-- ==== Sys2Proof/Machine/Dispatch.lean ====
section
/-! DEFINITION. Each command to its meaning. -/

namespace Sys2Proof.Machine

def exec (i : Instr) (s : State) : Host.Outcome State Fault Refusal :=
  match i with
  | .nop => Sys2Proof.Machine.execNop s
  | .clear => Sys2Proof.Machine.execClear s
  | .wfreq b v => Sys2Proof.Machine.execWfreq b v s
  | .rfreq b => Sys2Proof.Machine.execRfreq b s
  | .build => Sys2Proof.Machine.execBuild s
  | .rclen b => Sys2Proof.Machine.execRclen b s
  | .rcode b k => Sys2Proof.Machine.execRcode b k s
  | .rnode n => Sys2Proof.Machine.execRnode n s
  | .rwgt n => Sys2Proof.Machine.execRwgt n s
  | .enc b => Sys2Proof.Machine.execEnc b s
  | .eflush => Sys2Proof.Machine.execEflush s
  | .setpad p => Sys2Proof.Machine.execSetpad p s
  | .dec x => Sys2Proof.Machine.execDec x s
  | .declast x => Sys2Proof.Machine.execDeclast x s
  | .decend => Sys2Proof.Machine.execDecend s

end Sys2Proof.Machine
end

