-- ==== Sys2Proof/Decode.lean ====
section
/-! DEFINITION. The decoder, total on every 64-bit word (30_encoding.md R70 to R78), and the encoder. -/

namespace Sys2Proof

/-! ## The fields of a command word (R70, R71) -/

/-- `OPC = cmd[7:0]`. -/
def opcField (w : CmdWord) : Byte := w.extractLsb' 0 8

/-- `B = cmd[15:8]`. -/
def byteField (w : CmdWord) : Byte := w.extractLsb' 8 8

/-- `RSV = cmd[31:16]`. -/
def rsvField (w : CmdWord) : BitVec 16 := w.extractLsb' 16 16

/-- `W = cmd[63:32]`. -/
def wordField (w : CmdWord) : Word := w.extractLsb' 32 32

/-- `n9 = W[8:0]`. -/
def nodeField (w : CmdWord) : NodeIdx := (wordField w).extractLsb' 0 9

/-- `k3 = W[2:0]`. -/
def chunkField (w : CmdWord) : BitVec 3 := (wordField w).extractLsb' 0 3

/-- The word with the given fields and `RSV` = 0 (R70). -/
def cmdWord (opc b : Byte) (w : Word) : CmdWord := w ++ (0 : BitVec 16) ++ b ++ opc

/-! ## The opcode map (R72) and the rows (R73) -/

/-- The opcode byte of a command (R72). -/
def Instr.opcode : Instr → Byte
  | .nop => 0x00
  | .clear => 0x01
  | .wfreq _ _ => 0x10
  | .rfreq _ => 0x11
  | .build => 0x12
  | .rclen _ => 0x13
  | .rcode _ _ => 0x14
  | .rnode _ => 0x15
  | .rwgt _ => 0x16
  | .enc _ => 0x20
  | .eflush => 0x21
  | .setpad _ => 0x30
  | .dec _ => 0x31
  | .declast _ => 0x32
  | .decend => 0x33

/-- One row of R73: a word selects it when `(cmd & mask) = pattern`; `operands` reads the command. -/
structure Row where
  pattern : CmdWord
  mask : CmdWord
  operands : CmdWord → Instr

/-- The fifteen rows of R73, in its order. -/
def rows : List Row := [
  ⟨0x0000000000000000, 0xFFFFFFFFFFFFFFFF, fun _ => .nop⟩,
  ⟨0x0000000000000001, 0xFFFFFFFFFFFFFFFF, fun _ => .clear⟩,
  ⟨0x0000000000000010, 0x00000000FFFF00FF, fun w => .wfreq (byteField w) (wordField w)⟩,
  ⟨0x0000000000000011, 0xFFFFFFFFFFFF00FF, fun w => .rfreq (byteField w)⟩,
  ⟨0x0000000000000012, 0xFFFFFFFFFFFFFFFF, fun _ => .build⟩,
  ⟨0x0000000000000013, 0xFFFFFFFFFFFF00FF, fun w => .rclen (byteField w)⟩,
  ⟨0x0000000000000014, 0xFFFFFFF8FFFF00FF, fun w => .rcode (byteField w) (chunkField w)⟩,
  ⟨0x0000000000000015, 0xFFFFFE00FFFFFFFF, fun w => .rnode (nodeField w)⟩,
  ⟨0x0000000000000016, 0xFFFFFE00FFFFFFFF, fun w => .rwgt (nodeField w)⟩,
  ⟨0x0000000000000020, 0xFFFFFFFFFFFF00FF, fun w => .enc (byteField w)⟩,
  ⟨0x0000000000000021, 0xFFFFFFFFFFFFFFFF, fun _ => .eflush⟩,
  ⟨0x0000000000000030, 0xFFFFFFFFFFFF00FF, fun w => .setpad (byteField w)⟩,
  ⟨0x0000000000000031, 0xFFFFFFFFFFFF00FF, fun w => .dec (byteField w)⟩,
  ⟨0x0000000000000032, 0xFFFFFFFFFFFF00FF, fun w => .declast (byteField w)⟩,
  ⟨0x0000000000000033, 0xFFFFFFFFFFFFFFFF, fun _ => .decend⟩]

/-- The word selects the row (R73). -/
def Row.selects (r : Row) (w : CmdWord) : Bool := w &&& r.mask == r.pattern

/-- Why a word is illegal: the three cases of R74. -/
inductive Illegal where
  /-- Its opcode is not in R72. -/
  | reservedOpcode
  /-- It matches no row of R73, because a must-be-zero field is nonzero. -/
  | mustBeZero
  /-- It fails the range check of R76. -/
  | nodeRange
  deriving DecidableEq, Repr

/-- The opcode is one of R72's. -/
def isListedOpcode (opc : Byte) : Bool := rows.any fun r => r.pattern.extractLsb' 0 8 == opc

/-- The decoder of R77, total on every word; an illegal word is refused with the reason of R74. -/
def decode (w : CmdWord) : Except Illegal Instr :=
  match rows.find? fun r => r.selects w with
  | some r =>
    if (r.operands w).wellFormed then .ok (r.operands w) else .error .nodeRange
  | none => .error (if isListedOpcode (opcField w) then .mustBeZero else .reservedOpcode)

/-! ## The encoder -/

/-- The word of a command, field by field from R70 and R72. -/
def encode : Instr → CmdWord
  | .nop => cmdWord 0x00 0 0
  | .clear => cmdWord 0x01 0 0
  | .wfreq i v => cmdWord 0x10 i v
  | .rfreq i => cmdWord 0x11 i 0
  | .build => cmdWord 0x12 0 0
  | .rclen b => cmdWord 0x13 b 0
  | .rcode b k => cmdWord 0x14 b (k.setWidth 32)
  | .rnode n => cmdWord 0x15 0 (n.setWidth 32)
  | .rwgt n => cmdWord 0x16 0 (n.setWidth 32)
  | .enc b => cmdWord 0x20 b 0
  | .eflush => cmdWord 0x21 0 0
  | .setpad p => cmdWord 0x30 p 0
  | .dec x => cmdWord 0x31 x 0
  | .declast x => cmdWord 0x32 x 0
  | .decend => cmdWord 0x33 0 0

/-! ## Bytes and table words -/

/-- The eight bytes of a word in the order a byte-serial link carries them, `cmd[7:0]` first (20_memory.md R54). -/
def serialBytes (w : CmdWord) : List Byte := (List.range 8).map fun j => w.extractLsb' (8 * j) 8

/-- The word eight serial bytes stand for (20_memory.md R54). -/
def wordOfSerial : List Byte → CmdWord
  | [] => 0
  | b :: bs => b.setWidth 64 ||| (wordOfSerial bs <<< 8)

/-- The decoder on a byte-serial link: the next command and the bytes after it, none while fewer than
eight bytes have come (R78: every command is 64 bits long). -/
def decodeBytes (bs : List Byte) : Option (Except Illegal Instr × List Byte) :=
  if bs.length < 8 then none else some (decode (wordOfSerial (bs.take 8)), bs.drop 8)

/-- The command word a table word stands for: bit 0 is `cmd[0]`, every bit from `nbits` up is 0. -/
def tableWord (nbits w : Nat) : CmdWord := BitVec.ofNat 64 (w % 2 ^ nbits)

/-- The decoder's answer for a word numbered as spec/opcode_table.json numbers its bits. -/
def decodeTableWord (nbits w : Nat) : Option Instr :=
  match decode (tableWord nbits w) with
  | .ok i => some i
  | .error _ => none

end Sys2Proof
end

