-- ==== Sys2Proof/Machine/Port.lean ====
section
/-! DEFINITION. The host's side of the command port and the reset input (20_memory.md R51, R62; 70_reset_and_hazards.md
R230, R235). -/

namespace Sys2Proof.Machine

/-- What the block takes next: the oldest thing the host has presented, and the state without it. -/
def takeInput (s : State) : Option (HostInput × State) :=
  match s.port with
  | [] => none
  | p :: ps => some (p, s.setPort ps)

/-- The host presents more (R62: after all it has presented before). -/
def State.present (s : State) (ps : List HostInput) : State := s.setPort (s.port ++ ps)

/-- Nothing is presented: every register keeps its value (60_exceptions.md R225). Log entry 2. -/
def idle (s : State) : Result := .next s

/-- Power-on reset (R230), the same as CLEAR. -/
def powerOnReset (s : State) : Result := .next s.resetRegs

/-- A command word placed so that the block takes it next. -/
def placeWord (s : State) (w : CmdWord) : State := s.setPort (.command w :: s.port)

end Sys2Proof.Machine
end

