-- ==== Sys2Proof/Machine/Step.lean ====
section
/-! DEFINITION. One step of the block: one thing the host has presented (20_memory.md R59, R62; 70_reset_and_hazards.md R241). -/

namespace Sys2Proof.Machine

/-- The block takes the oldest input: the reset input resets it, a legal word runs its command, an
illegal word is rejected (30_encoding.md R74). Its operands are those of the word taken (20_memory.md R65). -/
def step (s : State) : Host.Outcome State Fault Refusal :=
  match takeInput s with
  | none => idle s
  | some (.reset, t) => powerOnReset t
  | some (.command w, t) =>
    match decode w with
    | .ok i => exec i t
    | .error _ => rejectWord (opcField w) t

/-- The state with the table word presented first, so that the next step takes it. Log entry 2. -/
def State.withFetchWord (s : State) (nbits w : Nat) : State := placeWord s (tableWord nbits w)

end Sys2Proof.Machine
end

