-- ==== Sys2Proof/Machine/Assembler.lean ====
section
/-! DEFINITION. The assembler syntax for writing command sequences (30_encoding.md R82). Blanks, letter case,
empty lines and what an error does to the other lines are the model's, log entry 11. -/

namespace Sys2Proof.Machine

/-- Where an operand of an assembler form goes, with the bound of its field. -/
inductive AsmField where
  /-- To `B`: 0..255. -/
  | byte
  /-- To `W`, a 32-bit pattern. -/
  | word
  /-- To `W`, a chunk index: 0..7. -/
  | chunk
  /-- To `W`, a node index: 0..511. Its range of R76 is the block's to check. -/
  | node
  deriving DecidableEq, Repr

/-- The values that fit the field. -/
def AsmField.bound : AsmField → Nat
  | .byte => 2 ^ 8
  | .word => 2 ^ 32
  | .chunk => 2 ^ 3
  | .node => 2 ^ 9

/-- The word with one more operand in its field, none if the operand does not fit. -/
def AsmField.place (f : AsmField) (v : Nat) (w : CmdWord) : Option CmdWord :=
  if v < f.bound then
    some (w ||| (BitVec.ofNat 64 v <<< if f = .byte then 8 else 32))
  else none

/-- The forms of R82: mnemonic, opcode, operands. -/
def asmForms : List (String × Byte × List AsmField) := [
  ("NOP", 0x00, []), ("CLEAR", 0x01, []), ("WFREQ", 0x10, [.byte, .word]), ("RFREQ", 0x11, [.byte]),
  ("BUILD", 0x12, []), ("RCLEN", 0x13, [.byte]), ("RCODE", 0x14, [.byte, .chunk]), ("RNODE", 0x15, [.node]),
  ("RWGT", 0x16, [.node]), ("ENC", 0x20, [.byte]), ("EFLUSH", 0x21, []), ("SETPAD", 0x30, [.byte]),
  ("DEC", 0x31, [.byte]), ("DECLAST", 0x32, [.byte]), ("DECEND", 0x33, [])]

/-- The operands placed one after another; none when their number is wrong or one does not fit. -/
def placeAll : List AsmField → List Nat → CmdWord → Option CmdWord
  | [], [], w => some w
  | f :: fs, v :: vs, w => (f.place v w).bind (placeAll fs vs)
  | _, _, _ => none

/-- The word of a mnemonic with its operands, none for an assembler error (R82). -/
def assembleForm (mnemonic : List Char) (operands : List Nat) : Option CmdWord :=
  match asmForms.find? fun f => f.1.toList == mnemonic with
  | some f => placeAll f.2.2 operands (f.2.1.setWidth 64)
  | none => none

/-- A blank of the line. -/
def isBlank (c : Char) : Bool := c == ' ' || c == '\t' || c == '\r'

/-- The characters without blanks at either end. -/
def trim (cs : List Char) : List Char := ((cs.dropWhile isBlank).reverse.dropWhile isBlank).reverse

/-- The value of a digit in a base up to 16. -/
def digit (base : Nat) (c : Char) : Option Nat :=
  let v :=
    if '0' ≤ c ∧ c ≤ '9' then c.toNat - '0'.toNat
    else if 'a' ≤ c ∧ c ≤ 'f' then c.toNat - 'a'.toNat + 10
    else if 'A' ≤ c ∧ c ≤ 'F' then c.toNat - 'A'.toNat + 10
    else base
  if v < base then some v else none

/-- The digits read after the value so far. -/
def digits (base : Nat) : List Char → Nat → Option Nat
  | [], v => some v
  | c :: cs, v => (digit base c).bind fun d => digits base cs (base * v + d)

/-- A number: decimal, or hex with the prefix `0x` (R82). -/
def number : List Char → Option Nat
  | [] => none
  | '0' :: 'x' :: c :: cs => digits 16 (c :: cs) 0
  | c :: cs => digits 10 (c :: cs) 0

/-- The operands of a line, separated by commas. -/
def operandList (cs : List Char) : Option (List Nat) :=
  if trim cs = [] then some [] else (cs.splitOn ',').mapM fun o => number (trim o)

/-- One line: no word for an empty or comment line, one word for a command, none for an assembler error. -/
def assembleLine (line : List Char) : Option (List CmdWord) :=
  let body := trim (line.takeWhile (· != ';'))
  if body = [] then some []
  else
    let mnemonic := body.takeWhile fun c => !isBlank c
    (operandList (body.drop mnemonic.length)).bind fun os => (assembleForm mnemonic os).map fun w => [w]

/-- A program, one command per line (R82). R82 gives an erring line no word and does not say what becomes of the
other lines: here an error in one line leaves the whole text without words. DESIGN CHOICE, log entry 11. -/
def assemble (text : List Char) : Option (List CmdWord) :=
  ((text.splitOn '\n').mapM assembleLine).map List.flatten

end Sys2Proof.Machine
end

