-- ==== Sys2Proof/Machine/HostContract.lean ====
section
/-! DEFINITION. The host's side, which is no block operation but fixes the values the block consumes
(00_scope.md R6): normalisation, the container, the pseudo-instructions, the compress and decompress
sequences and the end of a session (41_weights.md R102 to R104; 30_encoding.md R83; 70_reset_and_hazards.md R233 to R236). -/

namespace Sys2Proof.Machine

/-! ## Weights and the container -/

/-- The 256 weights of an input (R102): each count over the total, rounded once; all zero for the empty input. -/
def normalise (input : List Byte) : List Word :=
  (List.range Config.nsym).map fun b =>
    if input.length = 0 then 0 else rnd32 (input.count (BitVec.ofNat 8 b)) input.length

/-- The four header bytes of a weight, `v[7:0]` first (20_memory.md R55). -/
def leBytes (v : Word) : List Byte := (List.range 4).map fun j => v.extractLsb' (8 * j) 8

/-- The weights the header's bytes stand for, four bytes each, least significant first (R55, R83). -/
def headerWeights : List Byte → List Word
  | a :: b :: c :: d :: rest => (d ++ c ++ b ++ a) :: headerWeights rest
  | _ => []

/-- The 1025-byte header: the 256 weights, then the padding count (R103). -/
def header (weights : List Word) (pad : Byte) : List Byte := weights.flatMap leBytes ++ [pad]

/-! ## Pseudo-instructions (30_encoding.md R83) -/

/-- `LOADW t` -/
def loadw (t : List Word) : List Instr := t.zipIdx.map fun p => .wfreq (BitVec.ofNat 8 p.2) p.1

/-- `LOADHDR h`, for the 1025 bytes of a header. -/
def loadhdr (h : List Byte) : List Instr :=
  loadw (headerWeights (h.take (Config.hdrBytes - 1))) ++ (h.drop (Config.hdrBytes - 1)).map .setpad

/-- `ENCS s` -/
def encs (s : List Byte) : List Instr := s.map .enc ++ [.eflush]

/-- `DECS p` -/
def decs : List Byte → List Instr
  | [] => [.decend]
  | [x] => [.declast x]
  | x :: y :: rest => .dec x :: decs (y :: rest)

/-! ## Running a session -/

/-- Commands as the host presents them. -/
def asInputs (is : List Instr) : List HostInput := is.map fun i => .command (encode i)

/-- `n` steps, one after another. -/
def runSteps : Nat → State → Result
  | 0, s => .next s
  | n + 1, s => andThen (step s) (runSteps n)

/-- The host presents the commands and waits until the block has taken all that was presented. -/
def runSession (is : List Instr) (s : State) : Result :=
  runSteps (s.port.length + is.length) (s.present (asInputs is))

/-- How a session stands at the host's `STATUS` read after its last command (R236). -/
inductive SessionEnd where
  | succeeded
  | failed
  | unfinished
  deriving DecidableEq, Repr

/-- R236, read from the fields of `STATUS`. With an error recorded and a stream open, R236's failed and unfinished
both apply and it gives no order: here the session has failed. DESIGN CHOICE, log entry 19. -/
def sessionEnd (status : Word) : SessionEnd :=
  if status.extractLsb' 0 4 ≠ 0 then .failed
  else if status.getLsbD 5 || status.getLsbD 6 then .unfinished
  else .succeeded

/-- What the host reports to its caller instead of a result (60_exceptions.md R209, R205). -/
inductive HostError where
  /-- Fewer than 1025 container bytes (41_weights.md R104). -/
  | corruptHeader
  /-- The session did not succeed: `STATUS` at its end. All its output is discarded (R234). -/
  | session (status : Word)
  /-- The model stopped with a fault. It never does in a session (Machine/State.lean, `Fault`). -/
  | stopped
  deriving DecidableEq, Repr

/-- The host runs a session and, if it succeeded, goes on with the state it ends in. -/
def afterSession {α : Type} (is : List Instr) (s : State) (f : State → α) : Except HostError α :=
  match runSession is s with
  | .next t => if sessionEnd t.statusView = .succeeded then .ok (f t) else .error (.session t.statusView)
  | .fault _ => .error .stopped
  | .refused _ => .error .stopped

/-- The bytes a session emitted, from `s` to `t`. -/
def sessionOut (s t : State) : List Byte := t.out.drop s.out.length

/-- The commands of the compress sequence (R233). -/
def compressCmds (input : List Byte) : List Instr :=
  .clear :: (loadw (normalise input) ++ .build :: encs input)

/-- R233: the container of an input, `PAD_OUT` read from `STATUS[13:11]`. -/
def compress (input : List Byte) (s : State) : Except HostError (List Byte) :=
  afterSession (compressCmds input) s fun t =>
    header (normalise input) ((t.statusView.extractLsb' 11 3).setWidth 8) ++ sessionOut s t

/-- The commands of the decompress sequence (R234), for a container of 1025 bytes or more. -/
def decompressCmds (container : List Byte) : List Instr :=
  .clear :: (loadhdr (container.take Config.hdrBytes) ++ .build :: decs (container.drop Config.hdrBytes))

/-- R234: the input a container stands for. A short container reaches the block with no command (R104). -/
def decompress (container : List Byte) (s : State) : Except HostError (List Byte) :=
  if container.length < Config.hdrBytes then .error .corruptHeader
  else afterSession (decompressCmds container) s (sessionOut s)

/-- The padding count computed before encoding, from the counts and the code lengths RCLEN gives (42_tree_builder.md R126). -/
def presummedPad (lengths : List Nat) : Nat := (8 - lengths.sum % 8) % 8

/-- The output byte count of compress for a payload of `n` bytes (92_eei_decisions.md D24, OPEN). -/
def compressOutputCount (n : Nat) : Nat :=
  if Config.outputCountIncludesHeader then Config.hdrBytes + n else n

/-- The input byte count of decompress for a payload of `n` bytes (92_eei_decisions.md D24, OPEN). -/
def decompressInputCount (n : Nat) : Nat :=
  if Config.outputCountIncludesHeader then Config.hdrBytes + n else n

end Sys2Proof.Machine
end

