-- ==== Sys2Proof/Machine/Reference.lean ====
section
/-! DEFINITION. The spec's own wording of what the builder and the streams compute, for statements to hold
the machine against. The machine does not use it. -/

namespace Sys2Proof.Machine

/-! ## R121 word for word: least-entry selection from an unordered working set -/

/-- The `key_lt`-least entry of `e :: es`, and the others. -/
def takeLeast (e : Entry) : List Entry → Entry × List Entry
  | [] => (e, [])
  | x :: xs =>
    if keyLt x e then ((takeLeast x xs).1, e :: (takeLeast x xs).2)
    else ((takeLeast e xs).1, x :: (takeLeast e xs).2)

/-- R121's loop: take the least entry twice, merge, put the merged entry back, `m` times from merge `k` on. -/
def selectMerges : (m k : Nat) → List Entry → List NodeRec
  | m + 1, k, e :: es =>
    match (takeLeast e es).2 with
    | [] => []
    | f :: fs =>
      let a := (takeLeast e es).1
      let b := (takeLeast f fs).1
      mergeRec a b :: selectMerges m (k + 1) (mergeEntry k a b :: (takeLeast f fs).2)
  | _, _, _ => []

/-! ## Paths in a tree (R123, R129) -/

/-- The node reached from `n` by the branches, 0 to child 0; none where a branch leaves from a leaf. -/
def descend (node : Vector NodeRec 255) : NodeIdx → List Bool → Option NodeIdx
  | n, [] => some n
  | n, b :: bs =>
    match nodeAt node n with
    | none => none
    | some r => descend node (if b then r.child1 else r.child0) bs

/-- A leaf (R14: indices 0..255). -/
def isLeafIdx (n : NodeIdx) : Bool := n.toNat < Config.firstInternal

/-- The leaf of a byte (R24). -/
def leafIdx (b : Byte) : NodeIdx := b.setWidth 9

/-- `b` is a leaf below `n`. -/
def isBelow (node : Vector NodeRec 255) (n : NodeIdx) (b : Byte) : Prop :=
  ∃ bits, descend node n bits = some (leafIdx b)

/-! ## The streams (R80, R171) -/

/-- The code bits of an input, in order: the payload before packing (R80). -/
def State.payloadBits (s : State) (input : List Byte) : List Bool := input.flatMap s.codeBitsOf

/-- The symbols the descent from `n` by the bits completes, and where it rests after them (R171). -/
def symbolsOf (node : Vector NodeRec 255) : NodeIdx → List Bool → List Byte × NodeIdx
  | n, [] => ([], n)
  | n, b :: bs =>
    match nodeAt node n with
    | none => ([], n)
    | some r =>
      let c := if b then r.child1 else r.child0
      if isLeafIdx c then
        let rest := symbolsOf node Config.root bs
        (c.setWidth 8 :: rest.1, rest.2)
      else symbolsOf node c bs

/-- The bytes hold the bits: `ceil(T/8)` bytes, bit `t mod 8` of byte `t / 8` the `t`-th bit, and 0 past
the last (R52, R53, R81, R153). -/
def packs (bytes : List Byte) (bits : List Bool) : Prop :=
  bytes.length = (bits.length + 7) / 8 ∧
  ∀ t, t < 8 * bytes.length → (bytes.getD (t / 8) 0).getLsbD (t % 8) = bits.getD t false

end Sys2Proof.Machine
end

