-- ==== Sys2Proof/Safety.lean ====
section
/-! DEFINITION. The terms claims use: the invariants of 10_state.md, what a reset state is, which commands need
the tree, and how an opcode's illegal words are answered. -/

namespace Sys2Proof.Machine

/-- The invariants the spec gives the block's registers. -/
structure Invariants (s : State) : Prop where
  /-- R26: the bits of `ACC` from `BITPOS` up are 0, and `ACC` is 0 when `BITPOS` is. -/
  accClean : s.acc.toNat < 2 ^ s.bitpos.toNat
  /-- R29. -/
  encIdle : s.encOpen = false → s.acc = 0 ∧ s.bitpos = 0
  /-- R32: the cursor is an internal node between commands. -/
  cursorInternal : isInternalIdx s.cursor = true
  /-- R33. -/
  decIdle : s.decOpen = false → s.cursor = Config.root
  /-- R30, R33, R100: no stream outlives its tree. -/
  openHasTree : s.streamOpen = true → s.treeValid = true
  /-- R23: the tables are those BUILD derives from the current `FREQ`. -/
  tablesCurrent : s.treeValid = true → allLegal s.freq = true ∧ s.node = buildNodes s.freq ∧
    s.clen = deriveClen s.node ∧ s.code = deriveCode s.node
  /-- R200: codes 6..15 are never produced. -/
  errCode : s.err.toNat ≤ 5
  /-- R36, R37: both are clear together. -/
  errOpcClear : s.err = 0 → s.errOpc = 0

/-- Every register that R41 gives a value has it. `NODE`, `CLEN` and `CODE`, which have none, are not named. -/
structure AtReset (s : State) : Prop where
  freq : ∀ i, s.freqAt i = 0
  treeValid : s.treeValid = false
  acc : s.acc = 0
  bitpos : s.bitpos = 0
  padOut : s.padOut = 0
  encOpen : s.encOpen = false
  padIn : s.padIn = 0
  cursor : s.cursor = 510
  decOpen : s.decOpen = false
  resp : s.resp = 0
  err : s.err = 0
  errOpc : s.errOpc = 0

/-- The two states differ at most in `NODE`, `CLEN` and `CODE`. -/
def sameButTables (s t : State) : Prop :=
  ∃ node clen code, t = { s with node := node, clen := clen, code := code }

/-- The commands that need the tree (10_state.md R23). -/
def needsTree : Instr → Bool
  | .rnode _ => true
  | .rwgt _ => true
  | .rclen _ => true
  | .rcode _ _ => true
  | .enc _ => true
  | .dec _ => true
  | .declast _ => true
  | .decend => true
  | .nop => false
  | .clear => false
  | .wfreq _ _ => false
  | .rfreq _ => false
  | .build => false
  | .eflush => false
  | .setpad _ => false

/-- The host has presented nothing that waits, and no error is recorded: the block is ready for a session. -/
def ready (s : State) : Prop := s.err = 0 ∧ s.port = []

/-- A step of the block raises ILLEGAL_CMD on the words of an opcode that meet `bad` (R74). -/
def illegalWords (opc : Byte) (bad : CmdWord → Prop) : Prop :=
  ∀ s w ps, s.err = 0 → s.port = .command w :: ps → opcField w = opc → bad w →
    step s = .next { s with port := ps, err := 1, errOpc := opc }

end Sys2Proof.Machine
end

