-- ==== Sys2Proof/Certificates/Slice0/Obligations.lean ====
section
/-! DEFINITION. The statements about the block, from the numbered rules of spec/. -/

open Sys2Proof Sys2Proof.Machine

/-! ## Encoding -/

/-- Words written out from 30_encoding.md R72, R73 and 95_test_vectors.md decode to the commands they stand for. -/
def Obligations.WrittenWordsDecode : Prop :=
  decode 0x0000000000000000 = .ok .nop ∧
  decode 0x3F80000000004110 = .ok (.wfreq 0x41 0x3F800000) ∧
  decode 0x0000000000000012 = .ok .build ∧
  decode 0x0000000700000614 = .ok (.rcode 6 7) ∧
  decode 0x000001FE00000015 = .ok (.rnode 510) ∧
  decode 0x0000000000004120 = .ok (.enc 0x41) ∧
  decode 0x000000000000D332 = .ok (.declast 0xD3)

/-- R70 to R73: no bit of a command is dropped by its encoding. -/
def Obligations.DecodeOfEncodeIsTheCommand : Prop :=
  ∀ i : Instr, i.wellFormed = true → decode (encode i) = .ok i

/-- R74, R77: every legal word stands for one command, within the ranges of R76, and is its encoding. -/
def Obligations.EncodeOfDecodeIsTheWord : Prop :=
  ∀ w i, decode w = .ok i → i.wellFormed = true ∧ encode i = w

/-- R73: the rows are pairwise disjoint. -/
def Obligations.NoWordSelectsTwoRows : Prop :=
  rows.Pairwise fun r q => ∀ w, ¬ (r.selects w = true ∧ q.selects w = true)

/-- R74: which words are illegal, how many opcodes are reserved, and what an illegal word does with and
without a recorded error. -/
def Obligations.IllegalWordsRaiseIllegalCmd : Prop :=
  let listed : List Byte := [0x00, 0x01, 0x10, 0x11, 0x12, 0x13, 0x14, 0x15, 0x16, 0x20, 0x21, 0x30, 0x31, 0x32, 0x33]
  (∀ w, (∃ e, decode w = .error e) ↔
    (opcField w ∉ listed ∨ (∀ r ∈ rows, r.selects w = false) ∨
      (opcField w = 0x15 ∧ ¬ (256 ≤ (nodeField w).toNat ∧ (nodeField w).toNat ≤ 510)) ∨
      (opcField w = 0x16 ∧ ¬ (nodeField w).toNat ≤ 510))) ∧
  ((List.range 256).filter fun n => !listed.contains (BitVec.ofNat 8 n)).length = 241 ∧
  (∀ s w ps e, s.port = .command w :: ps → decode w = .error e →
    (s.err = 0 → step s = .next { s with port := ps, err := 1, errOpc := opcField w }) ∧
    (s.err ≠ 0 → step s = .next { s with port := ps }))

/-- 20_memory.md R54: a word goes over a byte-serial link as eight bytes, byte `j` being `cmd[8j+7:8j]`; it is read
back whole, and the bytes after it are left. -/
def Obligations.SerialLinkCarriesTheWord : Prop :=
  ∀ w rest, (serialBytes w).length = 8 ∧ (serialBytes w).head? = some (opcField w) ∧
    (∀ j, j < 8 → (serialBytes w)[j]? = some (w.extractLsb' (8 * j) 8)) ∧
    decodeBytes (serialBytes w ++ rest) = some (decode w, rest)

/-- R82: what each assembler form encodes, and that an operand too large for its field gives no word. -/
def Obligations.AssemblerFormsEncode : Prop :=
  let asm := fun (m : String) (os : List Nat) => assembleForm m.toList os
  (∀ i v, asm "WFREQ" [i, v] =
    if i < 2 ^ 8 ∧ v < 2 ^ 32 then some (encode (.wfreq (BitVec.ofNat 8 i) (BitVec.ofNat 32 v))) else none) ∧
  (∀ b k, asm "RCODE" [b, k] =
    if b < 2 ^ 8 ∧ k < 2 ^ 3 then some (encode (.rcode (BitVec.ofNat 8 b) (BitVec.ofNat 3 k))) else none) ∧
  (∀ n, asm "RNODE" [n] = (if n < 2 ^ 9 then some (encode (.rnode (BitVec.ofNat 9 n))) else none) ∧
    asm "RWGT" [n] = (if n < 2 ^ 9 then some (encode (.rwgt (BitVec.ofNat 9 n))) else none)) ∧
  (∀ b, asm "RFREQ" [b] = (if b < 2 ^ 8 then some (encode (.rfreq (BitVec.ofNat 8 b))) else none) ∧
    asm "RCLEN" [b] = (if b < 2 ^ 8 then some (encode (.rclen (BitVec.ofNat 8 b))) else none) ∧
    asm "ENC" [b] = (if b < 2 ^ 8 then some (encode (.enc (BitVec.ofNat 8 b))) else none) ∧
    asm "SETPAD" [b] = (if b < 2 ^ 8 then some (encode (.setpad (BitVec.ofNat 8 b))) else none) ∧
    asm "DEC" [b] = (if b < 2 ^ 8 then some (encode (.dec (BitVec.ofNat 8 b))) else none) ∧
    asm "DECLAST" [b] = (if b < 2 ^ 8 then some (encode (.declast (BitVec.ofNat 8 b))) else none)) ∧
  asm "NOP" [] = some (encode .nop) ∧ asm "CLEAR" [] = some (encode .clear) ∧
  asm "BUILD" [] = some (encode .build) ∧ asm "EFLUSH" [] = some (encode .eflush) ∧
  asm "DECEND" [] = some (encode .decend)

/-! ## The step, the port and reset -/

/-- R62, R65: a step whose word decodes runs the command's meaning on the state without the word. That the table's
word placed by `withFetchWord` is the one that runs next is no rule of the spec but the model's choice, log
entries 2 and 16. -/
def Obligations.StepRunsTheDecodedCommand : Prop :=
  (∀ s w ps i, s.port = .command w :: ps → decode w = .ok i → step s = exec i { s with port := ps }) ∧
  (∀ s n i, n < 2 ^ 64 → decodeTableWord 64 n = some i → step (s.withFetchWord 64 n) = exec i s)

/-- R62: commands take effect in the order presented, each to completion before the next. -/
def Obligations.CommandsRunInTheOrderPresented : Prop :=
  (∀ i s t, exec i s = .next t → t.port = s.port) ∧
  (∀ is js s, s.port = [] → runSession (is ++ js) s = andThen (runSession is s) (runSession js)) ∧
  (∀ i s, s.port = [] → i.wellFormed = true → runSession [i] s = exec i s)

/-- R230: CLEAR and the reset input set every register R41 gives a value to it, from any state, and emit
nothing; what the host then reads. That what waits in the port stands after either is the model's choice, log
entries 2 and 4, and that `out` keeps the bytes emitted is how log entry 3 holds them. -/
def Obligations.ResetGivesTheResetValues : Prop :=
  AtReset State.reset ∧
  (∀ s, ∃ t, exec .clear s = .next t ∧ AtReset t ∧ t.out = s.out ∧ t.port = s.port) ∧
  (∀ s ps, s.port = .reset :: ps → ∃ t, step s = .next t ∧ AtReset t ∧ t.out = s.out ∧ t.port = ps) ∧
  (∀ s, AtReset s → s.statusView = 0x03FC0000 ∧ s.errInfoView = 0 ∧ s.respView = 0)

/-- The model's own choice, log entry 2: with nothing presented, a step changes nothing. -/
def Obligations.EmptyPortStepIsIdle : Prop := ∀ s, s.port = [] → step s = .next s

/-! ## Control -/

/-- R190. -/
def Obligations.NopHasNoEffect : Prop :=
  (∀ s, exec .nop s = .next s) ∧
  (∀ s ps, s.port = .command 0 :: ps → step s = .next { s with port := ps }) ∧
  illegalWords 0x00 (fun w => w ≠ 0)

/-- R191: its effect from every state, the sticky one too; a malformed CLEAR raises, or is ignored in the
sticky state. -/
def Obligations.ClearResetsFromEveryState : Prop :=
  (∀ s, ∃ t, exec .clear s = .next t ∧ AtReset t ∧ t.out = s.out) ∧
  (∀ s ps, s.port = .command 1 :: ps → ∃ t, step s = .next t ∧ AtReset t ∧ t.out = s.out ∧ t.port = ps) ∧
  illegalWords 0x01 (fun w => w ≠ 1) ∧
  (∀ s w ps, s.err ≠ 0 → s.port = .command w :: ps → opcField w = 0x01 → w ≠ 1 →
    step s = .next { s with port := ps })

/-! ## Weights -/

/-- R100. -/
def Obligations.WfreqWritesOneWeight : Prop :=
  (∀ i v s, s.err = 0 → (s.encOpen = true ∨ s.decOpen = true) →
    exec (.wfreq i v) s = .next { s with err := 5, errOpc := 0x10 }) ∧
  (∀ i v s, s.err = 0 → s.encOpen = false → s.decOpen = false →
    ∃ t, exec (.wfreq i v) s = .next t ∧ t = { s with freq := t.freq, treeValid := false } ∧
      ∀ j, t.freqAt j = if j = i then v else s.freqAt j) ∧
  illegalWords 0x10 (fun w => rsvField w ≠ 0)

/-- R101. -/
def Obligations.RfreqReturnsThePattern : Prop :=
  (∀ i s, s.err = 0 → exec (.rfreq i) s = .next { s with resp := s.freqAt i }) ∧
  (∀ i v s t, s.err = 0 → s.encOpen = false → s.decOpen = false → exec (.wfreq i v) s = .next t →
    ∃ u, exec (.rfreq i) t = .next u ∧ u.resp = v) ∧
  illegalWords 0x11 (fun w => rsvField w ≠ 0 ∨ wordField w ≠ 0)

/-! ## The tree builder -/

/-- R121: the checks in their order, completion, and everything BUILD leaves unchanged. -/
def Obligations.BuildChecksThenBuilds : Prop :=
  (∀ s, s.err = 0 → (s.encOpen = true ∨ s.decOpen = true) →
    exec .build s = .next { s with err := 5, errOpc := 0x12 }) ∧
  (∀ s i, s.err = 0 → s.encOpen = false → s.decOpen = false → legalWeight (s.freqAt i) = false →
    exec .build s = .next { s with err := 3, errOpc := 0x12 }) ∧
  (∀ s, s.err = 0 → s.encOpen = false → s.decOpen = false → (∀ i, legalWeight (s.freqAt i) = true) →
    ∃ t, exec .build s = .next t ∧
      t = { s with treeValid := true, cursor := 510, node := buildNodes s.freq, clen := t.clen, code := t.code } ∧
      t.clen = deriveClen t.node ∧ t.code = deriveCode t.node) ∧
  illegalWords 0x12 (fun w => w ≠ 0x12)

/-- R121: on legal weights the queue makes the records that R121's loop makes, which takes the least entry
of the whole working set twice for each merge. -/
def Obligations.BuilderMergesTheTwoLeast : Prop :=
  ∀ freq, allLegal freq = true → (buildNodes freq).toList = selectMerges 255 0 (leafEntries freq)

/-- R120: legal weights add to legal weights, and `key_lt` is a strict total order on entries of legal weight
whose reps differ. -/
def Obligations.KeyOrderIsStrictAndTotal : Prop :=
  (∀ a b, legalWeight a = true → legalWeight b = true → legalWeight (f32Add a b) = true) ∧
  (∀ x, keyLt x x = false) ∧
  (∀ x y z : Entry, keyLt x y = true → keyLt y z = true → keyLt x z = true) ∧
  (∀ x y : Entry, legalWeight x.w = true → legalWeight y.w = true → x.rep ≠ y.rep →
    (keyLt x y = true ↔ keyLt y x = false))

/-- R122: numbering, one parent each, the root's and every node's rep, the depths. -/
def Obligations.BuiltTreeIsFullAndOrdered : Prop :=
  ∀ freq, allLegal freq = true →
    (∀ k : Fin 255, (buildNodes freq)[k].child0.toNat < 256 + k ∧ (buildNodes freq)[k].child1.toNat < 256 + k) ∧
    (∀ n : NodeIdx, n.toNat < 510 → ∃! p : Fin 255 × Bool,
      (if p.2 then (buildNodes freq)[p.1].child1 else (buildNodes freq)[p.1].child0) = n) ∧
    (∀ k : Fin 255, isBelow (buildNodes freq) (internalIdx k) (buildNodes freq)[k].rep ∧
      ∀ b, isBelow (buildNodes freq) (internalIdx k) b → (buildNodes freq)[k].rep.toNat ≤ b.toNat) ∧
    (buildNodes freq)[254].rep = 0 ∧
    (∀ b, ∃ bits, descend (buildNodes freq) 510 bits = some (leafIdx b) ∧ 1 ≤ bits.length ∧ bits.length ≤ 255)

/-- R123: the code of a byte is the one path from the root to its leaf, and its other bits are 0. -/
def Obligations.CodeIsThePathToTheLeaf : Prop :=
  ∀ s, Invariants s → s.treeValid = true → ∀ b,
    (∀ bits, descend s.node 510 bits = some (leafIdx b) ↔ bits = s.codeBitsOf b) ∧
    (∀ j, (s.clenAt b).toNat ≤ j → (s.codeAt b).getLsbD j = false)

/-- R129. -/
def Obligations.CodesArePrefixFree : Prop :=
  ∀ s, Invariants s → s.treeValid = true →
    (∀ b c, b ≠ c → ¬ s.codeBitsOf b <+: s.codeBitsOf c) ∧
    (∀ b, descend s.node 510 (s.codeBitsOf b) = some (leafIdx b)) ∧
    (∀ b bits, bits <+: s.codeBitsOf b → bits ≠ s.codeBitsOf b →
      ∃ n, descend s.node 510 bits = some n ∧ isInternalIdx n = true)

/-- R128: after BUILD the tree, the code table and the answers of the readback commands are a function of the
weights alone. -/
def Obligations.TreeIsAFunctionOfTheWeights : Prop :=
  ∀ s s' t t', s.freq = s'.freq → s.err = 0 → s'.err = 0 → exec .build s = .next t → exec .build s' = .next t' →
    t.err = 0 → t'.err = 0 →
    t.node = t'.node ∧ t.clen = t'.clen ∧ t.code = t'.code ∧
    ∀ i u u', ((∃ n, i = .rnode n) ∨ (∃ n, i = .rwgt n) ∨ (∃ b, i = .rclen b) ∨ ∃ b k, i = .rcode b k) →
      i.wellFormed = true → exec i t = .next u → exec i t' = .next u' → u.resp = u'.resp

/-- R79: the five responses; no other command writes `RESP`, but for CLEAR, which resets it. -/
def Obligations.ReadCommandsRespond : Prop :=
  (∀ i s, s.err = 0 → exec (.rfreq i) s = .next { s with resp := s.freqAt i }) ∧
  (∀ n s, s.err = 0 → s.treeValid = true → n.toNat ≤ 255 →
    exec (.rwgt n) s = .next { s with resp := s.freqAt (n.setWidth 8) }) ∧
  (∀ (k : Fin 255) s, s.err = 0 → s.treeValid = true →
    exec (.rwgt (internalIdx k)) s = .next { s with resp := s.node[k].w } ∧
    ∃ v : Word, exec (.rnode (internalIdx k)) s = .next { s with resp := v } ∧
      v.extractLsb' 0 9 = s.node[k].child0 ∧ v.extractLsb' 9 9 = s.node[k].child1 ∧
      v.extractLsb' 18 8 = s.node[k].rep ∧ v.extractLsb' 26 6 = 0) ∧
  (∀ b s, s.err = 0 → s.treeValid = true →
    exec (.rclen b) s = .next { s with resp := (s.clenAt b).setWidth 32 }) ∧
  (∀ b k s, s.err = 0 → s.treeValid = true →
    ∃ v : Word, exec (.rcode b k) s = .next { s with resp := v } ∧
      ∀ j, j < 32 → v.getLsbD j = (decide (32 * k.toNat + j < (s.clenAt b).toNat) && (s.codeAt b).getLsbD (32 * k.toNat + j))) ∧
  (∀ i s t, exec i s = .next t → t.resp ≠ s.resp →
    i = .clear ∨ (∃ j, i = .rfreq j) ∨ (∃ n, i = .rnode n) ∨ (∃ n, i = .rwgt n) ∨ (∃ b, i = .rclen b) ∨
      (∃ b k, i = .rcode b k))

/-- R23: each command that needs the tree raises NO_TREE without one, and has no other effect; the words
outside the operand ranges of R124 to R127 are illegal. -/
def Obligations.NoTreeStopsTheTreeCommands : Prop :=
  (∀ i s, needsTree i = true → i.wellFormed = true → s.err = 0 → s.treeValid = false →
    exec i s = .next { s with err := 2, errOpc := i.opcode }) ∧
  illegalWords 0x13 (fun w => rsvField w ≠ 0 ∨ wordField w ≠ 0) ∧
  illegalWords 0x14 (fun w => rsvField w ≠ 0 ∨ (wordField w).toNat ≥ 8) ∧
  illegalWords 0x15 (fun w => byteField w ≠ 0 ∨ rsvField w ≠ 0 ∨ (wordField w).toNat < 256 ∨ 510 < (wordField w).toNat) ∧
  illegalWords 0x16 (fun w => byteField w ≠ 0 ∨ rsvField w ≠ 0 ∨ 510 < (wordField w).toNat)

/-- R238: a WFREQ leaves the stored tree as it is, and no command can use it any more. -/
def Obligations.StaleTreeCannotBeUsed : Prop :=
  ∀ i v s t, exec (.wfreq i v) s = .next t → s.err = 0 → t.err = 0 →
    t.treeValid = false ∧ t.node = s.node ∧ t.clen = s.clen ∧ t.code = s.code ∧
    ∀ j, needsTree j = true → j.wellFormed = true → exec j t = .next { t with err := 2, errOpc := j.opcode }

/-! ## The encoder -/

/-- R150: the frame, the counts, and the bits: those held in `ACC`, then the code's, fill the emitted bytes
and the new `ACC` from bit 0 up. -/
def Obligations.EncAppendsTheCode : Prop :=
  (∀ b s, s.err = 0 → s.treeValid = true → ∃ t bytes, exec (.enc b) s = .next t ∧
    t = { s with acc := t.acc, bitpos := t.bitpos, out := s.out ++ bytes, encOpen := true } ∧
    t.bitpos.toNat = (s.bitpos.toNat + (s.clenAt b).toNat) % 8 ∧
    bytes.length = (s.bitpos.toNat + (s.clenAt b).toNat) / 8 ∧
    (s.acc.toNat < 2 ^ s.bitpos.toNat → ∀ k, k < 8 * (bytes.length + 1) →
      ((bytes ++ [t.acc]).getD (k / 8) 0).getLsbD (k % 8) =
        if k < s.bitpos.toNat then s.acc.getLsbD k
        else decide (k - s.bitpos.toNat < (s.clenAt b).toNat) && (s.codeAt b).getLsbD (k - s.bitpos.toNat))) ∧
  (∀ b s, s.err = 0 → s.treeValid = false → exec (.enc b) s = .next { s with err := 2, errOpc := 0x20 }) ∧
  illegalWords 0x20 (fun w => rsvField w ≠ 0 ∨ wordField w ≠ 0)

/-- R151. -/
def Obligations.EflushEndsTheStream : Prop :=
  (∀ s, s.err = 0 → ∃ t, exec .eflush s = .next t ∧
    t = { s with acc := 0, bitpos := 0, encOpen := false, padOut := t.padOut,
                 out := if s.bitpos = 0 then s.out else s.out ++ [s.acc] } ∧
    t.padOut.toNat = if s.bitpos = 0 then 0 else 8 - s.bitpos.toNat) ∧
  illegalWords 0x21 (fun w => w ≠ 0x21)

/-- R152, with the count a host can sum beforehand (42_tree_builder.md R126). -/
def Obligations.PaddingCountOfAStream : Prop :=
  ∀ s input t, Invariants s → ready s → s.encOpen = false → runSession (encs input) s = .next t → t.err = 0 →
    t.padOut.toNat = (8 - (input.map fun b => (s.clenAt b).toNat).sum % 8) % 8 ∧
    t.padOut.toNat = presummedPad (input.map fun b => (s.clenAt b).toNat) ∧
    8 * (sessionOut s t).length = (input.map fun b => (s.clenAt b).toNat).sum + t.padOut.toNat

/-- R153, and that such a stream runs without an error when there is a tree. -/
def Obligations.EncodedBytesAreThePayload : Prop :=
  (∀ s input t, Invariants s → ready s → s.encOpen = false → runSession (encs input) s = .next t → t.err = 0 →
    t.out = s.out ++ sessionOut s t ∧ packs (sessionOut s t) (s.payloadBits input)) ∧
  (∀ s input, Invariants s → ready s → s.encOpen = false → s.treeValid = true →
    ∃ t, runSession (encs input) s = .next t ∧ t.err = 0 ∧ t.encOpen = false)

/-- R154: the encoder commands neither change nor read the decoder's registers, and the decoder commands
neither change nor read the encoder's. -/
def Obligations.EncoderAndDecoderAreIndependent : Prop :=
  (∀ i s t p c d, (i = .eflush ∨ ∃ b, i = .enc b) → exec i s = .next t →
    t.padIn = s.padIn ∧ t.cursor = s.cursor ∧ t.decOpen = s.decOpen ∧
    exec i { s with padIn := p, cursor := c, decOpen := d } = .next { t with padIn := p, cursor := c, decOpen := d }) ∧
  (∀ i s t a b p e, (i = .decend ∨ (∃ x, i = .dec x) ∨ (∃ x, i = .declast x) ∨ ∃ x, i = .setpad x) → exec i s = .next t →
    t.acc = s.acc ∧ t.bitpos = s.bitpos ∧ t.padOut = s.padOut ∧ t.encOpen = s.encOpen ∧
    exec i { s with acc := a, bitpos := b, padOut := p, encOpen := e } =
      .next { t with acc := a, bitpos := b, padOut := p, encOpen := e })

/-! ## The decoder -/

/-- R170. -/
def Obligations.SetpadSetsTheCount : Prop :=
  (∀ p s, s.err = 0 → p.toNat ≤ 7 →
    ∃ t, exec (.setpad p) s = .next t ∧ t = { s with padIn := t.padIn } ∧ t.padIn.toNat = p.toNat) ∧
  (∀ p s, s.err = 0 → 7 < p.toNat → exec (.setpad p) s = .next { s with err := 3, errOpc := 0x30 }) ∧
  illegalWords 0x30 (fun w => rsvField w ≠ 0 ∨ wordField w ≠ 0)

/-- R173: all 8 bits, low to high, from where the cursor rests. -/
def Obligations.DecDescendsByEightBits : Prop :=
  (∀ x s, Invariants s → s.err = 0 → s.treeValid = true →
    let got := symbolsOf s.node s.cursor ((List.range 8).map x.getLsbD)
    exec (.dec x) s = .next { s with out := s.out ++ got.1, cursor := got.2, decOpen := true } ∧
    got.1.length ≤ 8 ∧ isInternalIdx got.2 = true) ∧
  (∀ x s, s.err = 0 → s.treeValid = false → exec (.dec x) s = .next { s with err := 2, errOpc := 0x31 }) ∧
  illegalWords 0x31 (fun w => rsvField w ≠ 0 ∨ wordField w ≠ 0)

/-- R174: the low `8 - PAD_IN` bits, the end check both ways, and that the padding bits do not matter. -/
def Obligations.DeclastEndsTheStream : Prop :=
  (∀ x s, Invariants s → s.err = 0 → s.treeValid = true →
    let got := symbolsOf s.node s.cursor ((List.range (8 - s.padIn.toNat)).map x.getLsbD)
    (got.2 = 510 → exec (.declast x) s = .next { s with out := s.out ++ got.1, cursor := 510, decOpen := false }) ∧
    (got.2 ≠ 510 → exec (.declast x) s =
      .next { s with out := s.out ++ got.1, cursor := 510, decOpen := false, err := 4, errOpc := 0x32 }) ∧
    got.1.length ≤ 8) ∧
  (∀ x y s, (∀ j, j < 8 - s.padIn.toNat → x.getLsbD j = y.getLsbD j) → exec (.declast x) s = exec (.declast y) s) ∧
  (∀ x s, s.err = 0 → s.treeValid = false → exec (.declast x) s = .next { s with err := 2, errOpc := 0x32 }) ∧
  illegalWords 0x32 (fun w => rsvField w ≠ 0 ∨ wordField w ≠ 0)

/-- R175. -/
def Obligations.DecendEndsTheStream : Prop :=
  (∀ s, s.err = 0 → s.treeValid = true → s.cursor = 510 → exec .decend s = .next { s with decOpen := false }) ∧
  (∀ s, s.err = 0 → s.treeValid = true → s.cursor ≠ 510 →
    exec .decend s = .next { s with cursor := 510, decOpen := false, err := 4, errOpc := 0x33 }) ∧
  (∀ s, s.err = 0 → s.treeValid = false → exec .decend s = .next { s with err := 2, errOpc := 0x33 }) ∧
  illegalWords 0x33 (fun w => w ≠ 0x33)

/-- R176: on a block with the encoder's weights, SETPAD and DECS give back exactly what ENCS encoded. -/
def Obligations.DecodingInvertsEncoding : Prop :=
  ∀ s t u input, Invariants s → ready s → s.encOpen = false → s.treeValid = true →
    runSession (encs input) s = .next t →
    Invariants u → ready u → u.freq = s.freq → u.treeValid = true → u.decOpen = false →
    ∃ v, runSession (.setpad (t.padOut.setWidth 8) :: decs (sessionOut s t)) u = .next v ∧
      sessionOut u v = input ∧ v.err = 0 ∧ v.decOpen = false ∧ v.cursor = 510

/-- R176 at the host's side, through the container (41_weights.md R102, R103) and the sequences of
70_reset_and_hazards.md R233, R234: every input, the empty one too, comes back. -/
def Obligations.DecompressInvertsCompress : Prop :=
  ∀ input s s', s.port = [] → s'.port = [] →
    ∃ c, compress input s = .ok c ∧ Config.hdrBytes ≤ c.length ∧ decompress c s' = .ok input

/-! ## Errors -/

/-- R202. -/
def Obligations.StickyStateIgnoresCommands : Prop :=
  (∀ s w ps, s.err ≠ 0 → s.port = .command w :: ps → w ≠ 1 → step s = .next { s with port := ps }) ∧
  (∀ s ps, s.err ≠ 0 → s.port = .command 1 :: ps → ∃ t, step s = .next t ∧ AtReset t) ∧
  (∀ i s, s.err ≠ 0 → i ≠ .clear → exec i s = .next s)

/-- R206: a step leaves the error state only by a well-formed CLEAR or the reset input, and then the state is
the reset state; until then the first error is kept. -/
def Obligations.OnlyClearOrResetLeavesTheErrorState : Prop :=
  ∀ s t, s.err ≠ 0 → step s = .next t →
    (t.err = s.err ∧ t.errOpc = s.errOpc) ∨
    ((∃ ps, s.port = .command 1 :: ps ∨ s.port = .reset :: ps) ∧ AtReset t)

/-- R204: a command that raises changes `ERR` and `ERR_OPC` alone, but for the two end checks, which also
close the stream. -/
def Obligations.ErrorsArePrecise : Prop :=
  ∀ i s t, s.err = 0 → exec i s = .next t → t.err ≠ 0 →
    (t.err ≠ 4 ∧ t = { s with err := t.err, errOpc := i.opcode }) ∨
    (t.err = 4 ∧ (∃ x, i = .declast x) ∧ s.out <+: t.out ∧
      t = { s with out := t.out, cursor := 510, decOpen := false, err := 4, errOpc := 0x32 }) ∨
    (t.err = 4 ∧ i = .decend ∧ t = { s with cursor := 510, decOpen := false, err := 4, errOpc := 0x33 })

/-- R200, R203: which command raises which error and when, an end inside a code among them (R172); no other code
is ever produced. -/
def Obligations.ErrorsHaveTheirCauses : Prop :=
  ∀ i s t, s.err = 0 → exec i s = .next t → t.err ≠ 0 →
    (t.err = 1 ∧ i.wellFormed = false) ∨
    (t.err = 2 ∧ i.wellFormed = true ∧ needsTree i = true ∧ s.treeValid = false) ∨
    (t.err = 3 ∧ ((i = .build ∧ s.streamOpen = false ∧ allLegal s.freq = false) ∨ ∃ p, i = .setpad p ∧ 7 < p.toNat)) ∨
    (t.err = 4 ∧ s.treeValid = true ∧
      ((i = .decend ∧ s.cursor ≠ 510) ∨
        ∃ x, i = .declast x ∧ (symbolsOf s.node s.cursor ((List.range (8 - s.padIn.toNat)).map x.getLsbD)).2 ≠ 510)) ∨
    (t.err = 5 ∧ s.streamOpen = true ∧ (i = .build ∨ ∃ j v, i = .wfreq j v))

/-! ## The whole machine -/

/-- The invariants of 10_state.md hold at reset. -/
def Obligations.ResetMeetsTheInvariants : Prop := Invariants State.reset

/-- 10_state.md R23, R26, R29, R32, R33: every step keeps the invariants, from every state that meets them. -/
def Obligations.StepKeepsTheInvariants : Prop :=
  ∀ s t, Invariants s → step s = .next t → Invariants t

/-- 70_reset_and_hazards.md R241, 30_encoding.md R74: from a state that meets the invariants, whatever is
presented, a step answers a next state. -/
def Obligations.EveryStepCompletes : Prop := ∀ s, Invariants s → ∃ t, step s = .next t

/-- The model's own choice, log entry 5: from any state at all, only the descent of DEC and DECLAST can
fault, only on a node index without a record, and no command is refused. -/
def Obligations.OnlyTheDescentCanFault : Prop :=
  (∀ i s, (∀ x, i ≠ .dec x) → (∀ x, i ≠ .declast x) → ∃ t, exec i s = .next t) ∧
  (∀ i s r, exec i s ≠ .refused r) ∧
  (∀ i s n, exec i s = .fault (.noSuchNode n) → isInternalIdx n = false)

/-- 10_state.md R40: which commands set and clear each status flag. -/
def Obligations.FlagsChangeOnlyAsListed : Prop :=
  ∀ i s t, exec i s = .next t →
    (s.treeValid = false → t.treeValid = true → i = .build) ∧
    (s.treeValid = true → t.treeValid = false → i = .clear ∨ ∃ j v, i = .wfreq j v) ∧
    (s.encOpen = false → t.encOpen = true → ∃ b, i = .enc b) ∧
    (s.encOpen = true → t.encOpen = false → i = .clear ∨ i = .eflush) ∧
    (s.decOpen = false → t.decOpen = true → ∃ x, i = .dec x) ∧
    (s.decOpen = true → t.decOpen = false → i = .clear ∨ i = .decend ∨ ∃ x, i = .declast x) ∧
    (s.err ≠ 0 → t.err = 0 → i = .clear)

/-- 10_state.md R22 to R28, R30 to R33, R35 to R37: every register is changed by its listed writers only, and `port`
by no command. CLEAR, which writes them all, apart. -/
def Obligations.RegistersHaveTheirWriters : Prop :=
  ∀ i s t, exec i s = .next t → i ≠ .clear →
    (t.freq ≠ s.freq → ∃ j v, i = .wfreq j v) ∧
    (t.node ≠ s.node ∨ t.clen ≠ s.clen ∨ t.code ≠ s.code → i = .build) ∧
    (t.acc ≠ s.acc ∨ t.bitpos ≠ s.bitpos → i = .eflush ∨ ∃ b, i = .enc b) ∧
    (t.padOut ≠ s.padOut → i = .eflush) ∧
    (t.padIn ≠ s.padIn → ∃ p, i = .setpad p) ∧
    (t.cursor ≠ s.cursor → i = .build ∨ i = .decend ∨ (∃ x, i = .dec x) ∨ ∃ x, i = .declast x) ∧
    (t.treeValid ≠ s.treeValid → (i = .build ∧ t.treeValid = true) ∨ ((∃ j v, i = .wfreq j v) ∧ t.treeValid = false)) ∧
    (t.encOpen ≠ s.encOpen → ((∃ b, i = .enc b) ∧ t.encOpen = true) ∨ (i = .eflush ∧ t.encOpen = false)) ∧
    (t.decOpen ≠ s.decOpen → ((∃ x, i = .dec x) ∧ t.decOpen = true) ∨
      ((i = .decend ∨ ∃ x, i = .declast x) ∧ t.decOpen = false)) ∧
    (t.resp ≠ s.resp → (∃ j, i = .rfreq j) ∨ (∃ n, i = .rnode n) ∨ (∃ n, i = .rwgt n) ∨ (∃ b, i = .rclen b) ∨
      ∃ b k, i = .rcode b k) ∧
    (t.errOpc ≠ s.errOpc ∨ t.err ≠ s.err → s.err = 0 ∧ t.err ≠ 0 ∧ t.errOpc = i.opcode) ∧
    t.port = s.port

/-- 10_state.md R34, 43_encoder.md R150, R151, 44_decoder.md R173, R174: `OUT` only grows, by four commands,
and by how much. -/
def Obligations.OutOnlyGrows : Prop :=
  ∀ i s t, exec i s = .next t → s.out <+: t.out ∧
    t.out.length - s.out.length ≤
      match i with
      | .enc _ => 32
      | .eflush => 1
      | .dec _ => 8
      | .declast _ => 8
      | .nop => 0
      | .clear => 0
      | .wfreq _ _ => 0
      | .rfreq _ => 0
      | .build => 0
      | .rclen _ => 0
      | .rcode _ _ => 0
      | .rnode _ => 0
      | .rwgt _ => 0
      | .setpad _ => 0
      | .decend => 0

/-- 10_state.md R24, R25: what `NODE`, `CLEN` and `CODE` hold without a tree cannot be observed. Two states
that differ in them alone step to states that differ in them at most, and after BUILD in nothing. So the
reset values of log entry 1 do not matter. -/
def Obligations.TablesWithoutATreeAreUnobservable : Prop :=
  ∀ s s' t, sameButTables s s' → s.treeValid = false → step s = .next t →
    ∃ t', step s' = .next t' ∧ sameButTables t t' ∧ (t.treeValid = true → t' = t)

/-- 10_state.md R38, R39, R35: the fields of the host's views, and what two of them read at reset. -/
def Obligations.ViewsCopyTheRegisters : Prop :=
  State.reset.statusView = 0x03FC0000 ∧ State.reset.errInfoView = 0 ∧
  ∀ s : State,
    s.statusView.extractLsb' 0 4 = s.err ∧ s.statusView.getLsbD 4 = s.treeValid ∧
    s.statusView.getLsbD 5 = s.encOpen ∧ s.statusView.getLsbD 6 = s.decOpen ∧ s.statusView.getLsbD 7 = false ∧
    s.statusView.extractLsb' 8 3 = s.bitpos ∧ s.statusView.extractLsb' 11 3 = s.padOut ∧
    s.statusView.extractLsb' 14 3 = s.padIn ∧ s.statusView.extractLsb' 17 9 = s.cursor ∧
    s.statusView.extractLsb' 26 6 = 0 ∧
    s.errInfoView.extractLsb' 0 8 = s.errOpc ∧ s.errInfoView.extractLsb' 8 24 = 0 ∧ s.respView = s.resp

/-- 70_reset_and_hazards.md R236: what a session's end reads as. With an error recorded and a stream open R236's failed
and unfinished both apply; that the model answers failed, and so asks ERR = 0 of an unfinished session, is its
own choice, log entry 19. -/
def Obligations.SessionEndReadsTheFlags : Prop :=
  ∀ s : State,
    (sessionEnd s.statusView = .succeeded ↔ s.err = 0 ∧ s.encOpen = false ∧ s.decOpen = false) ∧
    (sessionEnd s.statusView = .failed ↔ s.err ≠ 0) ∧
    (sessionEnd s.statusView = .unfinished ↔ s.err = 0 ∧ (s.encOpen = true ∨ s.decOpen = true))

/-! ## Binary32 and the host's weights -/

/-- 00_scope.md R12 in the meaning PRESUMED for IEEE 754 by log entry 7, which the spec names and does not spell out:
the overflow threshold, the sign of an infinite result and the sign of a zero sum are that entry's and not R12's.
The sum of finite patterns is the nearest binary32 value to the exact sum, ties to the
even pattern, and +-infinity exactly from half a unit above the largest finite value. Units are 2^-149. -/
def Obligations.SumIsRoundedToNearestEven : Prop :=
  ∀ a b, isNan a = false → isNan b = false → isInf a = false → isInf b = false →
    let x := signedUnits a + signedUnits b
    let r := f32Add a b
    (isInf r = true ↔ (2 ^ 25 - 1) * 2 ^ 252 ≤ x.natAbs) ∧
    isNan r = false ∧
    (x = 0 → r = if signBit a && signBit b then 0x80000000 else 0) ∧
    (isInf r = true → (signBit r = true ↔ x < 0)) ∧
    (isInf r = false → ∀ c, isNan c = false → isInf c = false →
      (signedUnits r - x).natAbs ≤ (signedUnits c - x).natAbs ∧
      ((signedUnits r - x).natAbs = (signedUnits c - x).natAbs → signedUnits c ≠ signedUnits r → r.toNat % 2 = 0))

/-- 00_scope.md R12 in the meaning PRESUMED for IEEE 754 by log entry 7: comparison by value, and +infinity above every
finite value, are that entry's. R12 itself says that both zeros are equal and +infinity equals itself.
Ordered comparison of finite patterns compares values; both zeros are equal, +infinity is
above every finite value and equal to itself. -/
def Obligations.ComparisonIsByValue : Prop :=
  (∀ a b, isNan a = false → isNan b = false → isInf a = false → isInf b = false →
    (f32Lt a b = true ↔ signedUnits a < signedUnits b) ∧ (f32Eq a b = true ↔ signedUnits a = signedUnits b)) ∧
  (∀ a, isNan a = false → isInf a = false → f32Lt a 0x7F800000 = true ∧ f32Lt 0x7F800000 a = false) ∧
  f32Eq 0x7F800000 0x7F800000 = true ∧ f32Eq 0x80000000 0x00000000 = true

/-- 41_weights.md R102: 256 weights, each the rounded quotient of a count by the total, legal and in [0, 1]; 0 for
an absent byte and for the empty input, 1.0 for the only byte of an input. -/
def Obligations.NormalisedWeightsAreLegal : Prop :=
  ∀ input : List Byte, (normalise input).length = 256 ∧ (∀ v ∈ normalise input, legalWeight v = true ∧ v.toNat ≤ 0x3F800000) ∧
    (input = [] → ∀ v ∈ normalise input, v = 0) ∧
    (∀ b : Byte, input ≠ [] → (normalise input)[b.toNat]? = some (rnd32 (input.count b) input.length)) ∧
    (∀ b : Byte, input.count b = 0 → (normalise input)[b.toNat]? = some 0) ∧
    (∀ b : Byte, input ≠ [] → input.count b = input.length → (normalise input)[b.toNat]? = some 0x3F800000)

/-- 41_weights.md R102: `rnd32` of a quotient in [0, 1] is a finite pattern, no finite pattern is nearer to the
exact quotient, and of two as near the even one is taken. Units are 2^-149. -/
def Obligations.QuotientIsRoundedToNearestEven : Prop :=
  ∀ n d : Nat, n ≤ d → 0 < d →
    let r := rnd32 n d
    let off := fun c : Word => (signedUnits c * (d : Int) - (n : Int) * 2 ^ 149).natAbs
    isNan r = false ∧ isInf r = false ∧ signBit r = false ∧
    ∀ c, isNan c = false → isInf c = false →
      off r ≤ off c ∧ (off r = off c → signedUnits c ≠ signedUnits r → r.toNat % 2 = 0)

/-- 20_memory.md R55, 41_weights.md R103, R104: the header has 1025 bytes, each weight's least significant byte first, and
gives its weights and padding count back; a shorter container is refused with no command. -/
def Obligations.HeaderCarriesWeightsAndPadding : Prop :=
  (∀ t p, t.length = 256 → (header t p).length = 1025 ∧
    (∀ i j, i < 256 → j < 4 → (header t p)[4 * i + j]? = some ((t.getD i 0).extractLsb' (8 * j) 8)) ∧
    headerWeights ((header t p).take 1024) = t ∧ (header t p).getD 1024 0 = p ∧
    loadhdr (header t p) = loadw t ++ [.setpad p]) ∧
  (∀ c s, c.length < 1025 → decompress c s = .error .corruptHeader)
end

