-- ==== Sys2Proof/Laws/Binary32.lean ====
section
/-! SUPPORT. The fields of a binary32 pattern, its class, and sums of legal weights (00_scope.md R12, 42_tree_builder.md R120). -/

namespace Sys2Proof.Machine

theorem bits32_lt (v : Word) (hi lo : Nat) : bits32 v hi lo < 2 ^ (hi + 1 - lo) := Nat.mod_lt _ (Nat.two_pow_pos _)

/-- A pattern is its sign, exponent and fraction. -/
theorem toNat_eq_fields (v : Word) : v.toNat = (if signBit v then 2 ^ 31 else 0) + magField v := by
  have := v.isLt
  simp only [signBit, magField, bits32]
  norm_num
  split <;> omega

theorem magField_eq (v : Word) : magField v = expField v * 2 ^ 23 + fracField v := by
  have := v.isLt
  simp only [magField, expField, fracField, bits32]
  norm_num
  omega

theorem expField_lt (v : Word) : expField v < 256 := bits32_lt v 30 23
theorem fracField_lt (v : Word) : fracField v < 2 ^ 23 := bits32_lt v 22 0
theorem magField_lt (v : Word) : magField v < 2 ^ 31 := bits32_lt v 30 0

theorem isNan_iff (v : Word) : isNan v = true ↔ infMag < magField v := by
  have := expField_lt v; have := fracField_lt v
  rw [magField_eq]
  simp only [isNan, infMag, Bool.and_eq_true, beq_iff_eq, bne_iff_ne]
  omega

theorem isInf_iff (v : Word) : isInf v = true ↔ magField v = infMag := by
  have := expField_lt v; have := fracField_lt v
  rw [magField_eq]
  simp only [isInf, infMag, Bool.and_eq_true, beq_iff_eq]
  omega

theorem signBit_withSign (neg : Bool) (m : Nat) (h : m < 2 ^ 31) : signBit (withSign neg m) = neg := by
  cases neg <;> simp [signBit, bits32, withSign] <;> omega

theorem magField_withSign (neg : Bool) (m : Nat) (h : m < 2 ^ 31) : magField (withSign neg m) = m := by
  cases neg <;> simp [magField, bits32, withSign] <;> omega

theorem word_ext {v w : Word} (hs : signBit v = signBit w) (hm : magField v = magField w) : v = w := by
  apply BitVec.eq_of_toNat_eq
  rw [toNat_eq_fields v, toNat_eq_fields w, hs, hm]

/-- A legal weight (42_tree_builder.md R120): +0 to +infinity, or -0. -/
theorem legalWeight_iff (v : Word) : legalWeight v = true ↔
    magField v ≤ infMag ∧ (signBit v = true → magField v = 0) := by
  have h1 := isNan_iff v
  simp only [legalWeight, Bool.and_eq_true, Bool.not_eq_true', isNegNonzero, Bool.and_eq_false_iff, bne_eq_false_iff_eq]
  cases hn : isNan v <;> cases hs : signBit v <;> simp_all

theorem roundMag_le (n d : Nat) : roundMag n d ≤ infMag := Nat.min_le_right _ _

theorem unitsOf_eq_zero (v : Word) : unitsOf v = 0 ↔ magField v = 0 := by
  rw [magField_eq, unitsOf]
  split
  · rename_i h; simp [h]
  · rename_i h
    have : 0 < (2 ^ 23 + fracField v) * 2 ^ (expField v - 1) := by positivity
    constructor
    · omega
    · omega

theorem signedUnits_nonneg {v : Word} (h : legalWeight v = true) : 0 ≤ signedUnits v := by
  unfold signedUnits
  split
  · rename_i hs
    have := (unitsOf_eq_zero v).2 (((legalWeight_iff v).1 h).2 hs)
    simp [this]
  · omega

/-- 42_tree_builder.md R120: the sum of legal weights is legal. -/
theorem legal_f32Add {a b : Word} (ha : legalWeight a = true) (hb : legalWeight b = true) : legalWeight (f32Add a b) = true := by
  have ha' := (legalWeight_iff a).1 ha
  have hb' := (legalWeight_iff b).1 hb
  have na : isNan a = false := by
    by_contra hc; have := (isNan_iff a).1 (by simpa using hc); omega
  have nb : isNan b = false := by
    by_contra hc; have := (isNan_iff b).1 (by simpa using hc); omega
  unfold f32Add
  simp only [na, nb, Bool.or_self, Bool.false_eq_true, if_false]
  split
  · rename_i ia
    split
    · rename_i hc
      simp only [Bool.and_eq_true, bne_iff_ne] at hc
      have sa : signBit a = false := by
        by_contra hs; have := ha'.2 (by simpa using hs); have := (isInf_iff a).1 ia; simp [infMag] at this; omega
      have sb : signBit b = false := by
        by_contra hs; have := hb'.2 (by simpa using hs); have := (isInf_iff b).1 hc.1; simp [infMag] at this; omega
      exact absurd (sa.trans sb.symm) hc.2
    · exact ha
  · split
    · exact hb
    · split
      · rw [legalWeight_iff, magField_withSign _ _ (by norm_num)]
        simp
      · have h0 := signedUnits_nonneg ha
        have h1 := signedUnits_nonneg hb
        have hlt : ¬ signedUnits a + signedUnits b < 0 := by omega
        have hm := roundMag_le (signedUnits a + signedUnits b).natAbs 1
        have hlt' : infMag < 2 ^ 31 := by norm_num [infMag]
        rw [legalWeight_iff, magField_withSign _ _ (by omega), signBit_withSign _ _ (by omega)]
        simp [hlt, hm]
end Sys2Proof.Machine
end

