-- ==== Sys2Proof/Laws/Bits.lean ====
section
/-! SUPPORT. Lists of bits as numbers, and the fields of a command word. -/

namespace Sys2Proof.Machine

theorem bitsToNat_lt (l : List Bool) : bitsToNat l < 2 ^ l.length := by
  induction l with
  | nil => simp [bitsToNat]
  | cons b bs ih => cases b <;> (simp [bitsToNat, Nat.pow_succ]; omega)

/-- Bit `i` of the number is element `i` of the list. -/
theorem testBit_bitsToNat (l : List Bool) (i : Nat) : (bitsToNat l).testBit i = l.getD i false := by
  induction l generalizing i with
  | nil => simp [bitsToNat]
  | cons b bs ih =>
    cases i with
    | zero => cases b <;> simp [bitsToNat, Nat.testBit_zero]
    | succ i =>
      rw [Nat.testBit_succ, List.getD_cons_succ, ← ih]
      congr 1
      cases b <;> (simp [bitsToNat]; try omega)

theorem getLsbD_ofNat_bitsToNat (n : Nat) (l : List Bool) (i : Nat) :
    (BitVec.ofNat n (bitsToNat l)).getLsbD i = (decide (i < n) && l.getD i false) := by
  rw [BitVec.getLsbD_ofNat, testBit_bitsToNat]

end Sys2Proof.Machine

namespace Sys2Proof

/-! ### The fields of a word built from fields (30_encoding.md R70, R71) -/

theorem getLsbD_cmdWord (opc b : Byte) (w : Word) (i : Nat) : (cmdWord opc b w).getLsbD i =
    if i < 8 then opc.getLsbD i else if i < 16 then b.getLsbD (i - 8)
    else if i < 32 then false else w.getLsbD (i - 32) := by
  simp only [cmdWord, BitVec.getLsbD_append]
  by_cases h1 : i < 8
  · simp [h1]
  · by_cases h2 : i < 16
    · simp [h1, h2, show i - 8 < 8 by omega]
    · by_cases h3 : i < 32
      · simp [h1, h2, h3, show ¬ i - 8 < 8 by omega, show i - 8 - 8 < 16 by omega]
      · simp [h1, h2, h3, show ¬ i - 8 < 8 by omega, show ¬ i - 8 - 8 < 16 by omega,
          show i - 8 - 8 - 16 = i - 32 by omega]

@[simp] theorem opcField_cmdWord (opc b : Byte) (w : Word) : opcField (cmdWord opc b w) = opc := by
  apply BitVec.eq_of_getLsbD_eq
  intro i hi
  simp only [opcField, BitVec.getLsbD_extractLsb', getLsbD_cmdWord]
  grind

@[simp] theorem byteField_cmdWord (opc b : Byte) (w : Word) : byteField (cmdWord opc b w) = b := by
  apply BitVec.eq_of_getLsbD_eq
  intro i hi
  simp only [byteField, BitVec.getLsbD_extractLsb', getLsbD_cmdWord]
  grind

@[simp] theorem rsvField_cmdWord (opc b : Byte) (w : Word) : rsvField (cmdWord opc b w) = 0 := by
  apply BitVec.eq_of_getLsbD_eq
  intro i hi
  simp only [rsvField, BitVec.getLsbD_extractLsb', getLsbD_cmdWord]
  grind

@[simp] theorem wordField_cmdWord (opc b : Byte) (w : Word) : wordField (cmdWord opc b w) = w := by
  apply BitVec.eq_of_getLsbD_eq
  intro i hi
  simp only [wordField, BitVec.getLsbD_extractLsb', getLsbD_cmdWord]
  grind

/-- A word is its fields. -/
theorem cmdWord_fields (w : CmdWord) (h : rsvField w = 0) :
    cmdWord (opcField w) (byteField w) (wordField w) = w := by
  apply BitVec.eq_of_getLsbD_eq
  intro i hi
  have hr : ∀ j, j < 16 → w.getLsbD (16 + j) = false := by
    intro j hj
    have := congrArg (fun v : BitVec 16 => v.getLsbD j) h
    simpa [rsvField, hj] using this
  simp only [getLsbD_cmdWord, opcField, byteField, wordField, BitVec.getLsbD_extractLsb']
  by_cases h1 : i < 8
  · simp [h1]
  · by_cases h2 : i < 16
    · simp [h1, h2, show i - 8 < 8 by omega, show 8 + (i - 8) = i by omega]
    · by_cases h3 : i < 32
      · have := hr (i - 16) (by omega)
        rw [show 16 + (i - 16) = i by omega] at this
        simp [h1, h2, h3, this]
      · simp [h1, h2, h3, show i - 32 < 32 by omega, show 32 + (i - 32) = i by omega]

end Sys2Proof
end

