-- ==== Sys2Proof/Laws/Decode.lean ====
section
/-! SUPPORT. Which words select which row, and what the decoder answers (30_encoding.md R73, R77). -/

namespace Sys2Proof

/-- Two words are equal when their four fields are. -/
theorem eq_iff_fields (v w : CmdWord) : v = w ↔ opcField v = opcField w ∧ byteField v = byteField w ∧
    rsvField v = rsvField w ∧ wordField v = wordField w := by
  constructor
  · rintro rfl; simp
  · rintro ⟨h1, h2, h3, h4⟩
    apply BitVec.eq_of_getLsbD_eq
    intro i hi
    have e1 := congrArg (fun x : BitVec 8 => x.getLsbD i) h1
    have e2 := congrArg (fun x : BitVec 8 => x.getLsbD (i - 8)) h2
    have e3 := congrArg (fun x : BitVec 16 => x.getLsbD (i - 16)) h3
    have e4 := congrArg (fun x : BitVec 32 => x.getLsbD (i - 32)) h4
    simp only [opcField, byteField, rsvField, wordField, BitVec.getLsbD_extractLsb'] at e1 e2 e3 e4
    grind

theorem opcField_and (v w : CmdWord) : opcField (v &&& w) = opcField v &&& opcField w := by
  simp [opcField, BitVec.extractLsb'_and]

theorem byteField_and (v w : CmdWord) : byteField (v &&& w) = byteField v &&& byteField w := by
  simp [byteField, BitVec.extractLsb'_and]

theorem rsvField_and (v w : CmdWord) : rsvField (v &&& w) = rsvField v &&& rsvField w := by
  simp [rsvField, BitVec.extractLsb'_and]

theorem wordField_and (v w : CmdWord) : wordField (v &&& w) = wordField v &&& wordField w := by
  simp [wordField, BitVec.extractLsb'_and]

theorem byte_and_ones (x : Byte) : x &&& 255#8 = x := BitVec.and_allOnes

theorem rsv_and_ones (x : BitVec 16) : x &&& 65535#16 = x := BitVec.and_allOnes

theorem word_and_ones (x : Word) : x &&& 4294967295#32 = x := BitVec.and_allOnes

/-- What a row asks of a word, field by field. -/
theorem selects_iff (r : Row) (w : CmdWord) : r.selects w = true ↔
    opcField w &&& opcField r.mask = opcField r.pattern ∧ byteField w &&& byteField r.mask = byteField r.pattern ∧
    rsvField w &&& rsvField r.mask = rsvField r.pattern ∧ wordField w &&& wordField r.mask = wordField r.pattern := by
  rw [Row.selects, beq_iff_eq, eq_iff_fields, opcField_and, byteField_and, rsvField_and, wordField_and]

/-- Every row fixes the opcode and `RSV`, each opcode has one row, and a row's command has the row's opcode. -/
theorem rows_fix_opcode : ∀ r ∈ rows, opcField r.mask = 0xFF ∧ rsvField r.mask = 0xFFFF ∧ rsvField r.pattern = 0 := by
  decide

theorem rows_opcodes_nodup : (rows.map fun r => opcField r.pattern).Nodup := by decide

/-- A row that selects a word has the word's opcode. -/
theorem opcField_of_selects {r : Row} {w : CmdWord} (hr : r ∈ rows) (h : r.selects w = true) :
    opcField w = opcField r.pattern := by
  have h1 := ((selects_iff r w).1 h).1
  rw [(rows_fix_opcode r hr).1, show (0xFF : Byte) = 255#8 from rfl, byte_and_ones] at h1
  exact h1

/-- A row that selects a word asks `RSV` = 0 of it. -/
theorem rsvField_of_selects {r : Row} {w : CmdWord} (hr : r ∈ rows) (h : r.selects w = true) : rsvField w = 0 := by
  have h1 := ((selects_iff r w).1 h).2.2.1
  rw [(rows_fix_opcode r hr).2.1, (rows_fix_opcode r hr).2.2, show (0xFFFF : BitVec 16) = 65535#16 from rfl,
    rsv_and_ones] at h1
  exact h1

/-- The first row found for a word is the row of its opcode. -/
theorem find_row {r : Row} {w : CmdWord} (hr : r ∈ rows) (h : r.selects w = true) :
    ∃ q, rows.find? (fun q => q.selects w) = some q ∧ q ∈ rows ∧ opcField q.pattern = opcField r.pattern := by
  cases hf : rows.find? (fun q => q.selects w) with
  | none => exact absurd h (by simpa using List.find?_eq_none.1 hf r hr)
  | some q =>
    have hq := List.mem_of_find?_eq_some hf
    have hs := List.find?_some hf
    exact ⟨q, rfl, hq, by rw [← opcField_of_selects hq hs, opcField_of_selects hr h]⟩

/-- Two rows of one opcode are one row. -/
theorem row_eq_of_opcode {r q : Row} (hr : r ∈ rows) (hq : q ∈ rows) (h : opcField r.pattern = opcField q.pattern) :
    r = q := List.inj_on_of_nodup_map rows_opcodes_nodup hr hq h

/-- What the decoder answers for a word a row selects. -/
theorem decode_of_selects {r : Row} {w : CmdWord} (hr : r ∈ rows) (h : r.selects w = true) :
    decode w = if (r.operands w).wellFormed then .ok (r.operands w) else .error .nodeRange := by
  obtain ⟨q, hf, hq, ho⟩ := find_row hr h
  obtain rfl := row_eq_of_opcode hq hr ho
  simp [decode, hf]

/-- What a decoded command rests on: a row that selects the word. -/
theorem row_of_decode {w : CmdWord} {i : Instr} (h : decode w = .ok i) :
    ∃ r ∈ rows, r.selects w = true ∧ r.operands w = i ∧ i.wellFormed = true := by
  unfold decode at h
  split at h
  · rename_i r hf
    split at h
    · rename_i hw
      simp only [Except.ok.injEq] at h
      exact ⟨r, List.mem_of_find?_eq_some hf, by simpa using List.find?_some hf, h, h ▸ hw⟩
    · simp at h
  · simp at h

end Sys2Proof
end

