-- ==== Sys2Proof/Laws/State.lean ====
section
/-! SUPPORT. One lemma per field per update of the state, each true by rfl. -/

namespace Sys2Proof.Machine

variable (s : State)

/-! ### setFreq -/

@[simp] theorem State.setFreq_freq (i : Byte) (v : Word) : (s.setFreq i v).freq = s.freq.set i.toNat v i.isLt := rfl
@[simp] theorem State.setFreq_treeValid (i : Byte) (v : Word) : (s.setFreq i v).treeValid = s.treeValid := rfl
@[simp] theorem State.setFreq_node (i : Byte) (v : Word) : (s.setFreq i v).node = s.node := rfl
@[simp] theorem State.setFreq_clen (i : Byte) (v : Word) : (s.setFreq i v).clen = s.clen := rfl
@[simp] theorem State.setFreq_code (i : Byte) (v : Word) : (s.setFreq i v).code = s.code := rfl
@[simp] theorem State.setFreq_acc (i : Byte) (v : Word) : (s.setFreq i v).acc = s.acc := rfl
@[simp] theorem State.setFreq_bitpos (i : Byte) (v : Word) : (s.setFreq i v).bitpos = s.bitpos := rfl
@[simp] theorem State.setFreq_padOut (i : Byte) (v : Word) : (s.setFreq i v).padOut = s.padOut := rfl
@[simp] theorem State.setFreq_encOpen (i : Byte) (v : Word) : (s.setFreq i v).encOpen = s.encOpen := rfl
@[simp] theorem State.setFreq_padIn (i : Byte) (v : Word) : (s.setFreq i v).padIn = s.padIn := rfl
@[simp] theorem State.setFreq_cursor (i : Byte) (v : Word) : (s.setFreq i v).cursor = s.cursor := rfl
@[simp] theorem State.setFreq_decOpen (i : Byte) (v : Word) : (s.setFreq i v).decOpen = s.decOpen := rfl
@[simp] theorem State.setFreq_resp (i : Byte) (v : Word) : (s.setFreq i v).resp = s.resp := rfl
@[simp] theorem State.setFreq_err (i : Byte) (v : Word) : (s.setFreq i v).err = s.err := rfl
@[simp] theorem State.setFreq_errOpc (i : Byte) (v : Word) : (s.setFreq i v).errOpc = s.errOpc := rfl
@[simp] theorem State.setFreq_out (i : Byte) (v : Word) : (s.setFreq i v).out = s.out := rfl
@[simp] theorem State.setFreq_port (i : Byte) (v : Word) : (s.setFreq i v).port = s.port := rfl

/-! ### setTreeValid -/

@[simp] theorem State.setTreeValid_freq (v : Bool) : (s.setTreeValid v).freq = s.freq := rfl
@[simp] theorem State.setTreeValid_treeValid (v : Bool) : (s.setTreeValid v).treeValid = v := rfl
@[simp] theorem State.setTreeValid_node (v : Bool) : (s.setTreeValid v).node = s.node := rfl
@[simp] theorem State.setTreeValid_clen (v : Bool) : (s.setTreeValid v).clen = s.clen := rfl
@[simp] theorem State.setTreeValid_code (v : Bool) : (s.setTreeValid v).code = s.code := rfl
@[simp] theorem State.setTreeValid_acc (v : Bool) : (s.setTreeValid v).acc = s.acc := rfl
@[simp] theorem State.setTreeValid_bitpos (v : Bool) : (s.setTreeValid v).bitpos = s.bitpos := rfl
@[simp] theorem State.setTreeValid_padOut (v : Bool) : (s.setTreeValid v).padOut = s.padOut := rfl
@[simp] theorem State.setTreeValid_encOpen (v : Bool) : (s.setTreeValid v).encOpen = s.encOpen := rfl
@[simp] theorem State.setTreeValid_padIn (v : Bool) : (s.setTreeValid v).padIn = s.padIn := rfl
@[simp] theorem State.setTreeValid_cursor (v : Bool) : (s.setTreeValid v).cursor = s.cursor := rfl
@[simp] theorem State.setTreeValid_decOpen (v : Bool) : (s.setTreeValid v).decOpen = s.decOpen := rfl
@[simp] theorem State.setTreeValid_resp (v : Bool) : (s.setTreeValid v).resp = s.resp := rfl
@[simp] theorem State.setTreeValid_err (v : Bool) : (s.setTreeValid v).err = s.err := rfl
@[simp] theorem State.setTreeValid_errOpc (v : Bool) : (s.setTreeValid v).errOpc = s.errOpc := rfl
@[simp] theorem State.setTreeValid_out (v : Bool) : (s.setTreeValid v).out = s.out := rfl
@[simp] theorem State.setTreeValid_port (v : Bool) : (s.setTreeValid v).port = s.port := rfl

/-! ### setTables -/

@[simp] theorem State.setTables_freq (n : Vector NodeRec 255) (l : Vector Byte 256) (c : Vector CodeBits 256) : (s.setTables n l c).freq = s.freq := rfl
@[simp] theorem State.setTables_treeValid (n : Vector NodeRec 255) (l : Vector Byte 256) (c : Vector CodeBits 256) : (s.setTables n l c).treeValid = s.treeValid := rfl
@[simp] theorem State.setTables_node (n : Vector NodeRec 255) (l : Vector Byte 256) (c : Vector CodeBits 256) : (s.setTables n l c).node = n := rfl
@[simp] theorem State.setTables_clen (n : Vector NodeRec 255) (l : Vector Byte 256) (c : Vector CodeBits 256) : (s.setTables n l c).clen = l := rfl
@[simp] theorem State.setTables_code (n : Vector NodeRec 255) (l : Vector Byte 256) (c : Vector CodeBits 256) : (s.setTables n l c).code = c := rfl
@[simp] theorem State.setTables_acc (n : Vector NodeRec 255) (l : Vector Byte 256) (c : Vector CodeBits 256) : (s.setTables n l c).acc = s.acc := rfl
@[simp] theorem State.setTables_bitpos (n : Vector NodeRec 255) (l : Vector Byte 256) (c : Vector CodeBits 256) : (s.setTables n l c).bitpos = s.bitpos := rfl
@[simp] theorem State.setTables_padOut (n : Vector NodeRec 255) (l : Vector Byte 256) (c : Vector CodeBits 256) : (s.setTables n l c).padOut = s.padOut := rfl
@[simp] theorem State.setTables_encOpen (n : Vector NodeRec 255) (l : Vector Byte 256) (c : Vector CodeBits 256) : (s.setTables n l c).encOpen = s.encOpen := rfl
@[simp] theorem State.setTables_padIn (n : Vector NodeRec 255) (l : Vector Byte 256) (c : Vector CodeBits 256) : (s.setTables n l c).padIn = s.padIn := rfl
@[simp] theorem State.setTables_cursor (n : Vector NodeRec 255) (l : Vector Byte 256) (c : Vector CodeBits 256) : (s.setTables n l c).cursor = s.cursor := rfl
@[simp] theorem State.setTables_decOpen (n : Vector NodeRec 255) (l : Vector Byte 256) (c : Vector CodeBits 256) : (s.setTables n l c).decOpen = s.decOpen := rfl
@[simp] theorem State.setTables_resp (n : Vector NodeRec 255) (l : Vector Byte 256) (c : Vector CodeBits 256) : (s.setTables n l c).resp = s.resp := rfl
@[simp] theorem State.setTables_err (n : Vector NodeRec 255) (l : Vector Byte 256) (c : Vector CodeBits 256) : (s.setTables n l c).err = s.err := rfl
@[simp] theorem State.setTables_errOpc (n : Vector NodeRec 255) (l : Vector Byte 256) (c : Vector CodeBits 256) : (s.setTables n l c).errOpc = s.errOpc := rfl
@[simp] theorem State.setTables_out (n : Vector NodeRec 255) (l : Vector Byte 256) (c : Vector CodeBits 256) : (s.setTables n l c).out = s.out := rfl
@[simp] theorem State.setTables_port (n : Vector NodeRec 255) (l : Vector Byte 256) (c : Vector CodeBits 256) : (s.setTables n l c).port = s.port := rfl

/-! ### setAcc -/

@[simp] theorem State.setAcc_freq (v : Byte) : (s.setAcc v).freq = s.freq := rfl
@[simp] theorem State.setAcc_treeValid (v : Byte) : (s.setAcc v).treeValid = s.treeValid := rfl
@[simp] theorem State.setAcc_node (v : Byte) : (s.setAcc v).node = s.node := rfl
@[simp] theorem State.setAcc_clen (v : Byte) : (s.setAcc v).clen = s.clen := rfl
@[simp] theorem State.setAcc_code (v : Byte) : (s.setAcc v).code = s.code := rfl
@[simp] theorem State.setAcc_acc (v : Byte) : (s.setAcc v).acc = v := rfl
@[simp] theorem State.setAcc_bitpos (v : Byte) : (s.setAcc v).bitpos = s.bitpos := rfl
@[simp] theorem State.setAcc_padOut (v : Byte) : (s.setAcc v).padOut = s.padOut := rfl
@[simp] theorem State.setAcc_encOpen (v : Byte) : (s.setAcc v).encOpen = s.encOpen := rfl
@[simp] theorem State.setAcc_padIn (v : Byte) : (s.setAcc v).padIn = s.padIn := rfl
@[simp] theorem State.setAcc_cursor (v : Byte) : (s.setAcc v).cursor = s.cursor := rfl
@[simp] theorem State.setAcc_decOpen (v : Byte) : (s.setAcc v).decOpen = s.decOpen := rfl
@[simp] theorem State.setAcc_resp (v : Byte) : (s.setAcc v).resp = s.resp := rfl
@[simp] theorem State.setAcc_err (v : Byte) : (s.setAcc v).err = s.err := rfl
@[simp] theorem State.setAcc_errOpc (v : Byte) : (s.setAcc v).errOpc = s.errOpc := rfl
@[simp] theorem State.setAcc_out (v : Byte) : (s.setAcc v).out = s.out := rfl
@[simp] theorem State.setAcc_port (v : Byte) : (s.setAcc v).port = s.port := rfl

/-! ### setBitpos -/

@[simp] theorem State.setBitpos_freq (v : BitVec 3) : (s.setBitpos v).freq = s.freq := rfl
@[simp] theorem State.setBitpos_treeValid (v : BitVec 3) : (s.setBitpos v).treeValid = s.treeValid := rfl
@[simp] theorem State.setBitpos_node (v : BitVec 3) : (s.setBitpos v).node = s.node := rfl
@[simp] theorem State.setBitpos_clen (v : BitVec 3) : (s.setBitpos v).clen = s.clen := rfl
@[simp] theorem State.setBitpos_code (v : BitVec 3) : (s.setBitpos v).code = s.code := rfl
@[simp] theorem State.setBitpos_acc (v : BitVec 3) : (s.setBitpos v).acc = s.acc := rfl
@[simp] theorem State.setBitpos_bitpos (v : BitVec 3) : (s.setBitpos v).bitpos = v := rfl
@[simp] theorem State.setBitpos_padOut (v : BitVec 3) : (s.setBitpos v).padOut = s.padOut := rfl
@[simp] theorem State.setBitpos_encOpen (v : BitVec 3) : (s.setBitpos v).encOpen = s.encOpen := rfl
@[simp] theorem State.setBitpos_padIn (v : BitVec 3) : (s.setBitpos v).padIn = s.padIn := rfl
@[simp] theorem State.setBitpos_cursor (v : BitVec 3) : (s.setBitpos v).cursor = s.cursor := rfl
@[simp] theorem State.setBitpos_decOpen (v : BitVec 3) : (s.setBitpos v).decOpen = s.decOpen := rfl
@[simp] theorem State.setBitpos_resp (v : BitVec 3) : (s.setBitpos v).resp = s.resp := rfl
@[simp] theorem State.setBitpos_err (v : BitVec 3) : (s.setBitpos v).err = s.err := rfl
@[simp] theorem State.setBitpos_errOpc (v : BitVec 3) : (s.setBitpos v).errOpc = s.errOpc := rfl
@[simp] theorem State.setBitpos_out (v : BitVec 3) : (s.setBitpos v).out = s.out := rfl
@[simp] theorem State.setBitpos_port (v : BitVec 3) : (s.setBitpos v).port = s.port := rfl

/-! ### setPadOut -/

@[simp] theorem State.setPadOut_freq (v : BitVec 3) : (s.setPadOut v).freq = s.freq := rfl
@[simp] theorem State.setPadOut_treeValid (v : BitVec 3) : (s.setPadOut v).treeValid = s.treeValid := rfl
@[simp] theorem State.setPadOut_node (v : BitVec 3) : (s.setPadOut v).node = s.node := rfl
@[simp] theorem State.setPadOut_clen (v : BitVec 3) : (s.setPadOut v).clen = s.clen := rfl
@[simp] theorem State.setPadOut_code (v : BitVec 3) : (s.setPadOut v).code = s.code := rfl
@[simp] theorem State.setPadOut_acc (v : BitVec 3) : (s.setPadOut v).acc = s.acc := rfl
@[simp] theorem State.setPadOut_bitpos (v : BitVec 3) : (s.setPadOut v).bitpos = s.bitpos := rfl
@[simp] theorem State.setPadOut_padOut (v : BitVec 3) : (s.setPadOut v).padOut = v := rfl
@[simp] theorem State.setPadOut_encOpen (v : BitVec 3) : (s.setPadOut v).encOpen = s.encOpen := rfl
@[simp] theorem State.setPadOut_padIn (v : BitVec 3) : (s.setPadOut v).padIn = s.padIn := rfl
@[simp] theorem State.setPadOut_cursor (v : BitVec 3) : (s.setPadOut v).cursor = s.cursor := rfl
@[simp] theorem State.setPadOut_decOpen (v : BitVec 3) : (s.setPadOut v).decOpen = s.decOpen := rfl
@[simp] theorem State.setPadOut_resp (v : BitVec 3) : (s.setPadOut v).resp = s.resp := rfl
@[simp] theorem State.setPadOut_err (v : BitVec 3) : (s.setPadOut v).err = s.err := rfl
@[simp] theorem State.setPadOut_errOpc (v : BitVec 3) : (s.setPadOut v).errOpc = s.errOpc := rfl
@[simp] theorem State.setPadOut_out (v : BitVec 3) : (s.setPadOut v).out = s.out := rfl
@[simp] theorem State.setPadOut_port (v : BitVec 3) : (s.setPadOut v).port = s.port := rfl

/-! ### setEncOpen -/

@[simp] theorem State.setEncOpen_freq (v : Bool) : (s.setEncOpen v).freq = s.freq := rfl
@[simp] theorem State.setEncOpen_treeValid (v : Bool) : (s.setEncOpen v).treeValid = s.treeValid := rfl
@[simp] theorem State.setEncOpen_node (v : Bool) : (s.setEncOpen v).node = s.node := rfl
@[simp] theorem State.setEncOpen_clen (v : Bool) : (s.setEncOpen v).clen = s.clen := rfl
@[simp] theorem State.setEncOpen_code (v : Bool) : (s.setEncOpen v).code = s.code := rfl
@[simp] theorem State.setEncOpen_acc (v : Bool) : (s.setEncOpen v).acc = s.acc := rfl
@[simp] theorem State.setEncOpen_bitpos (v : Bool) : (s.setEncOpen v).bitpos = s.bitpos := rfl
@[simp] theorem State.setEncOpen_padOut (v : Bool) : (s.setEncOpen v).padOut = s.padOut := rfl
@[simp] theorem State.setEncOpen_encOpen (v : Bool) : (s.setEncOpen v).encOpen = v := rfl
@[simp] theorem State.setEncOpen_padIn (v : Bool) : (s.setEncOpen v).padIn = s.padIn := rfl
@[simp] theorem State.setEncOpen_cursor (v : Bool) : (s.setEncOpen v).cursor = s.cursor := rfl
@[simp] theorem State.setEncOpen_decOpen (v : Bool) : (s.setEncOpen v).decOpen = s.decOpen := rfl
@[simp] theorem State.setEncOpen_resp (v : Bool) : (s.setEncOpen v).resp = s.resp := rfl
@[simp] theorem State.setEncOpen_err (v : Bool) : (s.setEncOpen v).err = s.err := rfl
@[simp] theorem State.setEncOpen_errOpc (v : Bool) : (s.setEncOpen v).errOpc = s.errOpc := rfl
@[simp] theorem State.setEncOpen_out (v : Bool) : (s.setEncOpen v).out = s.out := rfl
@[simp] theorem State.setEncOpen_port (v : Bool) : (s.setEncOpen v).port = s.port := rfl

/-! ### setPadIn -/

@[simp] theorem State.setPadIn_freq (v : BitVec 3) : (s.setPadIn v).freq = s.freq := rfl
@[simp] theorem State.setPadIn_treeValid (v : BitVec 3) : (s.setPadIn v).treeValid = s.treeValid := rfl
@[simp] theorem State.setPadIn_node (v : BitVec 3) : (s.setPadIn v).node = s.node := rfl
@[simp] theorem State.setPadIn_clen (v : BitVec 3) : (s.setPadIn v).clen = s.clen := rfl
@[simp] theorem State.setPadIn_code (v : BitVec 3) : (s.setPadIn v).code = s.code := rfl
@[simp] theorem State.setPadIn_acc (v : BitVec 3) : (s.setPadIn v).acc = s.acc := rfl
@[simp] theorem State.setPadIn_bitpos (v : BitVec 3) : (s.setPadIn v).bitpos = s.bitpos := rfl
@[simp] theorem State.setPadIn_padOut (v : BitVec 3) : (s.setPadIn v).padOut = s.padOut := rfl
@[simp] theorem State.setPadIn_encOpen (v : BitVec 3) : (s.setPadIn v).encOpen = s.encOpen := rfl
@[simp] theorem State.setPadIn_padIn (v : BitVec 3) : (s.setPadIn v).padIn = v := rfl
@[simp] theorem State.setPadIn_cursor (v : BitVec 3) : (s.setPadIn v).cursor = s.cursor := rfl
@[simp] theorem State.setPadIn_decOpen (v : BitVec 3) : (s.setPadIn v).decOpen = s.decOpen := rfl
@[simp] theorem State.setPadIn_resp (v : BitVec 3) : (s.setPadIn v).resp = s.resp := rfl
@[simp] theorem State.setPadIn_err (v : BitVec 3) : (s.setPadIn v).err = s.err := rfl
@[simp] theorem State.setPadIn_errOpc (v : BitVec 3) : (s.setPadIn v).errOpc = s.errOpc := rfl
@[simp] theorem State.setPadIn_out (v : BitVec 3) : (s.setPadIn v).out = s.out := rfl
@[simp] theorem State.setPadIn_port (v : BitVec 3) : (s.setPadIn v).port = s.port := rfl

/-! ### setCursor -/

@[simp] theorem State.setCursor_freq (v : NodeIdx) : (s.setCursor v).freq = s.freq := rfl
@[simp] theorem State.setCursor_treeValid (v : NodeIdx) : (s.setCursor v).treeValid = s.treeValid := rfl
@[simp] theorem State.setCursor_node (v : NodeIdx) : (s.setCursor v).node = s.node := rfl
@[simp] theorem State.setCursor_clen (v : NodeIdx) : (s.setCursor v).clen = s.clen := rfl
@[simp] theorem State.setCursor_code (v : NodeIdx) : (s.setCursor v).code = s.code := rfl
@[simp] theorem State.setCursor_acc (v : NodeIdx) : (s.setCursor v).acc = s.acc := rfl
@[simp] theorem State.setCursor_bitpos (v : NodeIdx) : (s.setCursor v).bitpos = s.bitpos := rfl
@[simp] theorem State.setCursor_padOut (v : NodeIdx) : (s.setCursor v).padOut = s.padOut := rfl
@[simp] theorem State.setCursor_encOpen (v : NodeIdx) : (s.setCursor v).encOpen = s.encOpen := rfl
@[simp] theorem State.setCursor_padIn (v : NodeIdx) : (s.setCursor v).padIn = s.padIn := rfl
@[simp] theorem State.setCursor_cursor (v : NodeIdx) : (s.setCursor v).cursor = v := rfl
@[simp] theorem State.setCursor_decOpen (v : NodeIdx) : (s.setCursor v).decOpen = s.decOpen := rfl
@[simp] theorem State.setCursor_resp (v : NodeIdx) : (s.setCursor v).resp = s.resp := rfl
@[simp] theorem State.setCursor_err (v : NodeIdx) : (s.setCursor v).err = s.err := rfl
@[simp] theorem State.setCursor_errOpc (v : NodeIdx) : (s.setCursor v).errOpc = s.errOpc := rfl
@[simp] theorem State.setCursor_out (v : NodeIdx) : (s.setCursor v).out = s.out := rfl
@[simp] theorem State.setCursor_port (v : NodeIdx) : (s.setCursor v).port = s.port := rfl

/-! ### setDecOpen -/

@[simp] theorem State.setDecOpen_freq (v : Bool) : (s.setDecOpen v).freq = s.freq := rfl
@[simp] theorem State.setDecOpen_treeValid (v : Bool) : (s.setDecOpen v).treeValid = s.treeValid := rfl
@[simp] theorem State.setDecOpen_node (v : Bool) : (s.setDecOpen v).node = s.node := rfl
@[simp] theorem State.setDecOpen_clen (v : Bool) : (s.setDecOpen v).clen = s.clen := rfl
@[simp] theorem State.setDecOpen_code (v : Bool) : (s.setDecOpen v).code = s.code := rfl
@[simp] theorem State.setDecOpen_acc (v : Bool) : (s.setDecOpen v).acc = s.acc := rfl
@[simp] theorem State.setDecOpen_bitpos (v : Bool) : (s.setDecOpen v).bitpos = s.bitpos := rfl
@[simp] theorem State.setDecOpen_padOut (v : Bool) : (s.setDecOpen v).padOut = s.padOut := rfl
@[simp] theorem State.setDecOpen_encOpen (v : Bool) : (s.setDecOpen v).encOpen = s.encOpen := rfl
@[simp] theorem State.setDecOpen_padIn (v : Bool) : (s.setDecOpen v).padIn = s.padIn := rfl
@[simp] theorem State.setDecOpen_cursor (v : Bool) : (s.setDecOpen v).cursor = s.cursor := rfl
@[simp] theorem State.setDecOpen_decOpen (v : Bool) : (s.setDecOpen v).decOpen = v := rfl
@[simp] theorem State.setDecOpen_resp (v : Bool) : (s.setDecOpen v).resp = s.resp := rfl
@[simp] theorem State.setDecOpen_err (v : Bool) : (s.setDecOpen v).err = s.err := rfl
@[simp] theorem State.setDecOpen_errOpc (v : Bool) : (s.setDecOpen v).errOpc = s.errOpc := rfl
@[simp] theorem State.setDecOpen_out (v : Bool) : (s.setDecOpen v).out = s.out := rfl
@[simp] theorem State.setDecOpen_port (v : Bool) : (s.setDecOpen v).port = s.port := rfl

/-! ### respond -/

@[simp] theorem State.respond_freq (v : Word) : (s.respond v).freq = s.freq := rfl
@[simp] theorem State.respond_treeValid (v : Word) : (s.respond v).treeValid = s.treeValid := rfl
@[simp] theorem State.respond_node (v : Word) : (s.respond v).node = s.node := rfl
@[simp] theorem State.respond_clen (v : Word) : (s.respond v).clen = s.clen := rfl
@[simp] theorem State.respond_code (v : Word) : (s.respond v).code = s.code := rfl
@[simp] theorem State.respond_acc (v : Word) : (s.respond v).acc = s.acc := rfl
@[simp] theorem State.respond_bitpos (v : Word) : (s.respond v).bitpos = s.bitpos := rfl
@[simp] theorem State.respond_padOut (v : Word) : (s.respond v).padOut = s.padOut := rfl
@[simp] theorem State.respond_encOpen (v : Word) : (s.respond v).encOpen = s.encOpen := rfl
@[simp] theorem State.respond_padIn (v : Word) : (s.respond v).padIn = s.padIn := rfl
@[simp] theorem State.respond_cursor (v : Word) : (s.respond v).cursor = s.cursor := rfl
@[simp] theorem State.respond_decOpen (v : Word) : (s.respond v).decOpen = s.decOpen := rfl
@[simp] theorem State.respond_resp (v : Word) : (s.respond v).resp = v := rfl
@[simp] theorem State.respond_err (v : Word) : (s.respond v).err = s.err := rfl
@[simp] theorem State.respond_errOpc (v : Word) : (s.respond v).errOpc = s.errOpc := rfl
@[simp] theorem State.respond_out (v : Word) : (s.respond v).out = s.out := rfl
@[simp] theorem State.respond_port (v : Word) : (s.respond v).port = s.port := rfl

/-! ### emit -/

@[simp] theorem State.emit_freq (v : Byte) : (s.emit v).freq = s.freq := rfl
@[simp] theorem State.emit_treeValid (v : Byte) : (s.emit v).treeValid = s.treeValid := rfl
@[simp] theorem State.emit_node (v : Byte) : (s.emit v).node = s.node := rfl
@[simp] theorem State.emit_clen (v : Byte) : (s.emit v).clen = s.clen := rfl
@[simp] theorem State.emit_code (v : Byte) : (s.emit v).code = s.code := rfl
@[simp] theorem State.emit_acc (v : Byte) : (s.emit v).acc = s.acc := rfl
@[simp] theorem State.emit_bitpos (v : Byte) : (s.emit v).bitpos = s.bitpos := rfl
@[simp] theorem State.emit_padOut (v : Byte) : (s.emit v).padOut = s.padOut := rfl
@[simp] theorem State.emit_encOpen (v : Byte) : (s.emit v).encOpen = s.encOpen := rfl
@[simp] theorem State.emit_padIn (v : Byte) : (s.emit v).padIn = s.padIn := rfl
@[simp] theorem State.emit_cursor (v : Byte) : (s.emit v).cursor = s.cursor := rfl
@[simp] theorem State.emit_decOpen (v : Byte) : (s.emit v).decOpen = s.decOpen := rfl
@[simp] theorem State.emit_resp (v : Byte) : (s.emit v).resp = s.resp := rfl
@[simp] theorem State.emit_err (v : Byte) : (s.emit v).err = s.err := rfl
@[simp] theorem State.emit_errOpc (v : Byte) : (s.emit v).errOpc = s.errOpc := rfl
@[simp] theorem State.emit_out (v : Byte) : (s.emit v).out = s.out ++ [v] := rfl
@[simp] theorem State.emit_port (v : Byte) : (s.emit v).port = s.port := rfl

/-! ### setErr -/

@[simp] theorem State.setErr_freq (c : BitVec 4) (o : Byte) : (s.setErr c o).freq = s.freq := rfl
@[simp] theorem State.setErr_treeValid (c : BitVec 4) (o : Byte) : (s.setErr c o).treeValid = s.treeValid := rfl
@[simp] theorem State.setErr_node (c : BitVec 4) (o : Byte) : (s.setErr c o).node = s.node := rfl
@[simp] theorem State.setErr_clen (c : BitVec 4) (o : Byte) : (s.setErr c o).clen = s.clen := rfl
@[simp] theorem State.setErr_code (c : BitVec 4) (o : Byte) : (s.setErr c o).code = s.code := rfl
@[simp] theorem State.setErr_acc (c : BitVec 4) (o : Byte) : (s.setErr c o).acc = s.acc := rfl
@[simp] theorem State.setErr_bitpos (c : BitVec 4) (o : Byte) : (s.setErr c o).bitpos = s.bitpos := rfl
@[simp] theorem State.setErr_padOut (c : BitVec 4) (o : Byte) : (s.setErr c o).padOut = s.padOut := rfl
@[simp] theorem State.setErr_encOpen (c : BitVec 4) (o : Byte) : (s.setErr c o).encOpen = s.encOpen := rfl
@[simp] theorem State.setErr_padIn (c : BitVec 4) (o : Byte) : (s.setErr c o).padIn = s.padIn := rfl
@[simp] theorem State.setErr_cursor (c : BitVec 4) (o : Byte) : (s.setErr c o).cursor = s.cursor := rfl
@[simp] theorem State.setErr_decOpen (c : BitVec 4) (o : Byte) : (s.setErr c o).decOpen = s.decOpen := rfl
@[simp] theorem State.setErr_resp (c : BitVec 4) (o : Byte) : (s.setErr c o).resp = s.resp := rfl
@[simp] theorem State.setErr_err (c : BitVec 4) (o : Byte) : (s.setErr c o).err = c := rfl
@[simp] theorem State.setErr_errOpc (c : BitVec 4) (o : Byte) : (s.setErr c o).errOpc = o := rfl
@[simp] theorem State.setErr_out (c : BitVec 4) (o : Byte) : (s.setErr c o).out = s.out := rfl
@[simp] theorem State.setErr_port (c : BitVec 4) (o : Byte) : (s.setErr c o).port = s.port := rfl

/-! ### setPort -/

@[simp] theorem State.setPort_freq (p : List HostInput) : (s.setPort p).freq = s.freq := rfl
@[simp] theorem State.setPort_treeValid (p : List HostInput) : (s.setPort p).treeValid = s.treeValid := rfl
@[simp] theorem State.setPort_node (p : List HostInput) : (s.setPort p).node = s.node := rfl
@[simp] theorem State.setPort_clen (p : List HostInput) : (s.setPort p).clen = s.clen := rfl
@[simp] theorem State.setPort_code (p : List HostInput) : (s.setPort p).code = s.code := rfl
@[simp] theorem State.setPort_acc (p : List HostInput) : (s.setPort p).acc = s.acc := rfl
@[simp] theorem State.setPort_bitpos (p : List HostInput) : (s.setPort p).bitpos = s.bitpos := rfl
@[simp] theorem State.setPort_padOut (p : List HostInput) : (s.setPort p).padOut = s.padOut := rfl
@[simp] theorem State.setPort_encOpen (p : List HostInput) : (s.setPort p).encOpen = s.encOpen := rfl
@[simp] theorem State.setPort_padIn (p : List HostInput) : (s.setPort p).padIn = s.padIn := rfl
@[simp] theorem State.setPort_cursor (p : List HostInput) : (s.setPort p).cursor = s.cursor := rfl
@[simp] theorem State.setPort_decOpen (p : List HostInput) : (s.setPort p).decOpen = s.decOpen := rfl
@[simp] theorem State.setPort_resp (p : List HostInput) : (s.setPort p).resp = s.resp := rfl
@[simp] theorem State.setPort_err (p : List HostInput) : (s.setPort p).err = s.err := rfl
@[simp] theorem State.setPort_errOpc (p : List HostInput) : (s.setPort p).errOpc = s.errOpc := rfl
@[simp] theorem State.setPort_out (p : List HostInput) : (s.setPort p).out = s.out := rfl
@[simp] theorem State.setPort_port (p : List HostInput) : (s.setPort p).port = p := rfl

/-! ### resetRegs -/

@[simp] theorem State.resetRegs_freq : (s.resetRegs).freq = State.reset.freq := rfl
@[simp] theorem State.resetRegs_treeValid : (s.resetRegs).treeValid = State.reset.treeValid := rfl
@[simp] theorem State.resetRegs_node : (s.resetRegs).node = State.reset.node := rfl
@[simp] theorem State.resetRegs_clen : (s.resetRegs).clen = State.reset.clen := rfl
@[simp] theorem State.resetRegs_code : (s.resetRegs).code = State.reset.code := rfl
@[simp] theorem State.resetRegs_acc : (s.resetRegs).acc = State.reset.acc := rfl
@[simp] theorem State.resetRegs_bitpos : (s.resetRegs).bitpos = State.reset.bitpos := rfl
@[simp] theorem State.resetRegs_padOut : (s.resetRegs).padOut = State.reset.padOut := rfl
@[simp] theorem State.resetRegs_encOpen : (s.resetRegs).encOpen = State.reset.encOpen := rfl
@[simp] theorem State.resetRegs_padIn : (s.resetRegs).padIn = State.reset.padIn := rfl
@[simp] theorem State.resetRegs_cursor : (s.resetRegs).cursor = State.reset.cursor := rfl
@[simp] theorem State.resetRegs_decOpen : (s.resetRegs).decOpen = State.reset.decOpen := rfl
@[simp] theorem State.resetRegs_resp : (s.resetRegs).resp = State.reset.resp := rfl
@[simp] theorem State.resetRegs_err : (s.resetRegs).err = State.reset.err := rfl
@[simp] theorem State.resetRegs_errOpc : (s.resetRegs).errOpc = State.reset.errOpc := rfl
@[simp] theorem State.resetRegs_out : (s.resetRegs).out = s.out := rfl
@[simp] theorem State.resetRegs_port : (s.resetRegs).port = s.port := rfl

end Sys2Proof.Machine
end

