-- ==== Sys2Proof/Laws/Ops.lean ====
section
/-! SUPPORT. What each shared operation can do, said once. -/

namespace Sys2Proof.Machine

variable {s t : State} {opc : Byte} {checks : List (Bool × ErrCode)} {effect : Result} {c : ErrCode}

theorem sticky_iff : s.sticky = true ↔ s.err ≠ 0 := by simp [State.sticky]

theorem sticky_eq_false_iff : s.sticky = false ↔ s.err = 0 := by simp [State.sticky]

theorem errCode_ne_zero (c : ErrCode) : c.bits ≠ 0 := by cases c <;> decide

theorem errCode_le_five (c : ErrCode) : c.bits.toNat ≤ 5 := by cases c <;> decide

theorem errCode_injective {c d : ErrCode} (h : c.bits = d.bits) : c = d := by
  cases c <;> cases d <;> first | rfl | exact absurd h (by decide)

@[simp] theorem firstError_nil : firstError [] = none := rfl

@[simp] theorem firstError_cons (b : Bool) (c : ErrCode) (cs : List (Bool × ErrCode)) :
    firstError ((b, c) :: cs) = if b then some c else firstError cs := by cases b <;> rfl

/-! ### execute and raise -/

theorem execute_of_sticky (h : s.err ≠ 0) : execute opc checks s effect = .next s := by
  simp [execute, sticky_iff.2 h]

theorem execute_of_fails (h : s.err = 0) (hc : firstError checks = some c) :
    execute opc checks s effect = .next (s.setErr c.bits opc) := by
  simp [execute, sticky_eq_false_iff.2 h, hc, raise]

theorem execute_of_passes (h : s.err = 0) (hc : firstError checks = none) :
    execute opc checks s effect = effect := by
  simp [execute, sticky_eq_false_iff.2 h, hc]

/-- What `execute` can do: ignore the command, raise the first failing check, or have the effect. -/
theorem execute_cases (opc : Byte) (checks : List (Bool × ErrCode)) (s : State) (effect : Result) :
    (s.err ≠ 0 ∧ execute opc checks s effect = .next s) ∨
    (s.err = 0 ∧ ∃ c, firstError checks = some c ∧ execute opc checks s effect = .next (s.setErr c.bits opc)) ∨
    (s.err = 0 ∧ firstError checks = none ∧ execute opc checks s effect = effect) := by
  by_cases h : s.err = 0
  · cases hc : firstError checks with
    | some c => exact .inr (.inl ⟨h, c, rfl, execute_of_fails h hc⟩)
    | none => exact .inr (.inr ⟨h, rfl, execute_of_passes h hc⟩)
  · exact .inl ⟨h, execute_of_sticky h⟩

theorem rejectWord_of_sticky (h : s.err ≠ 0) : rejectWord opc s = .next s := execute_of_sticky h

theorem rejectWord_of_clear (h : s.err = 0) : rejectWord opc s = .next (s.setErr 1 opc) :=
  execute_of_fails (c := .illegalCmd) h rfl

/-! ### andThen and readNode -/

@[simp] theorem andThen_next (s : State) (f : State → Result) : andThen (.next s) f = f s := rfl

theorem andThen_eq_next {r : Result} {f : State → Result} :
    andThen r f = .next t ↔ ∃ s, r = .next s ∧ f s = .next t := by
  cases r <;> simp [andThen]

theorem andThen_assoc (r : Result) (f g : State → Result) :
    andThen (andThen r f) g = andThen r fun s => andThen (f s) g := by cases r <;> rfl

@[simp] theorem andThen_pure (r : Result) : andThen r .next = r := by cases r <;> rfl

theorem readNode_of_some {n : NodeIdx} {r : NodeRec} {f : NodeRec → Result} (h : nodeAt s.node n = some r) :
    readNode n s f = f r := by simp [readNode, h]

theorem readNode_eq_next {n : NodeIdx} {f : NodeRec → Result} :
    readNode n s f = .next t ↔ ∃ r, nodeAt s.node n = some r ∧ f r = .next t := by
  unfold readNode
  cases nodeAt s.node n <;> simp

/-! ### Node indices -/

theorem isInternalIdx_iff {n : NodeIdx} : isInternalIdx n = true ↔ 256 ≤ n.toNat ∧ n.toNat ≤ 510 := by
  rw [isInternalIdx, Bool.and_eq_true, decide_eq_true_iff, decide_eq_true_iff]
  exact Iff.rfl

theorem isNodeIdx_iff {n : NodeIdx} : isNodeIdx n = true ↔ n.toNat ≤ 510 := by
  simp [isNodeIdx, Config.root]

theorem nodeAt_of_internal (node : Vector NodeRec 255) {n : NodeIdx} (h : isInternalIdx n = true) :
    nodeAt node n = some (node[n.toNat - 256]'(by have := isInternalIdx_iff.1 h; omega)) := by
  have h' := isInternalIdx_iff.1 h
  have hn : ¬ n.toNat < Config.firstInternal := by simp [Config.firstInternal]; omega
  have hlt : n.toNat - Config.firstInternal < 255 := by simp [Config.firstInternal]; omega
  rw [nodeAt, if_neg hn, Vector.getElem?_eq_getElem hlt]
  rfl

theorem nodeAt_eq_none_iff (node : Vector NodeRec 255) (n : NodeIdx) :
    nodeAt node n = none ↔ isInternalIdx n = false := by
  cases h : isInternalIdx n with
  | true => simp [nodeAt_of_internal node h]
  | false =>
    have h' : ¬ (256 ≤ n.toNat ∧ n.toNat ≤ 510) := fun hc => by simp [isInternalIdx_iff.2 hc] at h
    unfold nodeAt
    split
    · simp
    · rename_i hn
      simp only [Config.firstInternal] at hn ⊢
      rw [Vector.getElem?_eq_none (by omega)]
      simp

theorem internalIdx_toNat (k : Nat) (h : k < 255) : (BitVec.ofNat 9 (Config.firstInternal + k)).toNat = 256 + k := by
  simp [Config.firstInternal]; omega

end Sys2Proof.Machine
end

