-- ==== Sys2Proof/Laws/Decoder.lean ====
section
/-! SUPPORT. What the decoder's descent does (44_decoder.md R171, R172). -/

namespace Sys2Proof.Machine

theorem landOn_frame (n : NodeIdx) (s : State) : ∃ c o, landOn n s = { s with cursor := c, out := s.out ++ o } ∧ o.length ≤ 1 := by
  unfold landOn
  split
  · exact ⟨Config.root, [n.setWidth 8], rfl, by simp⟩
  · exact ⟨n, [], by simp [State.setCursor], by simp⟩

/-- A descent that completes changes `CURSOR` and `OUT` alone; one byte at most for each bit. -/
theorem decBits_frame {bits : List Bool} {s t : State} (h : decBits bits s = .next t) :
    ∃ c o, t = { s with cursor := c, out := s.out ++ o } ∧ o.length ≤ bits.length := by
  induction bits generalizing s with
  | nil =>
    simp only [decBits, Host.Outcome.next.injEq] at h
    exact ⟨s.cursor, [], by simp [h], by simp⟩
  | cons b bs ih =>
    rw [decBits, andThen_eq_next] at h
    obtain ⟨m, h1, h2⟩ := h
    rw [decBit, readNode_eq_next] at h1
    obtain ⟨r, -, h1⟩ := h1
    simp only [Host.Outcome.next.injEq] at h1
    obtain ⟨c, o, hl, hlen⟩ := landOn_frame (if b then r.child1 else r.child0) s
    obtain ⟨c', o', ht, hlen'⟩ := ih h2
    refine ⟨c', o ++ o', ?_, ?_⟩
    · rw [ht, ← h1, hl]; simp
    · simp; omega

/-- A descent that completes, from any state, has emitted and rests as the reference descent says (R171). -/
theorem decBits_next {bits : List Bool} {s t : State} (h : decBits bits s = .next t) :
    t = { s with cursor := (symbolsOf s.node s.cursor bits).2, out := s.out ++ (symbolsOf s.node s.cursor bits).1 } := by
  induction bits generalizing s with
  | nil =>
    simp only [decBits, Host.Outcome.next.injEq] at h
    simp [symbolsOf, h]
  | cons b bs ih =>
    rw [decBits, andThen_eq_next] at h
    obtain ⟨m, h1, h2⟩ := h
    rw [decBit, readNode_eq_next] at h1
    obtain ⟨r, hn, h1⟩ := h1
    simp only [Host.Outcome.next.injEq] at h1
    rw [ih h2, ← h1]
    simp only [symbolsOf, hn, landOn, isLeafIdx]
    generalize (if b then r.child1 else r.child0) = c
    by_cases hl : c.toNat < Config.firstInternal <;> simp [hl, State.emit, State.setCursor]

/-- A descent stops with no refusal, and with a fault only for an index without a record. -/
theorem decBits_stops {bits : List Bool} {s : State} :
    (∃ t, decBits bits s = .next t) ∨ ∃ n, decBits bits s = .fault (.noSuchNode n) ∧ isInternalIdx n = false := by
  induction bits generalizing s with
  | nil => exact .inl ⟨s, rfl⟩
  | cons b bs ih =>
    rw [decBits, decBit, readNode]
    cases hn : nodeAt s.node s.cursor with
    | none => exact .inr ⟨s.cursor, rfl, (nodeAt_eq_none_iff _ _).1 hn⟩
    | some r => exact ih

/-- Every child of every record is a leaf or an internal node: no descent leaves the tree (R171). -/
def childrenInTree (node : Vector NodeRec 255) : Prop :=
  ∀ n r, nodeAt node n = some r → r.child0.toNat ≤ 510 ∧ r.child1.toNat ≤ 510

/-- In such a tree, from an internal node, the descent emits and rests as R171 says. -/
theorem decBits_eq {bits : List Bool} {s : State} (htree : childrenInTree s.node) (hc : isInternalIdx s.cursor = true) :
    decBits bits s = .next { s with out := s.out ++ (symbolsOf s.node s.cursor bits).1,
                                    cursor := (symbolsOf s.node s.cursor bits).2 } ∧
      isInternalIdx (symbolsOf s.node s.cursor bits).2 = true ∧
      (symbolsOf s.node s.cursor bits).1.length ≤ bits.length := by
  induction bits generalizing s with
  | nil => simp [decBits, symbolsOf, hc]
  | cons b bs ih =>
    have hn := nodeAt_of_internal s.node hc
    have hch := htree _ _ hn
    generalize hr : (s.node[s.cursor.toNat - 256]'(by have := isInternalIdx_iff.1 hc; omega)) = r at hn hch
    have hle : (if b then r.child1 else r.child0).toNat ≤ 510 := by split <;> tauto
    simp only [decBits, decBit, readNode, hn, andThen_next, symbolsOf]
    generalize (if b then r.child1 else r.child0) = c at hle
    unfold landOn isLeafIdx
    by_cases hl : c.toNat < Config.firstInternal
    · simp only [hl, if_true, decide_true]
      obtain ⟨i1, i2, i3⟩ := @ih ((s.emit (c.setWidth 8)).setCursor Config.root) htree
        (show isInternalIdx Config.root = true by decide)
      refine ⟨?_, i2, ?_⟩
      · rw [i1]; simp [State.emit, State.setCursor]
      · simp at i3 ⊢; omega
    · simp only [hl, if_false, decide_false, Bool.false_eq_true]
      have hci : isInternalIdx c = true := isInternalIdx_iff.2 ⟨by simp [Config.firstInternal] at hl; omega, hle⟩
      obtain ⟨i1, i2, i3⟩ := @ih (s.setCursor c) htree hci
      refine ⟨?_, i2, ?_⟩
      · rw [i1]; simp [State.setCursor]
      · simp at i3 ⊢; omega

/-- What the end check can do (R172). -/
theorem endCheck_cases (opc : Byte) (s : State) :
    (s.cursor = Config.root ∧ endCheck opc s = .next { s with decOpen := false }) ∨
    (s.cursor ≠ Config.root ∧
      endCheck opc s = .next { s with cursor := Config.root, decOpen := false, err := 4, errOpc := opc }) := by
  by_cases h : s.cursor = Config.root
  · exact .inl ⟨h, by simp [endCheck, h, State.setDecOpen]⟩
  · exact .inr ⟨h, by simp [endCheck, h, raise, ErrCode.bits, State.setErr, State.setDecOpen, State.setCursor]⟩

end Sys2Proof.Machine
end

