-- ==== Sys2Proof/Laws/Encoder.lean ====
section
/-! SUPPORT. What the encoder's loop does (43_encoder.md R150), as numbers: bytes low first, bits low first. -/

namespace Sys2Proof.Machine

/-- The number a list of bytes holds, first byte least significant. -/
def leValue : List Byte → Nat
  | [] => 0
  | b :: bs => b.toNat + 256 * leValue bs

/-- Bit `k` of the number is bit `k mod 8` of byte `k / 8`. -/
theorem testBit_leValue (l : List Byte) (k : Nat) :
    (leValue l).testBit k = (l.getD (k / 8) 0).getLsbD (k % 8) := by
  induction l generalizing k with
  | nil => simp [leValue]
  | cons b bs ih =>
    have hb := b.isLt
    rw [leValue, show (256 : Nat) = 2 ^ 8 from rfl, Nat.add_comm, Nat.testBit_two_pow_mul_add _ hb]
    by_cases hk : k < 8
    · rw [if_pos hk, show k / 8 = 0 by omega, show k % 8 = k by omega]
      rfl
    · rw [if_neg hk, ih, show k / 8 = (k - 8) / 8 + 1 by omega, show k % 8 = (k - 8) % 8 by omega]
      rfl

theorem leValue_append (l m : List Byte) : leValue (l ++ m) = leValue l + 2 ^ (8 * l.length) * leValue m := by
  induction l with
  | nil => simp [leValue]
  | cons b bs ih =>
    rw [List.cons_append, leValue, ih, leValue, List.length_cons, Nat.mul_add 8, Nat.pow_add]
    ring

theorem setBit_toNat_of_clean {v : Byte} {i : BitVec 3} (h : v.toNat < 2 ^ i.toNat) (b : Bool) :
    (setBit v i b).toNat = v.toNat + 2 ^ i.toNat * b.toNat := by
  revert v i b
  decide +kernel

/-! ### The frame, from any state -/

theorem appendBit_full {s : State} (h : s.bitpos = 7) (b : Bool) :
    appendBit s b = { s with acc := 0, bitpos := 0, out := s.out ++ [setBit s.acc s.bitpos b] } := by
  unfold appendBit
  exact if_pos h

theorem appendBit_partial {s : State} (h : s.bitpos ≠ 7) (b : Bool) :
    appendBit s b = { s with acc := setBit s.acc s.bitpos b, bitpos := s.bitpos + 1 } := by
  unfold appendBit
  exact if_neg h

theorem appendBit_frame (s : State) (b : Bool) : ∃ a p o, appendBit s b = { s with acc := a, bitpos := p, out := s.out ++ o } ∧
    p.toNat = (s.bitpos.toNat + 1) % 8 ∧ o.length = (s.bitpos.toNat + 1) / 8 := by
  by_cases h : s.bitpos = 7
  · refine ⟨0, 0, [setBit s.acc s.bitpos b], appendBit_full h b, ?_, ?_⟩
    · rw [h]; rfl
    · rw [h]; rfl
  · have hlt := s.bitpos.isLt
    have hne : s.bitpos.toNat ≠ 7 := fun hc => h (BitVec.eq_of_toNat_eq hc)
    refine ⟨setBit s.acc s.bitpos b, s.bitpos + 1, [], by simp [appendBit_partial h], ?_, ?_⟩
    · rw [BitVec.toNat_add]; rfl
    · simp; omega

/-- The encoder's loop changes `ACC`, `BITPOS` and `OUT` alone, and by how much `BITPOS` and `OUT` (R150). -/
theorem appendBits_frame (s : State) (bs : List Bool) :
    ∃ a p o, appendBits s bs = { s with acc := a, bitpos := p, out := s.out ++ o } ∧
      p.toNat = (s.bitpos.toNat + bs.length) % 8 ∧ o.length = (s.bitpos.toNat + bs.length) / 8 := by
  induction bs generalizing s with
  | nil =>
    have := s.bitpos.isLt
    exact ⟨s.acc, s.bitpos, [], by simp [appendBits], by simp; omega, by simp; omega⟩
  | cons b bs ih =>
    obtain ⟨a, p, o, h1, h2, h3⟩ := appendBit_frame s b
    obtain ⟨a', p', o', h1', h2', h3'⟩ := ih (appendBit s b)
    refine ⟨a', p', o ++ o', ?_, ?_, ?_⟩
    · rw [appendBits, List.foldl_cons]
      rw [appendBits] at h1'
      rw [h1', h1]
      simp
    · rw [h2', h1, List.length_cons]; simp only []; omega
    · rw [List.length_append, h3, h3', h1, List.length_cons]; simp only []; omega

/-! ### The bits, from a state whose `ACC` is clean (10_state.md R26) -/

theorem appendBits_value (s : State) (bs : List Bool) (h : s.acc.toNat < 2 ^ s.bitpos.toNat) :
    ∃ a p o, appendBits s bs = { s with acc := a, bitpos := p, out := s.out ++ o } ∧
      p.toNat = (s.bitpos.toNat + bs.length) % 8 ∧ o.length = (s.bitpos.toNat + bs.length) / 8 ∧
      a.toNat < 2 ^ p.toNat ∧ leValue (o ++ [a]) = s.acc.toNat + 2 ^ s.bitpos.toNat * bitsToNat bs := by
  induction bs generalizing s with
  | nil =>
    have := s.bitpos.isLt
    exact ⟨s.acc, s.bitpos, [], by simp [appendBits], by simp; omega, by simp; omega, h, by simp [leValue, bitsToNat]⟩
  | cons b bs ih =>
    have hset := setBit_toNat_of_clean h b
    have hb : b.toNat ≤ 1 := by cases b <;> simp
    have hlt := s.bitpos.isLt
    by_cases h7 : s.bitpos = 7
    · have e := appendBit_full h7 b
      obtain ⟨a, p, o, h1, h2, h3, h4, h5⟩ := ih (appendBit s b) (by rw [e]; exact Nat.one_pos)
      rw [e] at h1 h2 h3 h5
      have h7' : s.bitpos.toNat = 7 := by rw [h7]; rfl
      refine ⟨a, p, setBit s.acc s.bitpos b :: o, ?_, ?_, ?_, h4, ?_⟩
      · rw [appendBits, List.foldl_cons, e]
        rw [appendBits] at h1
        rw [h1]
        simp
      · rw [h2, List.length_cons, h7']; simp; omega
      · rw [List.length_cons, h3, List.length_cons, h7']; simp; omega
      · rw [List.cons_append, leValue, h5, hset, bitsToNat, h7']
        simp; ring
    · have e := appendBit_partial h7 b
      have hne : s.bitpos.toNat ≠ 7 := fun hc => h7 (BitVec.eq_of_toNat_eq hc)
      have hp : (s.bitpos + 1).toNat = s.bitpos.toNat + 1 := by
        rw [BitVec.toNat_add]; simp; omega
      have hclean : (setBit s.acc s.bitpos b).toNat < 2 ^ (s.bitpos + 1).toNat := by
        rw [hset, hp, Nat.pow_succ]
        nlinarith [Nat.two_pow_pos s.bitpos.toNat]
      obtain ⟨a, p, o, h1, h2, h3, h4, h5⟩ := ih (appendBit s b) (by rw [e]; exact hclean)
      rw [e] at h1 h2 h3 h5
      simp only [hp] at h2 h3 h5
      refine ⟨a, p, o, ?_, ?_, ?_, h4, ?_⟩
      · rw [appendBits, List.foldl_cons, e]
        rw [appendBits] at h1
        rw [h1]
      · rw [h2, List.length_cons]; congr 1; omega
      · rw [h3, List.length_cons]; congr 1; omega
      · rw [h5, hset, bitsToNat, Nat.pow_succ]; ring

end Sys2Proof.Machine
end

