-- ==== Sys2Proof/Laws/Exec.lean ====
section
/-! SUPPORT. What a command can do, said once: its checks in order, and the states its effect can leave. -/

namespace Sys2Proof.Machine

/-- The checks of a command after the sticky gate (60_exceptions.md R203). -/
def checksOf (s : State) : Instr → List (Bool × ErrCode)
  | .nop => []
  | .clear => []
  | .wfreq _ _ => [s.streamCheck]
  | .rfreq _ => []
  | .build => [s.streamCheck, (!allLegal s.freq, .corruptHeader)]
  | .rclen _ => [s.treeCheck]
  | .rcode _ _ => [s.treeCheck]
  | .rnode n => [(!isInternalIdx n, .illegalCmd), s.treeCheck]
  | .rwgt n => [(!isNodeIdx n, .illegalCmd), s.treeCheck]
  | .enc _ => [s.treeCheck]
  | .eflush => []
  | .setpad p => [(Config.padMax.ult p, .corruptHeader)]
  | .dec _ => [s.treeCheck]
  | .declast _ => [s.treeCheck]
  | .decend => [s.treeCheck]

/-- The effect of a command that passes its checks. -/
def effectOf (s : State) : Instr → Result
  | .nop => .next s
  | .clear => .next s.resetRegs
  | .wfreq i v => .next ((s.setFreq i v).setTreeValid false)
  | .rfreq i => .next (s.respond (s.freqAt i))
  | .build => .next s.builtTree
  | .rclen b => .next (s.respond ((s.clenAt b).setWidth 32))
  | .rcode b k => .next (s.respond (s.codeChunk b k))
  | .rnode n => readNode n s fun r => .next (s.respond (nodeResponse r))
  | .rwgt n =>
    if n.toNat < Config.firstInternal then .next (s.respond (s.freqAt (n.setWidth 8)))
    else readNode n s fun r => .next (s.respond r.w)
  | .enc b => .next ((appendBits s (s.codeBitsOf b)).setEncOpen true)
  | .eflush => .next (flushed s)
  | .setpad p => .next (s.setPadIn (p.setWidth 3))
  | .dec x => andThen (decBits (byteBits x) s) fun t => .next (t.setDecOpen true)
  | .declast x => andThen (decBits (s.lastBits x) s) (endCheck 0x32)
  | .decend => endCheck 0x33 s

/-- Every command but CLEAR is its checks and its effect behind the sticky gate. -/
theorem exec_eq_execute {i : Instr} (hi : i ≠ .clear) (s : State) :
    exec i s = execute i.opcode (checksOf s i) s (effectOf s i) := by
  cases i with
  | nop =>
    show Host.Outcome.next s = execute _ [] s (.next s)
    by_cases h : s.err = 0
    · rw [execute_of_passes h rfl]
    · rw [execute_of_sticky h]
  | clear => exact absurd rfl hi
  | _ => rfl

theorem exec_clear (s : State) : exec .clear s = .next s.resetRegs := rfl

/-- What a command can do: CLEAR resets; any other is ignored in the sticky state, or raises its first failing
check, or has its effect. -/
theorem exec_cases (i : Instr) (s : State) :
    (i = .clear ∧ exec i s = .next s.resetRegs) ∨
    (i ≠ .clear ∧ s.err ≠ 0 ∧ exec i s = .next s) ∨
    (i ≠ .clear ∧ s.err = 0 ∧ ∃ c, firstError (checksOf s i) = some c ∧ exec i s = .next (s.setErr c.bits i.opcode)) ∨
    (i ≠ .clear ∧ s.err = 0 ∧ firstError (checksOf s i) = none ∧ exec i s = effectOf s i) := by
  by_cases hi : i = .clear
  · subst hi; exact .inl ⟨rfl, rfl⟩
  · rw [exec_eq_execute hi]
    rcases execute_cases i.opcode (checksOf s i) s (effectOf s i) with h | h | h
    · exact .inr (.inl ⟨hi, h⟩)
    · exact .inr (.inr (.inl ⟨hi, h⟩))
    · exact .inr (.inr (.inr ⟨hi, h⟩))

/-- The states an effect can leave, command by command. -/
def effectFrame (s t : State) : Instr → Prop
  | .nop => t = s
  | .clear => t = s.resetRegs
  | .wfreq i v => t = { s with freq := s.freq.set i.toNat v i.isLt, treeValid := false }
  | .rfreq i => t = { s with resp := s.freqAt i }
  | .build => t = s.builtTree
  | .rclen b => t = { s with resp := (s.clenAt b).setWidth 32 }
  | .rcode b k => t = { s with resp := s.codeChunk b k }
  | .rnode _ => ∃ v, t = { s with resp := v }
  | .rwgt _ => ∃ v, t = { s with resp := v }
  | .enc b => ∃ a p o, t = { s with acc := a, bitpos := p, out := s.out ++ o, encOpen := true } ∧
      o.length = (s.bitpos.toNat + (s.clenAt b).toNat) / 8
  | .eflush => ∃ p o, t = { s with acc := 0, bitpos := 0, padOut := p, out := s.out ++ o, encOpen := false } ∧ o.length ≤ 1
  | .setpad p => t = { s with padIn := p.setWidth 3 }
  | .dec _ => ∃ c o, t = { s with cursor := c, out := s.out ++ o, decOpen := true } ∧ o.length ≤ 8
  | .declast _ => ∃ o, o.length ≤ 8 ∧
      (t = { s with cursor := Config.root, out := s.out ++ o, decOpen := false } ∨
       t = { s with cursor := Config.root, out := s.out ++ o, decOpen := false, err := 4, errOpc := 0x32 })
  | .decend => (s.cursor = Config.root ∧ t = { s with decOpen := false }) ∨
      (s.cursor ≠ Config.root ∧
        t = { s with cursor := Config.root, decOpen := false, err := 4, errOpc := 0x33 })

theorem length_codeBitsOf (s : State) (b : Byte) : (s.codeBitsOf b).length = (s.clenAt b).toNat := by
  simp [State.codeBitsOf]

theorem length_byteBits (x : Byte) : (byteBits x).length = 8 := by simp [byteBits]

theorem flushed_eq (s : State) : flushed s =
    { s with acc := 0, bitpos := 0, encOpen := false,
             padOut := if s.bitpos = 0 then 0 else BitVec.ofNat 3 (8 - s.bitpos.toNat),
             out := if s.bitpos = 0 then s.out else s.out ++ [s.acc] } := by
  unfold flushed
  by_cases h : s.bitpos = 0
  · simp only [if_pos h]; rfl
  · simp only [if_neg h]; rfl

theorem builtTree_eq (s : State) : s.builtTree =
    { s with treeValid := true, cursor := Config.root, node := buildNodes s.freq,
             clen := deriveClen (buildNodes s.freq), code := deriveCode (buildNodes s.freq) } := by
  simp only [State.builtTree, State.setTables, State.setTreeValid, State.setCursor]

/-- An effect that completes leaves a state of the command's frame. -/
theorem effectOf_frame {i : Instr} {s t : State} (h : effectOf s i = .next t) : effectFrame s t i := by
  cases i with
  | rnode n =>
    simp only [effectOf, readNode_eq_next, Host.Outcome.next.injEq] at h
    obtain ⟨r, -, rfl⟩ := h
    exact ⟨_, rfl⟩
  | rwgt n =>
    simp only [effectOf] at h
    split at h
    · simp only [Host.Outcome.next.injEq] at h
      exact ⟨_, h.symm⟩
    · simp only [readNode_eq_next, Host.Outcome.next.injEq] at h
      obtain ⟨r, -, rfl⟩ := h
      exact ⟨_, rfl⟩
  | enc b =>
    simp only [effectOf, Host.Outcome.next.injEq] at h
    obtain ⟨a, p, o, h1, -, h3⟩ := appendBits_frame s (s.codeBitsOf b)
    rw [length_codeBitsOf] at h3
    exact ⟨a, p, o, by rw [← h, h1]; rfl, h3⟩
  | eflush =>
    simp only [effectOf, Host.Outcome.next.injEq] at h
    subst h
    rw [flushed_eq]
    by_cases hb : s.bitpos = 0
    · exact ⟨0, [], by simp [hb], by simp⟩
    · exact ⟨BitVec.ofNat 3 (8 - s.bitpos.toNat), [s.acc], by simp only [if_neg hb], by simp⟩
  | dec x =>
    simp only [effectOf, andThen_eq_next, Host.Outcome.next.injEq] at h
    obtain ⟨m, h1, rfl⟩ := h
    obtain ⟨c, o, rfl, hlen⟩ := decBits_frame h1
    exact ⟨c, o, rfl, by rw [length_byteBits] at hlen; exact hlen⟩
  | declast x =>
    simp only [effectOf, andThen_eq_next] at h
    obtain ⟨m, h1, h2⟩ := h
    obtain ⟨c, o, rfl, hlen⟩ := decBits_frame h1
    refine ⟨o, le_trans hlen (by simp [State.lastBits, length_byteBits]), ?_⟩
    rcases endCheck_cases 0x32 { s with cursor := c, out := s.out ++ o } with ⟨hc, he⟩ | ⟨-, he⟩
    · simp only at hc
      subst hc
      simp only [he, Host.Outcome.next.injEq] at h2
      exact .inl h2.symm
    · simp only [he, Host.Outcome.next.injEq] at h2
      exact .inr h2.symm
  | decend =>
    simp only [effectOf] at h
    rcases endCheck_cases 0x33 s with ⟨hc, he⟩ | ⟨hc, he⟩
    · simp only [he, Host.Outcome.next.injEq] at h
      exact .inl ⟨hc, h.symm⟩
    · simp only [he, Host.Outcome.next.injEq] at h
      exact .inr ⟨hc, h.symm⟩
  | _ =>
    simp only [effectOf, Host.Outcome.next.injEq] at h
    exact h.symm

/-- What a command that answers a next state has done: the four cases of `exec_cases` with its frame. -/
theorem exec_next_cases {i : Instr} {s t : State} (h : exec i s = .next t) :
    (i = .clear ∧ t = s.resetRegs) ∨ (i ≠ .clear ∧ s.err ≠ 0 ∧ t = s) ∨
    (i ≠ .clear ∧ s.err = 0 ∧ ∃ c, firstError (checksOf s i) = some c ∧ t = s.setErr c.bits i.opcode) ∨
    (i ≠ .clear ∧ s.err = 0 ∧ firstError (checksOf s i) = none ∧ effectFrame s t i) := by
  rcases exec_cases i s with ⟨h1, h2⟩ | ⟨h1, h2, h3⟩ | ⟨h1, h2, c, h3, h4⟩ | ⟨h1, h2, h3, h4⟩
  · rw [h] at h2; cases h2; exact .inl ⟨h1, rfl⟩
  · rw [h] at h3; cases h3; exact .inr (.inl ⟨h1, h2, rfl⟩)
  · rw [h] at h4; cases h4; exact .inr (.inr (.inl ⟨h1, h2, c, h3, rfl⟩))
  · rw [h] at h4; exact .inr (.inr (.inr ⟨h1, h2, h3, effectOf_frame h4.symm⟩))

/-! ### The step -/

theorem step_of_empty {s : State} (h : s.port = []) : step s = .next s := by
  simp [step, takeInput, h, idle]

theorem step_of_reset {s : State} {ps : List HostInput} (h : s.port = .reset :: ps) :
    step s = .next { State.reset with out := s.out, port := ps } := by
  simp only [step, takeInput, h]
  rfl

theorem step_of_ok {s : State} {w : CmdWord} {ps : List HostInput} {i : Instr} (h : s.port = .command w :: ps)
    (hd : decode w = .ok i) : step s = exec i { s with port := ps } := by
  simp only [step, takeInput, h, hd]
  rfl

theorem step_of_illegal {s : State} {w : CmdWord} {ps : List HostInput} {e : Illegal}
    (h : s.port = .command w :: ps) (hd : decode w = .error e) :
    step s = rejectWord (opcField w) { s with port := ps } := by
  simp only [step, takeInput, h, hd]
  rfl

end Sys2Proof.Machine
end

