-- ==== Sys2Proof/Laws/Tree.lean ====
section
/-! SUPPORT. The tree builder: the order of its queue, and what a run of merges makes (42_tree_builder.md R120 to R122). -/

namespace Sys2Proof.Machine

/-! ### key_lt -/

/-- `key_lt` in numbers. -/
theorem keyLt_iff (x y : Entry) : keyLt x y = true ↔ isNan x.w = false ∧ isNan y.w = false ∧
    (orderKey x.w < orderKey y.w ∨ (orderKey x.w = orderKey y.w ∧ x.rep.toNat < y.rep.toNat)) := by
  simp only [keyLt, f32Lt, f32Eq]
  cases isNan x.w <;> cases isNan y.w <;> simp

theorem not_isNan_of_legal {w : Word} (h : legalWeight w = true) : isNan w = false := by
  simp only [legalWeight, Bool.and_eq_true, Bool.not_eq_true'] at h
  exact h.1

theorem keyLt_irrefl (x : Entry) : keyLt x x = false := by
  by_contra hc
  have := (keyLt_iff x x).1 (by simpa using hc)
  omega

theorem keyLt_trans {x y z : Entry} (h1 : keyLt x y = true) (h2 : keyLt y z = true) : keyLt x z = true := by
  rw [keyLt_iff] at *
  exact ⟨h1.1, h2.2.1, by omega⟩

theorem keyLt_asymm {x y : Entry} (h : keyLt x y = true) : keyLt y x = false := by
  by_contra hc
  have := keyLt_trans h (by simpa using hc)
  rw [keyLt_irrefl] at this
  exact Bool.noConfusion this

theorem keyLt_total {x y : Entry} (hx : legalWeight x.w = true) (hy : legalWeight y.w = true) (h : x.rep ≠ y.rep) :
    keyLt x y = true ∨ keyLt y x = true := by
  have hr : x.rep.toNat ≠ y.rep.toNat := fun hc => h (BitVec.eq_of_toNat_eq hc)
  simp only [keyLt_iff, not_isNan_of_legal hx, not_isNan_of_legal hy, true_and]
  omega

/-! ### A working set: legal weights, no rep twice -/

/-- What BUILD's working set always is (42_tree_builder.md R120, 00_scope.md R13). -/
def WorkingSet (es : List Entry) : Prop := (∀ e ∈ es, legalWeight e.w = true) ∧ es.Pairwise fun x y => x.rep ≠ y.rep

theorem WorkingSet.perm {es fs : List Entry} (p : es.Perm fs) (h : WorkingSet es) : WorkingSet fs :=
  ⟨fun e he => h.1 e (p.mem_iff.2 he), (p.pairwise_iff fun hxy => Ne.symm hxy).1 h.2⟩

theorem WorkingSet.tail {e : Entry} {es : List Entry} (h : WorkingSet (e :: es)) : WorkingSet es :=
  ⟨fun x hx => h.1 x (List.mem_cons_of_mem _ hx), h.2.of_cons⟩

theorem WorkingSet.head_total {e x : Entry} {es : List Entry} (h : WorkingSet (e :: es)) (hx : x ∈ es) :
    keyLt e x = true ∨ keyLt x e = true :=
  keyLt_total (h.1 e (by simp)) (h.1 x (List.mem_cons_of_mem _ hx)) ((List.pairwise_cons.1 h.2).1 x hx)

theorem mergeRec_rep (a b : Entry) : (mergeRec a b).rep = a.rep ∨ (mergeRec a b).rep = b.rep := by
  unfold mergeRec
  split
  · exact .inl rfl
  · exact .inr rfl

theorem mergeRec_w (a b : Entry) : (mergeRec a b).w = f32Add a.w b.w := by
  unfold mergeRec
  split <;> rfl

/-- A merge leaves a working set. -/
theorem WorkingSet.merge {a b : Entry} {es : List Entry} (k : Nat) (h : WorkingSet (a :: b :: es)) :
    WorkingSet (mergeEntry k a b :: es) := by
  obtain ⟨h1, h2⟩ := h
  rw [List.pairwise_cons] at h2
  obtain ⟨ha, h2⟩ := h2
  rw [List.pairwise_cons] at h2
  obtain ⟨hb, h2⟩ := h2
  refine ⟨?_, List.pairwise_cons.2 ⟨?_, h2⟩⟩
  · intro e he
    rcases List.mem_cons.1 he with rfl | he
    · simp only [mergeEntry, mergeRec_w]
      exact legal_f32Add (h1 a (by simp)) (h1 b (by simp))
    · exact h1 e (by simp [he])
  · intro x hx
    simp only [mergeEntry]
    rcases mergeRec_rep a b with h | h <;> rw [h]
    · exact ha x (by simp [hx])
    · exact hb x hx

/-! ### The queue -/

theorem enqueue_perm (e : Entry) (es : List Entry) : (enqueue e es).Perm (e :: es) := by
  induction es with
  | nil => exact List.Perm.refl _
  | cons x xs ih =>
    rw [enqueue]
    split
    · exact List.Perm.refl _
    · exact (ih.cons x).trans (List.Perm.swap e x xs)

/-- A queue in `key_lt` order. -/
def Ordered (es : List Entry) : Prop := es.Pairwise fun x y => keyLt x y = true

theorem enqueue_ordered {e : Entry} {es : List Entry} (hw : WorkingSet (e :: es)) (h : Ordered es) :
    Ordered (enqueue e es) := by
  induction es with
  | nil => exact List.pairwise_singleton _ _
  | cons x xs ih =>
    obtain ⟨hx, hxs⟩ := List.pairwise_cons.1 h
    rw [enqueue]
    split
    · rename_i hl
      refine List.pairwise_cons.2 ⟨?_, h⟩
      intro y hy
      rcases List.mem_cons.1 hy with rfl | hy
      · exact hl
      · exact keyLt_trans hl (hx y hy)
    · rename_i hl
      have hxe : keyLt x e = true := (hw.head_total (List.mem_cons_self ..)).resolve_left hl
      refine List.pairwise_cons.2 ⟨?_, ih (hw.perm (List.Perm.swap x e xs)).tail hxs⟩
      intro y hy
      rcases List.mem_cons.1 ((enqueue_perm e xs).mem_iff.1 hy) with rfl | hy
      · exact hxe
      · exact hx y hy

theorem foldr_enqueue_perm (es : List Entry) : (es.foldr enqueue []).Perm es := by
  induction es with
  | nil => exact List.Perm.refl _
  | cons x xs ih => exact (enqueue_perm _ _).trans (ih.cons x)

theorem foldr_enqueue_ordered {es : List Entry} (h : WorkingSet es) : Ordered (es.foldr enqueue []) := by
  induction es with
  | nil => exact List.Pairwise.nil
  | cons x xs ih => exact enqueue_ordered (h.perm ((foldr_enqueue_perm xs).symm.cons x)) (ih h.tail)

/-! ### The least entry -/

theorem takeLeast_perm (e : Entry) (es : List Entry) : ((takeLeast e es).1 :: (takeLeast e es).2).Perm (e :: es) := by
  induction es generalizing e with
  | nil => exact List.Perm.refl _
  | cons x xs ih =>
    rw [takeLeast]
    split
    · exact (List.Perm.swap _ _ _).trans ((ih x).cons e)
    · exact (List.Perm.swap _ _ _).trans (((ih e).cons x).trans (List.Perm.swap e x xs))

theorem takeLeast_least {e : Entry} {es : List Entry} (h : WorkingSet (e :: es)) :
    ∀ x ∈ (takeLeast e es).2, keyLt (takeLeast e es).1 x = true := by
  induction es generalizing e with
  | nil => simp [takeLeast]
  | cons y ys ih =>
    rw [takeLeast]
    split
    · rename_i hl
      intro x hx
      have hmin := ih h.tail
      rcases List.mem_cons.1 hx with rfl | hx
      · rcases List.mem_cons.1 ((takeLeast_perm y ys).mem_iff.1 (List.mem_cons_self ..)) with he | he
        · rw [he]; exact hl
        · rcases List.mem_cons.1 ((takeLeast_perm y ys).mem_iff.2 (List.mem_cons_self ..)) with hy | hy
          · rw [← hy]; exact hl
          · exact keyLt_trans (hmin y hy) hl
      · exact hmin x hx
    · rename_i hl
      intro x hx
      have hmin := ih (h.perm (List.Perm.swap y e ys)).tail
      rcases List.mem_cons.1 hx with rfl | hx
      · have hex : keyLt e x = true := (h.head_total (List.mem_cons_self ..)).resolve_right (by simpa using hl)
        rcases List.mem_cons.1 ((takeLeast_perm e ys).mem_iff.2 (List.mem_cons_self ..)) with hy | hy
        · rw [← hy]; exact hex
        · exact keyLt_trans (hmin e hy) hex
      · exact hmin x hx

/-- In a working set the least entry is the head of the queue. -/
theorem takeLeast_eq_head {e a : Entry} {es q : List Entry} (h : WorkingSet (e :: es)) (p : (a :: q).Perm (e :: es))
    (ho : Ordered (a :: q)) : (takeLeast e es).1 = a ∧ q.Perm (takeLeast e es).2 := by
  have hp := p.trans (takeLeast_perm e es).symm
  have hq := (List.pairwise_cons.1 ho).1
  have hm := takeLeast_least h
  have he : (takeLeast e es).1 = a := by
    rcases List.mem_cons.1 (hp.mem_iff.1 (List.mem_cons_self ..)) with h1 | h1
    · exact h1.symm
    · rcases List.mem_cons.1 (hp.mem_iff.2 (List.mem_cons_self ..)) with h2 | h2
      · exact h2
      · have := keyLt_asymm (hm a h1)
        rw [hq _ h2] at this
        exact Bool.noConfusion this
  rw [he] at hp
  exact ⟨he, hp.cons_inv⟩

/-! ### merges: the length, the entries used -/

theorem length_enqueue (e : Entry) (es : List Entry) : (enqueue e es).length = es.length + 1 :=
  (enqueue_perm e es).length_eq

theorem length_merges (m k : Nat) (es : List Entry) (h : m < es.length) : (merges m k es).length = m := by
  induction m generalizing k es with
  | zero => simp [merges]
  | succ m ih =>
    match es, h with
    | a :: b :: rest, h =>
      simp only [List.length_cons] at h
      rw [merges, List.length_cons, ih _ _ (by rw [length_enqueue]; omega)]

/-! ### The node indices of a merge run -/

/-- Both children of each record, in order. -/
def childrenOf (recs : List NodeRec) : List NodeIdx := recs.flatMap fun r => [r.child0, r.child1]

theorem mergeRec_children (a b : Entry) : [(mergeRec a b).child0, (mergeRec a b).child1].Perm [a.node, b.node] := by
  unfold mergeRec
  split
  · exact List.Perm.refl _
  · exact List.Perm.swap _ _ _

/-- Every starting node and every merged node but the last is a child exactly once. -/
theorem childrenOf_merges (m k : Nat) (es : List Entry) (h : es.length = m + 2) :
    (childrenOf (merges (m + 1) k es)).Perm (es.map Entry.node ++ (List.range m).map fun j => internalIdx (k + j)) := by
  induction m generalizing k es with
  | zero =>
    match es, h with
    | [a, b], _ => simpa [merges, childrenOf] using mergeRec_children a b
  | succ m ih =>
    match es, h with
    | a :: b :: rest, h =>
      simp only [List.length_cons] at h
      have hl : (enqueue (mergeEntry k a b) rest).length = m + 2 := by rw [length_enqueue]; omega
      have hr : (List.range (m + 1)).map (fun j => internalIdx (k + j)) =
          (mergeEntry k a b).node :: (List.range m).map fun j => internalIdx (k + 1 + j) := by
        rw [List.range_succ_eq_map, List.map_cons, List.map_map]
        refine congrArg₂ _ rfl (List.map_congr_left fun j _ => ?_)
        simp only [Function.comp_apply, Nat.succ_eq_add_one]
        rw [show k + (j + 1) = k + 1 + j by omega]
      have := ih (k + 1) _ hl
      rw [merges, childrenOf, List.flatMap_cons, hr]
      refine ((mergeRec_children a b).append (this.trans (((enqueue_perm _ rest).map Entry.node).append_right _))).trans ?_
      simp only [List.map_cons, List.cons_append, List.nil_append]
      exact List.Perm.cons _ (List.Perm.cons _ List.perm_middle.symm)

theorem toNat_internalIdx {k : Nat} (h : k < 256) : (internalIdx k).toNat = 256 + k := by
  simp [internalIdx, Config.firstInternal]
  omega

theorem getElem?_merges_succ (m k j : Nat) (a b : Entry) (rest : List Entry) :
    (merges (m + 1) k (a :: b :: rest))[j + 1]? = (merges m (k + 1) (enqueue (mergeEntry k a b) rest))[j]? := by
  rw [merges, List.getElem?_cons_succ]

theorem mem_pair_children (a b : Entry) (n : NodeIdx) :
    n = (mergeRec a b).child0 ∨ n = (mergeRec a b).child1 → n = a.node ∨ n = b.node := by
  unfold mergeRec
  split <;> simp only [] <;> tauto

/-- A property of starting nodes that every merge passes on holds of every record: the induction over merges. -/
theorem merges_induction {P : Nat → Entry → Prop} {Q : Nat → NodeRec → Prop}
    (hstep : ∀ k a b, P k a → P k b → Q k (mergeRec a b) ∧ P (k + 1) (mergeEntry k a b)) (hmono : ∀ k e, P k e → P (k + 1) e)
    {m k : Nat} {es : List Entry} (h : ∀ e ∈ es, P k e) :
    ∀ j r, (merges m k es)[j]? = some r → Q (k + j) r := by
  induction m generalizing k es with
  | zero => simp [merges]
  | succ m ih =>
    intro j r
    match es, h with
    | [], _ => simp [merges]
    | [a], _ => simp [merges]
    | a :: b :: rest, h =>
      obtain ⟨hq, hp⟩ := hstep k a b (h a (by simp)) (h b (by simp))
      cases j with
      | zero =>
        intro hr
        rw [merges, List.getElem?_cons_zero, Option.some.injEq] at hr
        exact hr ▸ hq
      | succ j =>
        intro hr
        rw [getElem?_merges_succ] at hr
        have := ih (k := k + 1) (es := enqueue (mergeEntry k a b) rest) (fun e he => by
          rcases List.mem_cons.1 ((enqueue_perm _ _).mem_iff.1 he) with rfl | he
          · exact hp
          · exact hmono k e (h e (by simp [he]))) j r hr
        rwa [show k + 1 + j = k + (j + 1) by omega] at this

theorem length_merges_le (m k : Nat) (es : List Entry) : (merges m k es).length ≤ m := by
  induction m generalizing k es with
  | zero => simp [merges]
  | succ m ih =>
    match es with
    | [] => simp [merges]
    | [a] => simp [merges]
    | a :: b :: rest => rw [merges, List.length_cons]; have := ih (k + 1) (enqueue (mergeEntry k a b) rest); omega

/-- A child has a smaller index than its parent (42_tree_builder.md R122). -/
theorem merges_children_lt {m k : Nat} {es : List Entry} (hk : k + m ≤ 256) (h : ∀ e ∈ es, e.node.toNat < 256 + k) :
    ∀ j r, (merges m k es)[j]? = some r → r.child0.toNat < 256 + (k + j) ∧ r.child1.toNat < 256 + (k + j) := by
  have hlen : ∀ j r, (merges m k es)[j]? = some r → j < m := fun j r hr => by
    have := (List.getElem?_eq_some_iff.1 hr).1
    have := length_merges_le m k es
    omega
  intro j r hr
  have := merges_induction (P := fun k e => k < 256 → e.node.toNat < 256 + k)
    (Q := fun k r => k < 256 → r.child0.toNat < 256 + k ∧ r.child1.toNat < 256 + k) (m := m) (k := k) (es := es) ?_ ?_ ?_ j r hr
  · exact this (by have := hlen j r hr; omega)
  · intro k a b ha hb
    refine ⟨fun hk => ?_, fun hk => ?_⟩
    · have h0 := mem_pair_children a b _ (.inl rfl)
      have h1 := mem_pair_children a b _ (.inr rfl)
      have := ha hk; have := hb hk
      constructor
      · rcases h0 with h | h <;> rw [h] <;> assumption
      · rcases h1 with h | h <;> rw [h] <;> assumption
    · simp only [mergeEntry]
      rw [toNat_internalIdx (by omega)]
      omega
  · intro k e he hk
    have := he (by omega)
    omega
  · intro e he _
    exact h e he

/-! ### Below a node -/

theorem nodeAt_leafIdx (node : Vector NodeRec 255) (b : Byte) : nodeAt node (leafIdx b) = none := by
  have := b.isLt
  simp [nodeAt, leafIdx, Config.firstInternal]
  omega

theorem leafIdx_injective {b c : Byte} (h : leafIdx b = leafIdx c) : b = c := by
  have := congrArg BitVec.toNat h
  have h1 := b.isLt; have h2 := c.isLt
  apply BitVec.eq_of_toNat_eq
  simp [leafIdx] at this
  omega

/-- Only a leaf itself is below it. -/
theorem isBelow_leafIdx (node : Vector NodeRec 255) (b c : Byte) : isBelow node (leafIdx b) c ↔ c = b := by
  constructor
  · rintro ⟨bits, h⟩
    cases bits with
    | nil => simp only [descend, Option.some.injEq] at h; exact (leafIdx_injective h).symm
    | cons x xs => simp [descend, nodeAt_leafIdx] at h
  · rintro rfl
    exact ⟨[], rfl⟩

/-- Below an internal node is what is below a child. -/
theorem isBelow_of_nodeAt {node : Vector NodeRec 255} {n : NodeIdx} {r : NodeRec} (h : nodeAt node n = some r) (c : Byte) :
    isBelow node n c ↔ isBelow node r.child0 c ∨ isBelow node r.child1 c := by
  constructor
  · rintro ⟨bits, hb⟩
    cases bits with
    | nil =>
      simp only [descend, Option.some.injEq] at hb
      rw [hb, nodeAt_leafIdx] at h
      exact absurd h (by simp)
    | cons x xs =>
      simp only [descend, h] at hb
      cases x
      · exact .inl ⟨xs, by simpa using hb⟩
      · exact .inr ⟨xs, by simpa using hb⟩
  · rintro (⟨bits, hb⟩ | ⟨bits, hb⟩)
    · exact ⟨false :: bits, by simp [descend, h, hb]⟩
    · exact ⟨true :: bits, by simp [descend, h, hb]⟩

/-- The least byte below a node (00_scope.md R14: the representative byte value). -/
def LeastBelow (node : Vector NodeRec 255) (n : NodeIdx) (b : Byte) : Prop :=
  isBelow node n b ∧ ∀ c, isBelow node n c → b.toNat ≤ c.toNat

theorem leastBelow_merge {node : Vector NodeRec 255} {n : NodeIdx} {a b : Entry} (h : nodeAt node n = some (mergeRec a b))
    (ha : LeastBelow node a.node a.rep) (hb : LeastBelow node b.node b.rep) : LeastBelow node n (mergeRec a b).rep := by
  unfold LeastBelow at *
  simp only [isBelow_of_nodeAt h]
  unfold mergeRec
  split
  · refine ⟨.inl ha.1, fun c hc => ?_⟩
    rcases hc with hc | hc
    · exact ha.2 c hc
    · have := hb.2 c hc; show a.rep.toNat ≤ _; omega
  · refine ⟨.inl hb.1, fun c hc => ?_⟩
    rcases hc with hc | hc
    · exact hb.2 c hc
    · have := ha.2 c hc; show b.rep.toNat ≤ _; omega

/-- Every record's rep is the least byte below its node, when the starting entries' reps are (R122). -/
theorem merges_leastBelow {node : Vector NodeRec 255} {m k : Nat} {es : List Entry}
    (hn : ∀ j r, (merges m k es)[j]? = some r → nodeAt node (internalIdx (k + j)) = some r)
    (h : ∀ e ∈ es, LeastBelow node e.node e.rep) :
    ∀ j r, (merges m k es)[j]? = some r → LeastBelow node (internalIdx (k + j)) r.rep := by
  induction m generalizing k es with
  | zero => simp [merges]
  | succ m ih =>
    intro j r
    match es, h, hn with
    | [], _, _ => simp [merges]
    | [a], _, _ => simp [merges]
    | a :: b :: rest, h, hn =>
      have h0 := hn 0 (mergeRec a b) (by rw [merges]; rfl)
      have hl := leastBelow_merge h0 (h a (by simp)) (h b (by simp))
      cases j with
      | zero =>
        intro hr
        rw [merges, List.getElem?_cons_zero, Option.some.injEq] at hr
        exact hr ▸ hl
      | succ j =>
        intro hr
        rw [getElem?_merges_succ] at hr
        have := ih (k := k + 1) (es := enqueue (mergeEntry k a b) rest) (fun j r hr => by
          rw [show k + 1 + j = k + (j + 1) by omega]
          exact hn (j + 1) r (by rw [getElem?_merges_succ]; exact hr)) (fun e he => by
          rcases List.mem_cons.1 ((enqueue_perm _ _).mem_iff.1 he) with rfl | he
          · exact hl
          · exact h e (by simp [he])) j r hr
        rwa [show k + 1 + j = k + (j + 1) by omega] at this

/-! ### BUILD's own run -/

theorem length_leafEntries (freq : Vector Word 256) : (leafEntries freq).length = 256 := by simp [leafEntries]

theorem getElem?_leafEntries (freq : Vector Word 256) (i : Nat) (e : Entry) :
    (leafEntries freq)[i]? = some e ↔ ∃ h : i < 256, e = ⟨freq[i], BitVec.ofNat 8 i, BitVec.ofNat 9 i⟩ := by
  simp only [leafEntries, List.getElem?_map, List.getElem?_zipIdx]
  by_cases h : i < 256
  · simp [h, eq_comm]
  · simp [h]

theorem mem_leafEntries {freq : Vector Word 256} {e : Entry} (h : e ∈ leafEntries freq) :
    ∃ i, ∃ h : i < 256, e = ⟨freq[i], BitVec.ofNat 8 i, BitVec.ofNat 9 i⟩ := by
  obtain ⟨i, hi⟩ := List.mem_iff_getElem?.1 h
  exact ⟨i, (getElem?_leafEntries freq i e).1 hi⟩

theorem allLegal_iff (freq : Vector Word 256) : allLegal freq = true ↔ ∀ i, ∀ h : i < 256, legalWeight freq[i] = true := by
  simp only [allLegal, List.all_eq_true]
  constructor
  · intro h i hi
    exact h _ (by simp)
  · intro h v hv
    obtain ⟨i, hi, rfl⟩ := List.getElem_of_mem hv
    simpa using h i (by simpa using hi)

theorem leafEntries_workingSet {freq : Vector Word 256} (h : allLegal freq = true) : WorkingSet (leafEntries freq) := by
  constructor
  · intro e he
    obtain ⟨i, hi, rfl⟩ := mem_leafEntries he
    exact (allLegal_iff freq).1 h i hi
  · rw [List.pairwise_iff_getElem]
    intro i j hi hj hij
    rw [length_leafEntries] at hi hj
    have h1 := (getElem?_leafEntries freq i _).1 (List.getElem?_eq_getElem (by rw [length_leafEntries]; exact hi))
    have h2 := (getElem?_leafEntries freq j _).1 (List.getElem?_eq_getElem (by rw [length_leafEntries]; exact hj))
    obtain ⟨_, h1⟩ := h1
    obtain ⟨_, h2⟩ := h2
    rw [h1, h2]
    intro hc
    have := congrArg BitVec.toNat hc
    simp at this
    omega

theorem leafIdx_ofNat {i : Nat} (h : i < 256) : leafIdx (BitVec.ofNat 8 i) = BitVec.ofNat 9 i := by
  apply BitVec.eq_of_toNat_eq
  simp [leafIdx]
  omega

theorem leafEntries_leastBelow (freq : Vector Word 256) (node : Vector NodeRec 255) :
    ∀ e ∈ leafEntries freq, LeastBelow node e.node e.rep := by
  intro e he
  obtain ⟨i, hi, rfl⟩ := mem_leafEntries he
  simp only [← leafIdx_ofNat hi, LeastBelow, isBelow_leafIdx, true_and]
  intro c hc
  rw [hc]

theorem mem_startSet {freq : Vector Word 256} {e : Entry} : e ∈ startSet freq ↔ e ∈ leafEntries freq :=
  (foldr_enqueue_perm _).mem_iff

theorem length_startSet (freq : Vector Word 256) : (startSet freq).length = 256 := by
  rw [startSet, (foldr_enqueue_perm _).length_eq, length_leafEntries]

/-- The records of BUILD's merges are the table it stores. -/
theorem toList_buildNodes (freq : Vector Word 256) : (buildNodes freq).toList = merges 255 0 (startSet freq) := by
  have hl := length_merges 255 0 (startSet freq) (by rw [length_startSet]; omega)
  apply List.ext_getElem
  · simp [hl]
  · intro i h1 h2
    simp [buildNodes, Config.nint, List.getD_eq_getElem?_getD, List.getElem?_eq_getElem h2]

theorem nodeAt_internalIdx (node : Vector NodeRec 255) {k : Nat} (h : k < 255) : nodeAt node (internalIdx k) = some node[k] := by
  have := toNat_internalIdx (show k < 256 by omega)
  simp [nodeAt, this, Config.firstInternal, h]

theorem nodeAt_buildNodes {freq : Vector Word 256} {j : Nat} {r : NodeRec} (h : (merges 255 0 (startSet freq))[j]? = some r) :
    nodeAt (buildNodes freq) (internalIdx j) = some r := by
  rw [← toList_buildNodes] at h
  have hj : j < 255 := by
    by_contra hc
    simp [hc] at h
  rw [nodeAt_internalIdx _ hj]
  simpa [hj] using h

theorem getElem?_merges_buildNodes (freq : Vector Word 256) {j : Nat} (h : j < 255) :
    (merges 255 0 (startSet freq))[j]? = some (buildNodes freq)[j] := by
  rw [← toList_buildNodes]
  simp [h]

end Sys2Proof.Machine
end

