-- ==== Sys2Proof/Laws/Paths.lean ====
section
/-! SUPPORT. Paths in the tree BUILD makes, and the code table as those paths (42_tree_builder.md R122, R123). -/

namespace Sys2Proof.Machine

/-! ### The child taken on a bit -/

/-- The node reached from internal node `256 + k` on a bit. -/
def childAt (node : Vector NodeRec 255) (k : Fin 255) (b : Bool) : NodeIdx := if b then node[k].child1 else node[k].child0

theorem getElem?_childrenOf (recs : List NodeRec) (k : Nat) (b : Bool) :
    (childrenOf recs)[2 * k + b.toNat]? = recs[k]?.map fun r => if b then r.child1 else r.child0 := by
  induction recs generalizing k with
  | nil => simp [childrenOf]
  | cons r rs ih =>
    cases k with
    | zero => cases b <;> simp [childrenOf]
    | succ k =>
      rw [show 2 * (k + 1) + b.toNat = 2 * k + b.toNat + 1 + 1 by ring]
      have := ih k
      simp only [childrenOf, List.flatMap_cons, List.cons_append, List.nil_append, List.getElem?_cons_succ] at this ⊢
      exact this

theorem getElem?_childrenOf_node (node : Vector NodeRec 255) (k : Fin 255) (b : Bool) :
    (childrenOf node.toList)[2 * k.val + b.toNat]? = some (childAt node k b) := by
  rw [getElem?_childrenOf]
  simp [childAt]

/-- A tree of 42_tree_builder.md R122: children have smaller indices, and every node but the root has one parent. -/
structure FullTree (node : Vector NodeRec 255) : Prop where
  lt : ∀ k b, (childAt node k b).toNat < 256 + k.val
  inj : ∀ k b l c, childAt node k b = childAt node l c → k = l ∧ b = c
  surj : ∀ n : NodeIdx, n.toNat < 510 → ∃ k b, childAt node k b = n

/-- The tree BUILD makes is one. -/
theorem fullTree_buildNodes (freq : Vector Word 256) : FullTree (buildNodes freq) := by
  have hlen := length_startSet freq
  have hlt := merges_children_lt (m := 255) (k := 0) (es := startSet freq) (by omega) (fun e he => by
    obtain ⟨i, hi, rfl⟩ := mem_leafEntries (mem_startSet.1 he)
    simp
    omega)
  have hperm := childrenOf_merges 254 0 (startSet freq) hlen
  rw [show 254 + 1 = 255 from rfl, ← toList_buildNodes] at hperm
  have hstart : ((startSet freq).map Entry.node).Perm ((List.range 256).map (BitVec.ofNat 9)) := by
    refine ((foldr_enqueue_perm _).map _).trans (List.Perm.of_eq ?_)
    apply List.ext_getElem?
    intro i
    rw [List.getElem?_map, List.getElem?_map]
    by_cases hi : i < 256
    · rw [(getElem?_leafEntries freq i _).2 ⟨hi, rfl⟩, List.getElem?_range hi]
      rfl
    · rw [List.getElem?_eq_none (by rw [length_leafEntries]; omega), List.getElem?_eq_none (by simp; omega)]
      rfl
  have hall : (childrenOf (buildNodes freq).toList).Perm ((List.range 510).map (BitVec.ofNat 9)) := by
    refine (hperm.trans (hstart.append_right _)).trans (List.Perm.of_eq ?_)
    rw [show 510 = 256 + 254 from rfl, List.range_add, List.map_append, List.map_map]
    refine congrArg _ (List.map_congr_left fun j _ => ?_)
    simp [internalIdx, Config.firstInternal]
  have hnodup : (childrenOf (buildNodes freq).toList).Nodup := by
    rw [hall.nodup_iff]
    refine List.Nodup.map_on ?_ List.nodup_range
    intro x hx y hy hxy
    have := congrArg BitVec.toNat hxy
    simp at this hx hy
    omega
  refine ⟨?_, ?_, ?_⟩
  · intro k b
    have := hlt k.val _ (getElem?_merges_buildNodes freq k.isLt)
    unfold childAt
    rw [Nat.zero_add] at this
    split
    · exact this.2
    · exact this.1
  · intro k b l c h
    have h1 := getElem?_childrenOf_node (buildNodes freq) k b
    have h2 := getElem?_childrenOf_node (buildNodes freq) l c
    rw [← h] at h2
    obtain ⟨i1, e1⟩ := List.getElem?_eq_some_iff.1 h1
    obtain ⟨i2, e2⟩ := List.getElem?_eq_some_iff.1 h2
    have := (hnodup.getElem_inj_iff).1 (e1.trans e2.symm)
    have hb : b.toNat < 2 := Bool.toNat_lt b
    have hc : c.toNat < 2 := Bool.toNat_lt c
    refine ⟨Fin.ext (by omega), ?_⟩
    have : b.toNat = c.toNat := by omega
    revert this
    cases b <;> cases c <;> simp
  · intro n hn
    have : n ∈ childrenOf (buildNodes freq).toList := by
      rw [hall.mem_iff, List.mem_map]
      exact ⟨n.toNat, List.mem_range.2 hn, by simp⟩
    simp only [childrenOf, List.mem_flatMap, List.mem_cons, List.not_mem_nil, or_false] at this
    obtain ⟨r, hr, h⟩ := this
    obtain ⟨k, hk, rfl⟩ := List.getElem_of_mem hr
    have hk' : k < 255 := by simpa using hk
    rcases h with h | h
    · exact ⟨⟨k, hk'⟩, false, by simpa [childAt] using h.symm⟩
    · exact ⟨⟨k, hk'⟩, true, by simpa [childAt] using h.symm⟩

/-! ### Descents -/

theorem descend_cons_internal (node : Vector NodeRec 255) (k : Fin 255) (b : Bool) (bits : List Bool) :
    descend node (internalIdx k.val) (b :: bits) = descend node (childAt node k b) bits := by
  simp [descend, nodeAt_internalIdx node k.isLt, childAt]

theorem exists_internalIdx {n : NodeIdx} (h : isInternalIdx n = true) : ∃ k : Fin 255, n = internalIdx k.val := by
  have h' := isInternalIdx_iff.1 h
  refine ⟨⟨n.toNat - 256, by omega⟩, BitVec.eq_of_toNat_eq ?_⟩
  rw [toNat_internalIdx (by simp; omega)]
  simp only []
  omega

/-- A branch leaves from an internal node. -/
theorem descend_cons_some {node : Vector NodeRec 255} {n m : NodeIdx} {b : Bool} {bits : List Bool}
    (h : descend node n (b :: bits) = some m) :
    ∃ k : Fin 255, n = internalIdx k.val ∧ descend node (childAt node k b) bits = some m := by
  cases hn : isInternalIdx n with
  | true =>
    obtain ⟨k, rfl⟩ := exists_internalIdx hn
    exact ⟨k, rfl, by rwa [descend_cons_internal] at h⟩
  | false => simp [descend, (nodeAt_eq_none_iff node n).2 hn] at h

theorem descend_append (node : Vector NodeRec 255) (n : NodeIdx) (p q : List Bool) :
    descend node n (p ++ q) = (descend node n p).bind fun m => descend node m q := by
  induction p generalizing n with
  | nil => rfl
  | cons b bs ih =>
    rw [List.cons_append]
    simp only [descend]
    cases nodeAt node n with
    | none => rfl
    | some r => exact ih _

theorem descend_snoc_some {node : Vector NodeRec 255} {n m : NodeIdx} {b : Bool} {p : List Bool}
    (h : descend node n (p ++ [b]) = some m) :
    ∃ k : Fin 255, descend node n p = some (internalIdx k.val) ∧ childAt node k b = m := by
  rw [descend_append] at h
  cases hp : descend node n p with
  | none => simp [hp] at h
  | some l =>
    rw [hp, Option.bind_some] at h
    obtain ⟨k, rfl, hk⟩ := descend_cons_some h
    exact ⟨k, rfl, by simpa [descend] using hk⟩

variable {node : Vector NodeRec 255}

/-- One path at most from the root to a node. -/
theorem FullTree.path_unique (ht : FullTree node) {n : NodeIdx} {p q : List Bool} (hp : descend node Config.root p = some n)
    (hq : descend node Config.root q = some n) : p = q := by
  have hroot : ∀ k b, childAt node k b ≠ Config.root := by
    intro k b hc
    have h1 := ht.lt k b
    have h2 := k.isLt
    rw [hc] at h1
    simp [Config.root] at h1
    omega
  induction p using List.reverseRecOn generalizing n q with
  | nil =>
    rcases List.eq_nil_or_concat q with rfl | ⟨q', c, rfl⟩
    · rfl
    · simp only [descend, Option.some.injEq] at hp
      rw [List.concat_eq_append] at hq
      obtain ⟨k, -, hk⟩ := descend_snoc_some hq
      exact absurd (hk.trans hp.symm) (hroot k c)
  | append_singleton p b ih =>
    obtain ⟨k, hk, hkb⟩ := descend_snoc_some hp
    rcases List.eq_nil_or_concat q with rfl | ⟨q', c, rfl⟩
    · simp only [descend, Option.some.injEq] at hq
      exact absurd (hkb.trans hq.symm) (hroot k b)
    · rw [List.concat_eq_append] at hq ⊢
      obtain ⟨l, hl, hlc⟩ := descend_snoc_some hq
      obtain ⟨rfl, rfl⟩ := ht.inj k b l c (hkb.trans hlc.symm)
      rw [ih hk hl]

/-- A path from the root to every node. -/
theorem FullTree.path_exists (ht : FullTree node) (n : NodeIdx) (h : n.toNat ≤ 510) :
    ∃ p, descend node Config.root p = some n := by
  generalize hd : 510 - n.toNat = d
  induction d using Nat.strong_induction_on generalizing n with
  | _ d ih =>
    by_cases hr : n.toNat = 510
    · exact ⟨[], congrArg some (BitVec.eq_of_toNat_eq hr.symm)⟩
    · obtain ⟨k, b, hk⟩ := ht.surj n (by omega)
      have h1 := ht.lt k b
      have h2 := toNat_internalIdx (show k.val < 256 by omega)
      have h3 := k.isLt
      rw [hk] at h1
      obtain ⟨p, hp⟩ := ih (510 - (internalIdx k.val).toNat) (by omega) (internalIdx k.val) (by omega) rfl
      exact ⟨p ++ [b], by rw [descend_append, hp, Option.bind_some, descend_cons_internal, hk]; rfl⟩

/-- A path is no longer than the internal nodes left below its start. -/
theorem FullTree.path_length (ht : FullTree node) {n m : NodeIdx} {p : List Bool} (h : descend node n p = some m) :
    p.length ≤ n.toNat - 255 := by
  induction p generalizing n with
  | nil => simp
  | cons b bs ih =>
    obtain ⟨k, rfl, hk⟩ := descend_cons_some h
    have h1 := ih hk
    have h2 := ht.lt k b
    have h3 := toNat_internalIdx (show k.val < 256 by omega)
    rw [List.length_cons]
    omega

theorem FullTree.childrenInTree (ht : FullTree node) : childrenInTree node := by
  intro n r h
  have hn : isInternalIdx n = true := by
    by_contra hc
    rw [(nodeAt_eq_none_iff node n).2 (by simpa using hc)] at h
    exact absurd h (by simp)
  obtain ⟨k, rfl⟩ := exists_internalIdx hn
  rw [nodeAt_internalIdx node k.isLt, Option.some.injEq] at h
  have h0 := ht.lt k false
  have h1 := ht.lt k true
  simp only [childAt] at h0 h1
  rw [← h]
  have := k.isLt
  simp at h0 h1
  omega

/-! ### The traversal and the code table (42_tree_builder.md R123) -/

theorem leafIdx_setWidth {n : NodeIdx} (h : n.toNat < 256) : leafIdx (n.setWidth 8) = n := by
  apply BitVec.eq_of_toNat_eq
  simp [leafIdx]
  omega

theorem isInternalIdx_leafIdx (b : Byte) : isInternalIdx (leafIdx b) = false := by
  by_contra hc
  have := isInternalIdx_iff.1 (by simpa using hc)
  have := b.isLt
  simp [leafIdx] at *
  omega

/-- The traversal finds exactly the descents that end at a leaf, up to its fuel. -/
theorem mem_leafPaths (node : Vector NodeRec 255) (fuel : Nat) (n : NodeIdx) (b : Byte) (p : List Bool) :
    (b, p) ∈ leafPaths node fuel n ↔ p.length < fuel ∧ descend node n p = some (leafIdx b) := by
  induction fuel generalizing n p with
  | zero => simp [leafPaths]
  | succ fuel ih =>
    rw [leafPaths]
    split
    · rename_i hl
      have hl' : n.toNat < 256 := hl
      have hn : nodeAt node n = none := by rw [← leafIdx_setWidth hl', nodeAt_leafIdx]
      cases p with
      | nil =>
        simp only [List.mem_singleton, Prod.mk.injEq, and_true, List.length_nil, Nat.zero_lt_succ, true_and, descend,
          Option.some.injEq]
        constructor
        · rintro rfl; exact (leafIdx_setWidth hl').symm
        · intro h; rw [← leafIdx_setWidth hl'] at h; exact (leafIdx_injective h).symm
      | cons x xs => simp [descend, hn]
    · rename_i hl
      cases hn : nodeAt node n with
      | none =>
        simp only [List.not_mem_nil, false_iff, not_and]
        intro _
        cases p with
        | nil =>
          simp only [descend, Option.some.injEq]
          rintro rfl
          exact hl (by have := b.isLt; simp [leafIdx, Config.firstInternal]; omega)
        | cons x xs => simp [descend, hn]
      | some r =>
        simp only [List.mem_append, List.mem_map, Prod.mk.injEq, Prod.exists]
        cases p with
        | nil =>
          simp only [descend, Option.some.injEq]
          constructor
          · rintro (⟨_, _, _, _, h⟩ | ⟨_, _, _, _, h⟩) <;> exact absurd h (by simp)
          · rintro ⟨-, rfl⟩
            rw [nodeAt_leafIdx] at hn
            exact absurd hn (by simp)
        | cons x xs =>
          simp only [descend, hn, List.length_cons, Nat.add_lt_add_iff_right, List.cons.injEq]
          constructor
          · rintro (⟨c, q, hm, rfl, rfl, rfl⟩ | ⟨c, q, hm, rfl, rfl, rfl⟩)
            · exact (ih r.child0 q).1 hm
            · exact (ih r.child1 q).1 hm
          · intro h
            cases x
            · exact .inl ⟨b, xs, (ih r.child0 xs).2 h, rfl, rfl, rfl⟩
            · exact .inr ⟨b, xs, (ih r.child1 xs).2 h, rfl, rfl, rfl⟩

theorem lookup_some_mem {α β : Type} [BEq α] [LawfulBEq α] {l : List (α × β)} {a : α} {p : β} (h : (a, p) ∈ l) :
    ∃ q, l.lookup a = some q ∧ (a, q) ∈ l := by
  induction l with
  | nil => exact absurd h (by simp)
  | cons x xs ih =>
    obtain ⟨c, q⟩ := x
    by_cases hc : a = c
    · subst hc
      exact ⟨q, by simp [List.lookup], by simp⟩
    · have hm : (a, p) ∈ xs := by
        rcases List.mem_cons.1 h with h | h
        · exact absurd (congrArg Prod.fst h) hc
        · exact h
      obtain ⟨q', h1, h2⟩ := ih hm
      refine ⟨q', ?_, List.mem_cons_of_mem _ h2⟩
      rw [List.lookup_cons]
      have : (a == c) = false := by simpa using hc
      rw [this]
      exact h1

/-- The path the code table takes for a byte is the path to its leaf, and no leaf is deeper than 255. -/
theorem FullTree.pathOf_spec (ht : FullTree node) (b : Byte) :
    descend node Config.root (pathOf (rootPaths node) b) = some (leafIdx b) ∧ (pathOf (rootPaths node) b).length ≤ 255 := by
  obtain ⟨p, hp⟩ := ht.path_exists (leafIdx b) (by have := b.isLt; simp [leafIdx]; omega)
  have hl := ht.path_length hp
  have hr : Config.root.toNat = 510 := rfl
  have hm := (mem_leafPaths node 256 Config.root b p).2 ⟨by omega, hp⟩
  obtain ⟨q, hq, hqm⟩ := lookup_some_mem hm
  have hq' := (mem_leafPaths node 256 Config.root b q).1 hqm
  rw [pathOf, rootPaths, hq]
  exact ⟨hq'.2, by simp only [Option.getD_some]; omega⟩

/-- A state whose code table is derived from its tree: the code of a byte is the path to its leaf. -/
theorem FullTree.codeBitsOf_eq {s : State} (ht : FullTree s.node) (hl : s.clen = deriveClen s.node)
    (hc : s.code = deriveCode s.node) (b : Byte) : s.codeBitsOf b = pathOf (rootPaths s.node) b := by
  have hlen := (ht.pathOf_spec b).2
  generalize hp : pathOf (rootPaths s.node) b = p at hlen
  have h1 : (s.clenAt b).toNat = p.length := by
    simp only [State.clenAt, hl, deriveClen, Vector.getElem_ofFn, BitVec.ofNat_toNat, BitVec.setWidth_eq, hp]
    simp
    omega
  have h2 : s.codeAt b = BitVec.ofNat 255 (bitsToNat p) := by
    simp only [State.codeAt, hc, deriveCode, Vector.getElem_ofFn, BitVec.ofNat_toNat, BitVec.setWidth_eq, hp]
  apply List.ext_getElem
  · simp [State.codeBitsOf, h1]
  · intro i hi1 hi2
    simp only [State.codeBitsOf, List.getElem_map, List.getElem_range, h2, getLsbD_ofNat_bitsToNat]
    simp [hi2, show i < 255 by omega]

theorem FullTree.codeAt_high {s : State} (ht : FullTree s.node) (hl : s.clen = deriveClen s.node)
    (hc : s.code = deriveCode s.node) (b : Byte) (j : Nat) (hj : (s.clenAt b).toNat ≤ j) : (s.codeAt b).getLsbD j = false := by
  have h1 := congrArg List.length (ht.codeBitsOf_eq hl hc b)
  rw [show (s.codeBitsOf b).length = _ from length_codeBitsOf s b] at h1
  have h2 : s.codeAt b = BitVec.ofNat 255 (bitsToNat (pathOf (rootPaths s.node) b)) := by
    simp only [State.codeAt, hc, deriveCode, Vector.getElem_ofFn, BitVec.ofNat_toNat, BitVec.setWidth_eq]
  rw [h2, getLsbD_ofNat_bitsToNat, List.getD_eq_default _ _ (by omega)]
  simp

end Sys2Proof.Machine
end

