-- ==== Sys2Proof/Laws/Invariants.lean ====
section
/-! SUPPORT. What the invariants of 10_state.md give. -/

namespace Sys2Proof.Machine

theorem isInternalIdx_root : isInternalIdx Config.root = true := by decide

/-- The invariants read twelve fields; a state with the same twelve keeps them. -/
theorem Invariants.congr {s t : State} (h : Invariants s) (hf : t.freq = s.freq) (hv : t.treeValid = s.treeValid)
    (hn : t.node = s.node) (hl : t.clen = s.clen) (hc : t.code = s.code) (ha : t.acc = s.acc) (hb : t.bitpos = s.bitpos)
    (he : t.encOpen = s.encOpen) (hcu : t.cursor = s.cursor) (hd : t.decOpen = s.decOpen) (her : t.err = s.err)
    (heo : t.errOpc = s.errOpc) : Invariants t := by
  have ho := h.openHasTree
  simp only [State.streamOpen] at ho
  exact ⟨by rw [ha, hb]; exact h.accClean, by rw [he, ha, hb]; exact h.encIdle, by rw [hcu]; exact h.cursorInternal,
    by rw [hd, hcu]; exact h.decIdle, by simp only [State.streamOpen, he, hd, hv]; exact ho,
    by rw [hv, hf, hn, hl, hc]; exact h.tablesCurrent, by rw [her]; exact h.errCode, by rw [her, heo]; exact h.errOpcClear⟩

/-- Under the invariants a valid tree is one of 42_tree_builder.md R122. -/
theorem Invariants.fullTree {s : State} (h : Invariants s) (hv : s.treeValid = true) : FullTree s.node := by
  rw [(h.tablesCurrent hv).2.1]
  exact fullTree_buildNodes _

/-- Under the invariants the code of a byte leads from the root to its leaf (R123, R129). -/
theorem Invariants.descend_code {s : State} (h : Invariants s) (hv : s.treeValid = true) (b : Byte) :
    descend s.node Config.root (s.codeBitsOf b) = some (leafIdx b) := by
  have ht := h.fullTree hv
  rw [ht.codeBitsOf_eq (h.tablesCurrent hv).2.2.1 (h.tablesCurrent hv).2.2.2]
  exact (ht.pathOf_spec b).1

theorem Invariants.codeBitsOf_ne_nil {s : State} (h : Invariants s) (hv : s.treeValid = true) (b : Byte) :
    s.codeBitsOf b ≠ [] := by
  intro hc
  have h1 := h.descend_code hv b
  rw [hc] at h1
  simp only [descend, Option.some.injEq] at h1
  have := isInternalIdx_leafIdx b
  rw [← h1, isInternalIdx_root] at this
  exact Bool.noConfusion this

end Sys2Proof.Machine
end

