-- ==== Sys2Proof/Laws/PerInstr.lean ====
section
/-! SUPPORT. Per command: the row of its opcode selects its encoding, and reads the command back from it
(30_encoding.md R73). -/

namespace Sys2Proof.Laws.EncodingSelectsRow

/-- The encoding of the command selects a row, whose operands are the command. -/
def Statement (i : Instr) : Prop := ∃ r ∈ rows, r.selects (encode i) = true ∧ r.operands (encode i) = i

theorem byRow {i : Instr} (n : Nat) (hn : n < 15) (h : (rows[n]'hn).selects (encode i) = true)
    (ho : (rows[n]'hn).operands (encode i) = i) : Statement i := ⟨_, List.getElem_mem hn, h, ho⟩

theorem chunk_high_zero (k : BitVec 3) : k.setWidth 32 &&& 4294967288#32 = 0#32 := by
  apply BitVec.eq_of_toNat_eq
  have := k.isLt
  rw [BitVec.toNat_and, BitVec.toNat_setWidth]
  generalize k.toNat = n at *
  interval_cases n <;> rfl

theorem low_of_wide {m : Nat} (x : BitVec m) (h : m ≤ 32) : BitVec.extractLsb' 0 m (BitVec.setWidth 32 x) = x := by
  apply BitVec.eq_of_getLsbD_eq
  intro i hi
  have h32 : i < 32 := by omega
  simp [hi, h32]

theorem node_high_zero (n : NodeIdx) : n.setWidth 32 &&& 4294966784#32 = 0#32 := by
  apply BitVec.eq_of_getLsbD_eq
  intro i hi
  have hm : ∀ j : Fin 9, (4294966784#32).getLsbD j = false := by decide
  by_cases h : i < 9
  · simp [hm ⟨i, h⟩]
  · simp [BitVec.getLsbD_of_ge n i (by omega)]

theorem nop : Statement .nop :=
  byRow 0 (by decide) (by decide) (by decide)

theorem clear : Statement .clear :=
  byRow 1 (by decide) (by decide) (by decide)

theorem wfreq (i : Byte) (v : Word) : Statement (.wfreq i v) :=
  byRow 2 (by decide) (by simp [selects_iff, encode, rows]; simp [opcField, byteField, rsvField, wordField]) (by simp [encode, rows])

theorem rfreq (i : Byte) : Statement (.rfreq i) :=
  byRow 3 (by decide) (by simp [selects_iff, encode, rows]; simp [opcField, byteField, rsvField, wordField]) (by simp [encode, rows])

theorem build : Statement .build :=
  byRow 4 (by decide) (by decide) (by decide)

theorem rclen (b : Byte) : Statement (.rclen b) :=
  byRow 5 (by decide) (by simp [selects_iff, encode, rows]; simp [opcField, byteField, rsvField, wordField]) (by simp [encode, rows])

theorem rcode (b : Byte) (k : BitVec 3) : Statement (.rcode b k) :=
  byRow 6 (by decide) (by simp [selects_iff, encode, rows]; simp [opcField, byteField, rsvField, wordField]; exact chunk_high_zero k) (by simp [encode, rows, chunkField, low_of_wide])

theorem rnode (n : NodeIdx) : Statement (.rnode n) :=
  byRow 7 (by decide) (by simp [selects_iff, encode, rows]; simp [opcField, byteField, rsvField, wordField]; exact node_high_zero n) (by simp [encode, rows, nodeField, low_of_wide])

theorem rwgt (n : NodeIdx) : Statement (.rwgt n) :=
  byRow 8 (by decide) (by simp [selects_iff, encode, rows]; simp [opcField, byteField, rsvField, wordField]; exact node_high_zero n) (by simp [encode, rows, nodeField, low_of_wide])

theorem enc (b : Byte) : Statement (.enc b) :=
  byRow 9 (by decide) (by simp [selects_iff, encode, rows]; simp [opcField, byteField, rsvField, wordField]) (by simp [encode, rows])

theorem eflush : Statement .eflush :=
  byRow 10 (by decide) (by decide) (by decide)

theorem setpad (p : Byte) : Statement (.setpad p) :=
  byRow 11 (by decide) (by simp [selects_iff, encode, rows]; simp [opcField, byteField, rsvField, wordField]) (by simp [encode, rows])

theorem dec (x : Byte) : Statement (.dec x) :=
  byRow 12 (by decide) (by simp [selects_iff, encode, rows]; simp [opcField, byteField, rsvField, wordField]) (by simp [encode, rows])

theorem declast (x : Byte) : Statement (.declast x) :=
  byRow 13 (by decide) (by simp [selects_iff, encode, rows]; simp [opcField, byteField, rsvField, wordField]) (by simp [encode, rows])

theorem decend : Statement .decend :=
  byRow 14 (by decide) (by decide) (by decide)

end Sys2Proof.Laws.EncodingSelectsRow
end

