-- ==== Sys2Proof/Laws/Rounding.lean ====
section
/-! SUPPORT. Rounding: no binary32 pattern is nearer than the one `roundBits` gives (00_scope.md R12, 41_weights.md R102). -/

namespace Sys2Proof.Machine

/-- The value of magnitude bits in units of 2^-149. -/
def magUnits (m : Nat) : Nat := if m < 2 ^ 23 then m else (2 ^ 23 + m % 2 ^ 23) * 2 ^ (m / 2 ^ 23 - 1)

theorem unitsOf_eq_magUnits (v : Word) : unitsOf v = magUnits (magField v) := by
  have h1 := fracField_lt v
  rw [unitsOf, magUnits, magField_eq]
  by_cases h : expField v = 0
  · rw [if_pos h, if_pos (by rw [h]; omega), h]
    omega
  · rw [if_neg h, if_neg (by omega), show (expField v * 2 ^ 23 + fracField v) % 2 ^ 23 = fracField v by omega,
      show (expField v * 2 ^ 23 + fracField v) / 2 ^ 23 = expField v by omega]

/-- A pattern of `k` dropped bits and significand `q` (24 bits, or fewer when nothing is dropped). -/
theorem magUnits_pattern (k q : Nat) (hq : q ≤ 2 ^ 24) (hk : 0 < k → 2 ^ 23 ≤ q) : magUnits (k * 2 ^ 23 + q) = q * 2 ^ k := by
  unfold magUnits
  by_cases h0 : k * 2 ^ 23 + q < 2 ^ 23
  · rw [if_pos h0]
    have : k = 0 := by omega
    subst this
    simp
  · rw [if_neg h0]
    by_cases h1 : q < 2 ^ 24
    · have h2 : 2 ^ 23 ≤ q := by
        rcases Nat.eq_zero_or_pos k with hz | hz
        · subst hz; omega
        · exact hk hz
      rw [show (k * 2 ^ 23 + q) % 2 ^ 23 = q - 2 ^ 23 by omega, show (k * 2 ^ 23 + q) / 2 ^ 23 = k + 1 by omega,
        show 2 ^ 23 + (q - 2 ^ 23) = q by omega]
      simp
    · have h2 : q = 2 ^ 24 := by omega
      subst h2
      rw [show (k * 2 ^ 23 + 2 ^ 24) % 2 ^ 23 = 0 by omega, show (k * 2 ^ 23 + 2 ^ 24) / 2 ^ 23 = k + 2 by omega]
      rw [show k + 2 - 1 = k + 1 by omega, pow_succ]
      ring

theorem magUnits_succ (m : Nat) : magUnits m < magUnits (m + 1) := by
  by_cases h : m < 2 ^ 23
  · have h1 := magUnits_pattern 0 m (by omega) (by simp)
    have h2 := magUnits_pattern 0 (m + 1) (by omega) (by simp)
    simp at h1 h2
    omega
  · have hm : m = (m / 2 ^ 23 - 1) * 2 ^ 23 + (2 ^ 23 + m % 2 ^ 23) := by omega
    have h1 := magUnits_pattern (m / 2 ^ 23 - 1) (2 ^ 23 + m % 2 ^ 23) (by omega) (by omega)
    have h2 := magUnits_pattern (m / 2 ^ 23 - 1) (2 ^ 23 + m % 2 ^ 23 + 1) (by omega) (by omega)
    rw [show (m / 2 ^ 23 - 1) * 2 ^ 23 + (2 ^ 23 + m % 2 ^ 23 + 1) = m + 1 by omega] at h2
    rw [← hm] at h1
    rw [h1, h2]
    exact Nat.mul_lt_mul_of_pos_right (by omega) (Nat.two_pow_pos _)

/-- The order of magnitude bits is the order of values. -/
theorem magUnits_strictMono : StrictMono magUnits := strictMono_nat_of_lt_succ magUnits_succ

/-- The quotient lies between two neighbouring patterns, and `roundBits` is one of them. -/
theorem roundBits_bracket (n d : Nat) (hd : 0 < d) : ∃ k q r b, n = q * (d * 2 ^ k) + r ∧ r < d * 2 ^ k ∧
    magUnits b = q * 2 ^ k ∧ magUnits (b + 1) = (q + 1) * 2 ^ k ∧ b % 2 = q % 2 ∧
    roundBits n d = b + (if d * 2 ^ k < 2 * r ∨ (2 * r = d * 2 ^ k ∧ q % 2 = 1) then 1 else 0) := by
  have hu : 0 < d * 2 ^ dropBits (n / d) := Nat.mul_pos hd (Nat.two_pow_pos _)
  have hq : n / (d * 2 ^ dropBits (n / d)) = n / d / 2 ^ dropBits (n / d) := by rw [Nat.div_div_eq_div_mul]
  have hlt : n / d / 2 ^ dropBits (n / d) < 2 ^ 24 := by
    rw [Nat.div_lt_iff_lt_mul (Nat.two_pow_pos _), ← Nat.pow_add]
    refine lt_of_lt_of_le Nat.lt_log2_self (Nat.pow_le_pow_right (by omega) ?_)
    unfold dropBits
    omega
  have hge : 0 < dropBits (n / d) → 2 ^ 23 ≤ n / d / 2 ^ dropBits (n / d) := by
    intro h
    rw [Nat.le_div_iff_mul_le (Nat.two_pow_pos _), ← Nat.pow_add]
    have h0 : n / d ≠ 0 := by
      intro hc
      rw [hc] at h
      simp [dropBits] at h
    refine le_trans (Nat.pow_le_pow_right (by omega) ?_) (Nat.log2_self_le h0)
    unfold dropBits at *
    omega
  rw [← hq] at hlt hge
  refine ⟨dropBits (n / d), n / (d * 2 ^ dropBits (n / d)), n % (d * 2 ^ dropBits (n / d)),
    dropBits (n / d) * 2 ^ 23 + n / (d * 2 ^ dropBits (n / d)), ?_, Nat.mod_lt _ hu,
    magUnits_pattern _ _ (by omega) hge, ?_, by omega, rfl⟩
  · rw [Nat.mul_comm]
    exact (Nat.div_add_mod _ _).symm
  · rw [Nat.add_assoc]
    exact magUnits_pattern _ _ (by omega) (fun h => by have := hge h; omega)

/-- No pattern is nearer to `n / d` than `roundBits n d`, and one as near leaves it even (00_scope.md R12: to nearest, ties
to even). -/
theorem roundBits_nearest (n d : Nat) (hd : 0 < d) (m : Nat) :
    ((magUnits (roundBits n d) : Int) * d - n).natAbs ≤ ((magUnits m : Int) * d - n).natAbs ∧
    (((magUnits (roundBits n d) : Int) * d - n).natAbs = ((magUnits m : Int) * d - n).natAbs → m ≠ roundBits n d →
      roundBits n d % 2 = 0) := by
  obtain ⟨k, q, r, b, hn, hr, hb, hb1, hpar, hround⟩ := roundBits_bracket n d hd
  have e0 : (magUnits b : Int) * d - n = -(r : Int) := by
    rw [hb, hn]; push_cast; ring
  have e1 : (magUnits (b + 1) : Int) * d - n = (d * 2 ^ k : Nat) - (r : Int) := by
    rw [hb1, hn]; push_cast; ring
  have hm : (m ≤ b ∧ ((magUnits m : Int) * d - n ≤ -(r : Int)) ∧ (m ≠ b → (magUnits m : Int) * d - n < -(r : Int))) ∨
      (b + 1 ≤ m ∧ ((d * 2 ^ k : Nat) - (r : Int) ≤ (magUnits m : Int) * d - n) ∧
        (m ≠ b + 1 → (d * 2 ^ k : Nat) - (r : Int) < (magUnits m : Int) * d - n)) := by
    have hd' : (0 : Int) < d := by exact_mod_cast hd
    rcases Nat.lt_or_ge b m with h | h
    · refine .inr ⟨h, ?_, fun hne => ?_⟩
      · rw [← e1]
        have := magUnits_strictMono.monotone h
        have : (magUnits (b + 1) : Int) ≤ magUnits m := by exact_mod_cast this
        nlinarith
      · rw [← e1]
        have := magUnits_strictMono (show b + 1 < m by omega)
        have : (magUnits (b + 1) : Int) < magUnits m := by exact_mod_cast this
        nlinarith
    · refine .inl ⟨h, ?_, fun hne => ?_⟩
      · rw [← e0]
        have := magUnits_strictMono.monotone h
        have : (magUnits m : Int) ≤ magUnits b := by exact_mod_cast this
        nlinarith
      · rw [← e0]
        have := magUnits_strictMono (show m < b by omega)
        have : (magUnits m : Int) < magUnits b := by exact_mod_cast this
        nlinarith
  generalize (magUnits m : Int) * d - n = x at hm
  generalize d * 2 ^ k = u at *
  rw [hround]
  split
  · rename_i hup
    rw [e1]
    omega
  · rename_i hup
    rw [Nat.add_zero, e0]
    omega

/-- Overflow begins half a unit above the largest finite value (00_scope.md R12). -/
theorem infMag_le_roundBits (n : Nat) : infMag ≤ roundBits n 1 ↔ (2 ^ 25 - 1) * 2 ^ 252 ≤ n := by
  have hmax : magUnits (infMag - 1) = (2 ^ 24 - 1) * 2 ^ 253 := magUnits_pattern 253 (2 ^ 24 - 1) (by norm_num) (by norm_num)
  have hinf : magUnits infMag = 2 ^ 24 * 2 ^ 253 := by
    rw [show infMag = 253 * 2 ^ 23 + 2 ^ 24 by norm_num [infMag]]
    exact magUnits_pattern 253 (2 ^ 24) (by norm_num) (by norm_num)
  have near := roundBits_nearest n 1 Nat.one_pos
  have h0 := near (infMag - 1)
  have h1 := near infMag
  rw [hmax] at h0
  rw [hinf] at h1
  constructor
  · intro h
    have hge := magUnits_strictMono.monotone h
    rw [hinf] at hge
    generalize magUnits (roundBits n 1) = u at *
    norm_num at *
    omega
  · intro h
    by_contra hlt
    have hle := magUnits_strictMono.monotone (show roundBits n 1 ≤ infMag - 1 by omega)
    rw [hmax] at hle
    by_cases hr : roundBits n 1 = infMag - 1
    · have := h1.2
      rw [hr, hmax] at this h1
      norm_num [infMag] at *
      omega
    · have hlt := magUnits_strictMono (show roundBits n 1 < infMag - 1 by omega)
      rw [hmax] at hlt
      generalize magUnits (roundBits n 1) = u at *
      norm_num at *
      omega

end Sys2Proof.Machine
end

