-- ==== Sys2Proof/Laws/Session.lean ====
section
/-! SUPPORT. Many inputs are their effects one after another (20_memory.md R62). -/

namespace Sys2Proof.Machine

/-! ### The port does not enter a command's meaning -/

/-- A result with another port. -/
def withPort (p : List HostInput) (r : Result) : Result := andThen r fun t => .next (t.setPort p)

@[simp] theorem withPort_next (p : List HostInput) (s : State) : withPort p (.next s) = .next (s.setPort p) := rfl

theorem withPort_eq_next {p : List HostInput} {r : Result} {t : State} :
    withPort p r = .next t ↔ ∃ m, r = .next m ∧ m.setPort p = t := by
  rw [withPort, andThen_eq_next]
  simp

@[simp] theorem setPort_setPort (s : State) (p q : List HostInput) : (s.setPort p).setPort q = s.setPort q := rfl

theorem withPort_andThen (p : List HostInput) (r : Result) (f g : State → Result) (h : ∀ s, g (s.setPort p) = withPort p (f s)) :
    andThen (withPort p r) g = withPort p (andThen r f) := by
  cases r <;> simp [withPort, andThen, h]

theorem execute_setPort (opc : Byte) (checks : List (Bool × ErrCode)) (s : State) (e e' : Result) (p : List HostInput)
    (h : e' = withPort p e) : execute opc checks (s.setPort p) e' = withPort p (execute opc checks s e) := by
  subst h
  unfold execute
  rw [show (s.setPort p).sticky = s.sticky from rfl]
  split
  · rfl
  · split <;> rfl

theorem appendBit_setPort (s : State) (b : Bool) (p : List HostInput) : appendBit (s.setPort p) b = (appendBit s b).setPort p := by
  by_cases h : s.bitpos = 7
  · rw [appendBit_full (s := s.setPort p) h, appendBit_full h]; rfl
  · rw [appendBit_partial (s := s.setPort p) h, appendBit_partial h]; rfl

theorem appendBits_setPort (s : State) (bs : List Bool) (p : List HostInput) :
    appendBits (s.setPort p) bs = (appendBits s bs).setPort p := by
  induction bs generalizing s with
  | nil => rfl
  | cons b bs ih =>
    rw [appendBits, List.foldl_cons, appendBit_setPort]
    exact ih _

theorem landOn_setPort (n : NodeIdx) (s : State) (p : List HostInput) : landOn n (s.setPort p) = (landOn n s).setPort p := by
  unfold landOn
  split <;> rfl

theorem decBits_setPort (bits : List Bool) (s : State) (p : List HostInput) :
    decBits bits (s.setPort p) = withPort p (decBits bits s) := by
  induction bits generalizing s with
  | nil => rfl
  | cons b bs ih =>
    rw [decBits, decBits]
    have h1 : decBit b (s.setPort p) = withPort p (decBit b s) := by
      unfold decBit readNode
      rw [show (s.setPort p).node = s.node from rfl, show (s.setPort p).cursor = s.cursor from rfl]
      cases nodeAt s.node s.cursor with
      | none => rfl
      | some r => simp only [landOn_setPort]; rfl
    rw [h1]
    exact withPort_andThen p _ _ _ fun s => ih s

theorem endCheck_setPort (opc : Byte) (s : State) (p : List HostInput) :
    endCheck opc (s.setPort p) = withPort p (endCheck opc s) := by
  unfold endCheck
  rw [show (s.setPort p).cursor = s.cursor from rfl]
  split <;> rfl

theorem effectOf_setPort (i : Instr) (s : State) (p : List HostInput) :
    effectOf (s.setPort p) i = withPort p (effectOf s i) := by
  cases i with
  | rnode n =>
    simp only [effectOf, readNode, State.setPort_node]
    cases nodeAt s.node n <;> rfl
  | rwgt n =>
    simp only [effectOf, readNode, State.setPort_node]
    split
    · rfl
    · cases nodeAt s.node n <;> rfl
  | enc b =>
    simp only [effectOf, withPort_next, show (s.setPort p).codeBitsOf b = s.codeBitsOf b from rfl, appendBits_setPort]
    rfl
  | eflush => simp only [effectOf, withPort_next, flushed_eq]; rfl
  | dec x =>
    simp only [effectOf, decBits_setPort]
    exact withPort_andThen p _ _ _ fun s => rfl
  | declast x =>
    simp only [effectOf, show (s.setPort p).lastBits x = s.lastBits x from rfl, decBits_setPort]
    exact withPort_andThen p _ _ _ fun s => endCheck_setPort _ s p
  | decend => exact endCheck_setPort _ s p
  | build => simp only [effectOf, withPort_next, builtTree_eq]; rfl
  | _ => rfl

/-- A command does the same whatever stands in the port (20_memory.md R62, R65). -/
theorem exec_setPort (i : Instr) (s : State) (p : List HostInput) : exec i (s.setPort p) = withPort p (exec i s) := by
  by_cases hi : i = .clear
  · subst hi; rfl
  · rw [exec_eq_execute hi, exec_eq_execute hi, show checksOf (s.setPort p) i = checksOf s i by cases i <;> rfl]
    exact execute_setPort _ _ _ _ _ _ (effectOf_setPort i s p)

/-- No command changes the port. -/
theorem exec_port {i : Instr} {s t : State} (h : exec i s = .next t) : t.port = s.port := by
  have := exec_setPort i s s.port
  rw [show s.setPort s.port = s from rfl, h, withPort_next, Host.Outcome.next.injEq] at this
  rw [this]
  rfl

/-! ### One input -/

/-- What the block does with one input, apart from taking it. -/
def takeEffect (x : HostInput) (s : State) : Result :=
  match x with
  | .reset => powerOnReset s
  | .command w =>
    match decode w with
    | .ok i => exec i s
    | .error _ => rejectWord (opcField w) s

theorem step_eq_takeEffect {s : State} {x : HostInput} {xs : List HostInput} (h : s.port = x :: xs) :
    step s = takeEffect x (s.setPort xs) := by
  unfold step takeInput takeEffect
  rw [h]
  cases x <;> rfl

theorem takeEffect_setPort (x : HostInput) (s : State) (p : List HostInput) :
    takeEffect x (s.setPort p) = withPort p (takeEffect x s) := by
  cases x with
  | reset => rfl
  | command w =>
    simp only [takeEffect]
    cases decode w with
    | ok i => exact exec_setPort i s p
    | error e => exact execute_setPort _ _ _ _ _ _ rfl

theorem takeEffect_port {x : HostInput} {s t : State} (h : takeEffect x s = .next t) : t.port = s.port := by
  have := takeEffect_setPort x s s.port
  rw [show s.setPort s.port = s from rfl, h, withPort_next, Host.Outcome.next.injEq] at this
  rw [this]
  rfl

/-! ### Many inputs -/

/-- The inputs' effects one after another. -/
def takeAll : List HostInput → State → Result
  | [], s => .next s
  | x :: xs, s => andThen (takeEffect x s) (takeAll xs)

theorem takeAll_append (xs ys : List HostInput) (s : State) :
    takeAll (xs ++ ys) s = andThen (takeAll xs s) (takeAll ys) := by
  induction xs generalizing s with
  | nil => rfl
  | cons x xs ih =>
    rw [List.cons_append, takeAll, takeAll, andThen_assoc]
    congr 1
    funext t
    exact ih t

theorem takeAll_port {xs : List HostInput} {s t : State} (h : takeAll xs s = .next t) : t.port = s.port := by
  induction xs generalizing s with
  | nil =>
    simp only [takeAll, Host.Outcome.next.injEq] at h
    rw [h]
  | cons x xs ih =>
    rw [takeAll, andThen_eq_next] at h
    obtain ⟨m, h1, h2⟩ := h
    rw [ih h2, takeEffect_port h1]

/-- Steps that take all the port holds have the inputs' effects, in order. -/
theorem runSteps_eq_takeAll (xs : List HostInput) (s : State) (h : s.port = xs) :
    runSteps xs.length s = takeAll xs (s.setPort []) := by
  induction xs generalizing s with
  | nil =>
    rw [show s.setPort [] = s by rw [← h]; rfl]
    rfl
  | cons x xs ih =>
    rw [List.length_cons, runSteps, step_eq_takeEffect h, takeAll]
    have e1 := takeEffect_setPort x s xs
    have e2 := takeEffect_setPort x s []
    rw [e1, e2]
    cases takeEffect x s with
    | next t => exact ih (t.setPort xs) rfl
    | fault f => rfl
    | refused r => rfl

theorem runSession_eq_takeAll (is : List Instr) {s : State} (h : s.port = []) : runSession is s = takeAll (asInputs is) s := by
  unfold runSession State.present
  have hp : (s.setPort (s.port ++ asInputs is)).port = asInputs is := by rw [h]; rfl
  have := runSteps_eq_takeAll (asInputs is) _ hp
  rw [show (asInputs is).length = is.length by simp [asInputs]] at this
  rw [show s.port.length + is.length = is.length by simp [h], this, setPort_setPort]
  rw [show s.setPort [] = s by rw [← h]; rfl]

theorem runSession_append (is js : List Instr) {s : State} (h : s.port = []) :
    runSession (is ++ js) s = andThen (runSession is s) (runSession js) := by
  rw [runSession_eq_takeAll _ h, runSession_eq_takeAll _ h, show asInputs (is ++ js) = asInputs is ++ asInputs js by simp [asInputs],
    takeAll_append]
  cases ht : takeAll (asInputs is) s with
  | next t => exact (runSession_eq_takeAll js ((takeAll_port ht).trans h)).symm
  | fault f => rfl
  | refused r => rfl

theorem runSession_nil {s : State} (h : s.port = []) : runSession [] s = .next s := by
  rw [runSession_eq_takeAll _ h]; rfl

theorem runSession_singleton {i : Instr} (hi : decode (encode i) = .ok i) {s : State} (h : s.port = []) :
    runSession [i] s = exec i s := by
  rw [runSession_eq_takeAll _ h]
  show andThen (takeEffect (.command (encode i)) s) .next = _
  rw [andThen_pure, takeEffect, hi]

theorem runSession_cons {i : Instr} (hi : decode (encode i) = .ok i) (is : List Instr) {s : State} (h : s.port = []) :
    runSession (i :: is) s = andThen (exec i s) (runSession is) := by
  rw [← runSession_singleton hi h]
  exact runSession_append [i] is h

end Sys2Proof.Machine
end

