-- ==== Sys2Proof/Laws/Streams.lean ====
section
/-! SUPPORT. Whole streams of bits: the descent over codes, and bytes that hold bits (43_encoder.md R153, 44_decoder.md R171, R176). -/

namespace Sys2Proof.Machine

/-! ### The descent over codes (44_decoder.md R171, R176) -/

theorem nodeAt_of_descend_cons {node : Vector NodeRec 255} {n m : NodeIdx} {b : Bool} {bits : List Bool}
    (h : descend node n (b :: bits) = some m) :
    ∃ r, nodeAt node n = some r ∧ descend node (if b then r.child1 else r.child0) bits = some m := by
  simp only [descend] at h
  cases hn : nodeAt node n with
  | none => simp [hn] at h
  | some r => exact ⟨r, rfl, by simpa [hn] using h⟩

/-- Bits that lead to a leaf emit its byte, and the descent goes on from the root. -/
theorem symbolsOf_code {node : Vector NodeRec 255} {n : NodeIdx} {bits : List Bool} {b : Byte} (hne : bits ≠ [])
    (h : descend node n bits = some (leafIdx b)) (rest : List Bool) :
    symbolsOf node n (bits ++ rest) = (b :: (symbolsOf node Config.root rest).1, (symbolsOf node Config.root rest).2) := by
  have hleaf : isLeafIdx (leafIdx b) = true := by
    have := b.isLt
    simp [isLeafIdx, leafIdx, Config.firstInternal]
    omega
  have hset : (leafIdx b).setWidth 8 = b := leafIdx_injective (leafIdx_setWidth (of_decide_eq_true hleaf))
  induction bits generalizing n with
  | nil => exact absurd rfl hne
  | cons x xs ih =>
    obtain ⟨r, hn, hd⟩ := nodeAt_of_descend_cons h
    rw [List.cons_append]
    simp only [symbolsOf, hn]
    generalize (if x then r.child1 else r.child0) = c at hd
    cases xs with
    | nil =>
      simp only [descend, Option.some.injEq] at hd
      subst hd
      simp only [hleaf, if_true, hset, List.nil_append]
    | cons y ys =>
      have hc : isLeafIdx c = false := by
        obtain ⟨r', hr', -⟩ := nodeAt_of_descend_cons hd
        have : ¬ c.toNat < Config.firstInternal := fun hlt => by simp [nodeAt, hlt] at hr'
        simpa [isLeafIdx] using this
      rw [hc]
      exact ih (by simp) hd

/-- The descent from the root over a stream's codes gives the stream back and rests at the root. -/
theorem symbolsOf_payloadBits {s : State} (hd : ∀ b, descend s.node Config.root (s.codeBitsOf b) = some (leafIdx b))
    (hne : ∀ b, s.codeBitsOf b ≠ []) (input : List Byte) :
    symbolsOf s.node Config.root (s.payloadBits input) = (input, Config.root) := by
  induction input with
  | nil => rfl
  | cons b bs ih =>
    rw [State.payloadBits, List.flatMap_cons, symbolsOf_code (hne b) (hd b)]
    rw [State.payloadBits] at ih
    rw [ih]

/-- A descent over two runs of bits is the two descents, one after the other. -/
theorem symbolsOf_append (node : Vector NodeRec 255) (htree : childrenInTree node) (n : NodeIdx) (hn : isInternalIdx n = true)
    (p q : List Bool) : symbolsOf node n (p ++ q) =
      ((symbolsOf node n p).1 ++ (symbolsOf node (symbolsOf node n p).2 q).1, (symbolsOf node (symbolsOf node n p).2 q).2) := by
  induction p generalizing n with
  | nil => rfl
  | cons b bs ih =>
    rw [List.cons_append]
    have hnode := nodeAt_of_internal node hn
    have hch := htree _ _ hnode
    simp only [symbolsOf, hnode]
    generalize (node[n.toNat - 256]'(by have := isInternalIdx_iff.1 hn; omega)) = r at hch
    have hle : (if b then r.child1 else r.child0).toNat ≤ 510 := by split <;> tauto
    generalize (if b then r.child1 else r.child0) = c at hle
    by_cases hl : isLeafIdx c = true
    · simp only [hl, if_true, ih Config.root isInternalIdx_root, List.cons_append]
    · have hl' : isLeafIdx c = false := by simpa using hl
      have hci : isInternalIdx c = true := by
        rw [isInternalIdx_iff]
        refine ⟨?_, hle⟩
        exact Nat.le_of_not_lt (of_decide_eq_false hl')
      simp only [hl', Bool.false_eq_true, if_false, ih c hci]

/-! ### A whole stream through the encoder -/

theorem appendBits_append (s : State) (p q : List Bool) : appendBits s (p ++ q) = appendBits (appendBits s p) q := by
  simp [appendBits]

/-- The codes a state holds are in its tables. -/
theorem codeBitsOf_congr {s t : State} (h1 : t.clen = s.clen) (h2 : t.code = s.code) (b : Byte) : t.codeBitsOf b = s.codeBitsOf b := by
  simp [State.codeBitsOf, State.clenAt, State.codeAt, h1, h2]

theorem length_payloadBits (s : State) (input : List Byte) :
    (s.payloadBits input).length = (input.map fun b => (s.clenAt b).toNat).sum := by
  induction input with
  | nil => rfl
  | cons b bs ih =>
    rw [State.payloadBits] at *
    rw [List.flatMap_cons, List.length_append, ih]
    simp [State.codeBitsOf]

/-- Bytes whose number is that of the bits hold them. -/
theorem packs_of_leValue {bytes : List Byte} {bits : List Bool} (hl : bytes.length = (bits.length + 7) / 8)
    (hv : leValue bytes = bitsToNat bits) : packs bytes bits := by
  refine ⟨hl, fun t _ => ?_⟩
  rw [← testBit_leValue, hv, testBit_bitsToNat]

/-- Bytes that hold the bits give them back. -/
theorem take_of_packs {bytes : List Byte} {bits : List Bool} (h : packs bytes bits) :
    (bytes.flatMap byteBits).take bits.length = bits := by
  have hlen : ∀ l : List Byte, (l.flatMap byteBits).length = 8 * l.length := by
    intro l
    induction l with
    | nil => rfl
    | cons x xs ih => rw [List.flatMap_cons, List.length_append, ih]; simp [byteBits]; omega
  have hget : ∀ (l : List Byte) (t : Nat), t < 8 * l.length → (l.flatMap byteBits).getD t false = (l.getD (t / 8) 0).getLsbD (t % 8) := by
    intro l
    induction l with
    | nil => simp
    | cons x xs ih =>
      intro t ht
      rw [List.flatMap_cons]
      by_cases h8 : t < 8
      · rw [List.getD_append _ _ _ _ (by simpa [byteBits] using h8), show t / 8 = 0 by omega, show t % 8 = t by omega]
        simp [byteBits, List.getD_eq_getElem?_getD, h8]
      · rw [List.getD_append_right _ _ _ _ (by simp [byteBits]; omega)]
        rw [show (byteBits x).length = 8 by simp [byteBits], ih (t - 8) (by simp at ht; omega)]
        rw [show t / 8 = (t - 8) / 8 + 1 by omega, show (t - 8) % 8 = t % 8 by omega]
        rfl
  have hle : bits.length ≤ 8 * bytes.length := by rw [h.1]; omega
  apply List.ext_getElem
  · rw [List.length_take, hlen]; omega
  · intro i h1 h2
    have := (hget bytes i (by omega)).trans (h.2 i (by omega))
    rw [List.getD_eq_getElem _ _ (by rw [hlen]; omega), List.getD_eq_getElem _ _ h2] at this
    rw [List.getElem_take]
    exact this

end Sys2Proof.Machine
end

