-- ==== Sys2Proof/Tests/Slice0.lean ====
section
/-! SUPPORT. Tests, each one step or less, with expected results taken from spec/ (95_test_vectors.md unless another
file is named); then, for every statement with hypotheses, a state and operands that meet them. -/

namespace Sys2Proof.Tests

open Sys2Proof.Machine

-- One theorem after another: many kernel evaluations at once ask for more threads than the memory limit leaves.
set_option Elab.async false

/-! ## WellFormed: an ill-formed term for each check -/

/-- 30_encoding.md R76, V-C6: RNODE 255 names a leaf. -/
theorem test_rnode_leaf_is_ill_formed : (Instr.rnode 255).wellFormed = false := by decide

/-- V-C7. -/
theorem test_rnode_511_is_ill_formed : (Instr.rnode 511).wellFormed = false := by decide

/-- V-C9. -/
theorem test_rwgt_511_is_ill_formed : (Instr.rwgt 511).wellFormed = false := by decide

/-! ## Decode: each command's word, written from R70 to R73 (the words are those of 95_test_vectors.md where it has one) -/

theorem test_decode_nop : decode 0x0000000000000000 = .ok .nop := by decide
theorem test_decode_clear : decode 0x0000000000000001 = .ok .clear := by decide
theorem test_decode_wfreq : decode 0x3EC4EC4F00000010 = .ok (.wfreq 0 0x3EC4EC4F) := by decide
theorem test_decode_rfreq : decode 0x0000000000004111 = .ok (.rfreq 0x41) := by decide
theorem test_decode_build : decode 0x0000000000000012 = .ok .build := by decide
theorem test_decode_rclen : decode 0x0000000000004113 = .ok (.rclen 0x41) := by decide
theorem test_decode_rcode : decode 0x0000000700000614 = .ok (.rcode 6 7) := by decide
theorem test_decode_rnode : decode 0x000001FD00000015 = .ok (.rnode 509) := by decide
theorem test_decode_rwgt : decode 0x000001FB00000016 = .ok (.rwgt 507) := by decide
theorem test_decode_enc : decode 0x0000000000005220 = .ok (.enc 0x52) := by decide
theorem test_decode_eflush : decode 0x0000000000000021 = .ok .eflush := by decide
theorem test_decode_setpad : decode 0x0000000000000830 = .ok (.setpad 8) := by decide
theorem test_decode_dec : decode 0x0000000000006931 = .ok (.dec 0x69) := by decide
theorem test_decode_declast : decode 0x000000000000D332 = .ok (.declast 0xD3) := by decide
theorem test_decode_decend : decode 0x0000000000000033 = .ok .decend := by decide

/-- V-C3, V-C12. -/
theorem test_decode_reserved : decode 0x02 = .error .reservedOpcode ∧ decode 0xFF = .error .reservedOpcode := by decide

/-- V-C4, V-C5, V-C10, V-C13. -/
theorem test_decode_must_be_zero : decode 0x0000000000010000 = .error .mustBeZero ∧
    decode 0x0000000100000012 = .error .mustBeZero ∧ decode 0x0000000800000514 = .error .mustBeZero ∧
    decode 0x0000000000000101 = .error .mustBeZero := by decide

/-- V-C6, V-C7, V-C9. -/
theorem test_decode_node_range : decode 0x000000FF00000015 = .error .nodeRange ∧
    decode 0x000001FF00000015 = .error .nodeRange ∧ decode 0x000001FF00000016 = .error .nodeRange := by decide

/-- P1: the assembler line and its word (30_encoding.md R82). -/
theorem test_assemble : assembleForm "WFREQ".toList [0x41, 0x3F800000] = some 0x3F80000000004110 := by decide

/-! ## One step of each command -/

/-- One step on a command word. -/
def run (s : State) (w : Nat) : Result := step (s.withFetchWord 64 w)

/-- A part of the next state. -/
def after {α : Type} (r : Result) (f : State → α) : Option α :=
  match r with
  | .next t => some (f t)
  | .fault _ => none
  | .refused _ => none

/-- A state with the upper part of the V-T3 tree and its five codes, written out from V-T3's tables. -/
def abra : State :=
  let node := State.reset.node
  let node := node.set 249 ⟨504, 255, 0, 0⟩
  let node := node.set 250 ⟨505, 0x43, 0, 0x3DBA2E8C⟩
  let node := node.set 251 ⟨506, 0x44, 0, 0x3E3A2E8C⟩
  let node := node.set 252 ⟨507, 0x42, 0, 0x3EBA2E8C⟩
  let node := node.set 253 ⟨508, 0x52, 0, 0x3F0BA2E9⟩
  let node := node.set 254 ⟨509, 0x41, 0, 0x3F800000⟩
  let clen := ((((State.reset.clen.set 0x41 1).set 0x52 2).set 0x42 3).set 0x44 4).set 0x43 5
  let code := ((((State.reset.code.set 0x41 1).set 0x52 2).set 0x42 4).set 0x44 8).set 0x43 16
  { State.reset with
    freq := State.reset.freq.set 0x41 0x3EE8BA2F, treeValid := true, node := node, clen := clen, code := code }

/-- V-C1. -/
theorem test_nop : after (run State.reset 0) State.statusView = some 0x03FC0000 := by decide +kernel

/-- V-C2, P4's end: the sticky state, a response and open streams all go. -/
theorem test_clear : after (run { abra with err := 4, errOpc := 0x32, resp := 7, encOpen := true, decOpen := true, padIn := 7 } 1)
    (fun t => (t.statusView, t.errInfoView, t.respView)) = some (0x03FC0000, 0, 0) := by decide +kernel

/-- V-W2, V-W3: the pattern is stored, the neighbour is not, and the tree is no longer valid. -/
theorem test_wfreq : after (run abra 0x3F80000000004010)
    (fun t => (t.freqAt 0x40, t.freqAt 0x41, t.treeValid)) = some (0x3F800000, 0x3EE8BA2F, false) := by decide +kernel

/-- V-E14. -/
theorem test_wfreq_open_stream : after (run { abra with encOpen := true } 0x0000000000004110)
    (fun t => (t.err, t.errOpc, t.freqAt 0x41)) = some (5, 0x10, 0x3EE8BA2F) := by decide +kernel

/-- V-W2. -/
theorem test_rfreq : after (run abra 0x0000000000004111) State.respView = some 0x3EE8BA2F := by decide +kernel

/-- V-T8, P5: a NaN weight, and the order of R203: a stream that is open is found first. -/
theorem test_build_nan : after (run { State.reset with freq := State.reset.freq.set 7 0x7FC00000 } 0x12)
      (fun t => (t.statusView, t.errInfoView)) = some (0x03FC0003, 0x12) ∧
    after (run { State.reset with freq := State.reset.freq.set 7 0x7FC00000, decOpen := true } 0x12)
      (fun t => (t.err, t.treeValid)) = some (5, false) := by decide +kernel

/-- V-T1, nodes 506 to 510: the last five merges, from the working set the first 250 leave. -/
theorem test_merges_tie_break : merges 5 250
      [⟨0, 5, 505⟩, ⟨0x3E034835, 4, 4⟩, ⟨0x3E1D89D9, 2, 2⟩, ⟨0x3E1D89D9, 3, 3⟩, ⟨0x3E37CB7D, 1, 1⟩, ⟨0x3EC4EC4F, 0, 0⟩] =
    [⟨4, 505, 4, 0x3E034835⟩, ⟨2, 506, 2, 0x3E906907⟩, ⟨1, 3, 1, 0x3EAAAAAB⟩, ⟨508, 507, 1, 0x3F1D89D9⟩,
      ⟨0, 509, 0, 0x3F800000⟩] := by decide +kernel

/-- V-F4, nodes 507 to 510: rounding changes the tree. Node 506 is the zero chain. -/
theorem test_merges_rounding : merges 4 251
      [⟨0, 3, 506⟩, ⟨0x33800000, 2, 2⟩, ⟨0x3F800000, 0, 0⟩, ⟨0x3F800000, 1, 1⟩, ⟨0x3F800000, 4, 4⟩] =
    [⟨2, 506, 2, 0x33800000⟩, ⟨0, 507, 0, 0x3F800000⟩, ⟨508, 1, 0, 0x40000000⟩, ⟨509, 4, 0, 0x40400000⟩] := by decide +kernel

/-- V-T3. -/
theorem test_rclen : after (run abra 0x0000000000004313) State.respView = some 5 := by decide +kernel

/-- V-T1, byte 6: 254 bits, four 1s, 249 0s and a 1. -/
theorem test_rcode : after (run { abra with clen := abra.clen.set 6 254, code := abra.code.set 6 (0xF + 2 ^ 253) }
    0x0000000700000614) State.respView = some 0x20000000 := by decide +kernel

/-- V-T3, node 509. -/
theorem test_rnode : after (run abra 0x000001FD00000015) State.respView = some 0x0000A5FC := by decide +kernel

/-- V-C8. -/
theorem test_rnode_no_tree : after (run State.reset 0x000001FE00000015) (fun t => (t.err, t.errOpc)) = some (2, 0x15) := by
  decide +kernel

/-- V-T3: an internal node and a leaf (42_tree_builder.md R125). -/
theorem test_rwgt : after (run abra 0x000001FB00000016) State.respView = some 0x3E3A2E8C ∧
    after (run abra 0x0000004100000016) State.respView = some 0x3EE8BA2F := by decide +kernel

/-- V-E3, the fifth command: C after 0x69 in seven bits. -/
theorem test_enc : after (run { abra with acc := 0x69, bitpos := 7, encOpen := true } 0x0000000000004320)
    (fun t => (t.out, t.bitpos, t.acc)) = some ([0x69], 4, 0x08) := by decide +kernel

/-- V-E13. -/
theorem test_enc_no_tree : after (run State.reset 0x0000000000004120)
    (fun t => (t.err, t.errOpc, t.encOpen, t.out)) = some (2, 0x20, false, []) := by decide +kernel

/-- V-E2, its last byte. -/
theorem test_eflush : after (run { abra with acc := 0x16, bitpos := 5, encOpen := true } 0x21)
    (fun t => (t.out, t.padOut, t.bitpos, t.acc, t.encOpen)) = some ([0x16], 3, 0, 0, false) := by decide +kernel

/-- V-E10. -/
theorem test_eflush_empty : after (run { State.reset with padOut := 5 } 0x21) (fun t => (t.out, t.padOut)) = some ([], 0) := by
  decide +kernel

/-- V-R13. -/
theorem test_setpad : after (run State.reset 0x0000000000000730) State.padIn = some 7 ∧
    after (run { State.reset with padIn := 2 } 0x0000000000000830) (fun t => (t.err, t.errOpc, t.padIn)) = some (3, 0x30, 2) := by
  decide +kernel

/-- V-R2, P3: the first byte. -/
theorem test_dec : after (run abra 0x0000000000006931) (fun t => (t.out, t.cursor, t.decOpen)) =
    some ([0x41, 0x42, 0x52, 0x41], 509, true) := by decide +kernel

/-- V-R2: the last byte, from node 507, where the trace of DEC 18 rests. -/
theorem test_declast : after (run { abra with cursor := 507, decOpen := true } 0x000000000000D332)
    (fun t => (t.out, t.cursor, t.decOpen, t.err)) = some ([0x44, 0x41, 0x42, 0x52, 0x41], 510, false, 0) := by decide +kernel

/-- 44_decoder.md R172, R174: one bit 0, the rest padding, leaves the cursor at node 509. -/
theorem test_declast_corrupt : after (run { abra with padIn := 7 } 0x000000000000FE32)
    (fun t => (t.out, t.cursor, t.decOpen, t.err, t.errOpc)) = some ([], 510, false, 4, 0x32) := by decide +kernel

/-- V-R11. -/
theorem test_decend_corrupt : after (run { abra with cursor := 509, decOpen := true } 0x33)
    (fun t => (t.cursor, t.decOpen, t.err, t.errOpc)) = some (510, false, 4, 0x33) := by decide +kernel

/-- V-R6. -/
theorem test_decend : after (run { abra with decOpen := true } 0x33) (fun t => (t.decOpen, t.err)) = some (false, 0) := by
  decide +kernel

/-- V-C3, V-C13, V-C14: an illegal word; the sticky state ignores a malformed CLEAR and BUILD. -/
theorem test_illegal_and_sticky : after (run State.reset 2) (fun t => (t.err, t.errOpc)) = some (1, 2) ∧
    after (run { abra with err := 2, errOpc := 0x31 } 0x0000000000000101) (fun t => (t.err, t.errOpc)) = some (2, 0x31) ∧
    after (run { State.reset with err := 2, errOpc := 0x31 } 0x12) (fun t => (t.err, t.treeValid)) = some (2, false) := by
  decide +kernel

/-! ## Binary32 and the host's weights -/

/-- V-F1, V-F2, and V-F4's tie to even. -/
theorem test_f32_add : f32Add 0x3E034835 0x3E1D89D9 = 0x3E906907 ∧ f32Add 0x3E4CCCCD 0x3ECCCCCD = 0x3F19999A ∧
    f32Add 0x3F800000 0x33800000 = 0x3F800000 := by decide +kernel

/-- V-W1. -/
theorem test_rnd32 : rnd32 15 39 = 0x3EC4EC4F ∧ rnd32 1 7 = 0x3E124925 ∧ rnd32 1 255 = 0x3B808081 ∧ rnd32 9 9 = 0x3F800000 := by
  decide +kernel

/-- 41_weights.md R103, P1: the bytes of a weight in the header. -/
theorem test_header_bytes : leBytes 0x3F800000 = [0x00, 0x00, 0x80, 0x3F] := by decide

/-! ## The hypotheses of the statements are met -/

/-- The state BUILD makes from reset. It is never evaluated: what it is comes from the laws. -/
def built : State := State.reset.builtTree

theorem legal_reset : allLegal State.reset.freq = true := by decide +kernel

theorem passes_of_reset (s : State) (hf : s.freq = State.reset.freq) (he : s.encOpen = false) (hd : s.decOpen = false) :
    firstError (checksOf s .build) = none := by
  simp [checksOf, State.streamCheck, State.streamOpen, he, hd, hf, legal_reset]

theorem exec_build_next (s : State) (he : s.err = 0) (hf : s.freq = State.reset.freq) (hn : s.encOpen = false)
    (hd : s.decOpen = false) : exec .build s = .next s.builtTree := by
  rw [exec_eq_execute (by simp), execute_of_passes he (passes_of_reset s hf hn hd)]
  rfl

theorem exec_build_reset : exec .build State.reset = .next built := exec_build_next State.reset rfl rfl rfl rfl

theorem exec_rnode_next (s : State) (n : NodeIdx) (he : s.err = 0) (hv : s.treeValid = true) (hn : isInternalIdx n = true) :
    ∃ t, exec (.rnode n) s = .next t := by
  rw [exec_eq_execute (by simp), execute_of_passes he (by simp [checksOf, State.treeCheck, hv, hn])]
  exact ⟨_, readNode_of_some (nodeAt_of_internal s.node hn)⟩

/-- A built tree with any cursor inside it, any padding count, and the streams open or not. -/
theorem built_invariants (c : NodeIdx) (p : BitVec 3) (e d : Bool) (hc : isInternalIdx c = true) (hd : d = false → c = 510) :
    Invariants { built with cursor := c, padIn := p, encOpen := e, decOpen := d } := by
  refine ⟨by simp [built, builtTree_eq, State.reset], fun _ => ⟨rfl, rfl⟩, hc, hd, fun _ => rfl, fun _ => ⟨legal_reset, rfl, rfl, rfl⟩,
    Nat.zero_le 5, fun _ => rfl⟩

theorem built_meets_the_invariants : Invariants built := built_invariants 510 0 false false (by decide) (fun _ => rfl)

theorem reset_meets_the_invariants : Invariants State.reset := by
  constructor <;> simp [State.reset, Config.root, State.streamOpen]; decide

/-- The state after a session of one ENC and EFLUSH from `built`. -/
theorem built_encodes : ∃ t, runSession (encs [0]) built = .next t ∧ t.err = 0 ∧ t.encOpen = false := by
  have h1 : exec (.enc 0) built = .next ((appendBits built (built.codeBitsOf 0)).setEncOpen true) := by
    rw [exec_eq_execute (by simp), execute_of_passes rfl rfl]
    rfl
  obtain ⟨a, p, o, h2, -, -⟩ := appendBits_frame built (built.codeBitsOf 0)
  refine ⟨flushed ((appendBits built (built.codeBitsOf 0)).setEncOpen true), ?_, ?_, ?_⟩
  · rw [encs, List.map_cons, List.map_nil, List.singleton_append, runSession_cons (by decide) _ rfl, h1, andThen_next,
      runSession_singleton (by decide) (by rw [h2]; rfl), exec_eq_execute (by simp), execute_of_passes (by rw [h2]; rfl) rfl]
    rfl
  · rw [h2, flushed_eq]; rfl
  · rw [flushed_eq]

theorem witness_DecodeOfEncodeIsTheCommand : (Instr.rnode 256).wellFormed = true ∧ (Instr.rnode 510).wellFormed = true ∧
    (Instr.rwgt 0).wellFormed = true ∧ (Instr.rwgt 510).wellFormed = true ∧ (Instr.rcode 255 7).wellFormed = true := by decide

theorem witness_EncodeOfDecodeIsTheWord : decode 0xFFFFFFFF0000FF10 = .ok (.wfreq 255 0xFFFFFFFF) := by decide

/-- One word for each case of R74, with no error and in the sticky state. -/
theorem witness_IllegalWordsRaiseIllegalCmd : State.reset.err = 0 ∧ ({ State.reset with err := 1 } : State).err ≠ 0 ∧
    (State.reset.withFetchWord 64 0x02).port = [.command 0x02] ∧
    decode 0x02 = .error .reservedOpcode ∧ decode 0x10000 = .error .mustBeZero ∧
    decode 0x000000FF00000015 = .error .nodeRange ∧ decode 0x000001FF00000015 = .error .nodeRange ∧
    decode 0x000001FF00000016 = .error .nodeRange := by decide

theorem witness_StepRunsTheDecodedCommand : (State.reset.withFetchWord 64 0x4110).port = .command 0x4110 :: [] ∧
    decode 0x4110 = .ok (.wfreq 0x41 0) ∧ 0x4110 < 2 ^ 64 ∧ decodeTableWord 64 0x4110 = some (.wfreq 0x41 0) := by decide

theorem witness_CommandsRunInTheOrderPresented : (∃ t, exec .build State.reset = .next t) ∧ State.reset.port = [] ∧
    Instr.wellFormed .build = true := ⟨⟨_, exec_build_reset⟩, rfl, rfl⟩

theorem atReset_reset : AtReset State.reset := by
  refine ⟨fun i => ?_, rfl, rfl, rfl, rfl, rfl, rfl, rfl, rfl, rfl, rfl, rfl⟩
  simp [State.freqAt, State.reset]

theorem witness_ResetGivesTheResetValues : AtReset State.reset ∧
    ({ abra with port := [.reset, .command 0] } : State).port = .reset :: [.command 0] := ⟨atReset_reset, rfl⟩

theorem witness_EmptyPortStepIsIdle : State.reset.port = [] := rfl

/-- For every `illegalWords` clause, a word of the opcode that meets it, at the edge of its range. -/
theorem witness_illegalWords : State.reset.err = 0 ∧ (State.reset.withFetchWord 64 0x10000).port = .command 0x10000 :: [] ∧
    (opcField 0x100 = 0x00 ∧ (0x100 : CmdWord) ≠ 0) ∧
    (opcField 0x101 = 0x01 ∧ (0x101 : CmdWord) ≠ 1) ∧
    (opcField 0x10010 = 0x10 ∧ rsvField 0x10010 ≠ 0) ∧
    (opcField 0x100000011 = 0x11 ∧ wordField 0x100000011 ≠ 0) ∧ (opcField 0x10011 = 0x11 ∧ rsvField 0x10011 ≠ 0) ∧
    (opcField 0x112 = 0x12 ∧ (0x112 : CmdWord) ≠ 0x12) ∧
    (opcField 0x100000013 = 0x13 ∧ wordField 0x100000013 ≠ 0) ∧
    (opcField 0x800000014 = 0x14 ∧ (wordField 0x800000014).toNat ≥ 8) ∧
    (opcField 0xFF00000015 = 0x15 ∧ (wordField 0xFF00000015).toNat < 256) ∧
    (opcField 0x1FF00000015 = 0x15 ∧ 510 < (wordField 0x1FF00000015).toNat) ∧
    (opcField 0x1FE00000115 = 0x15 ∧ byteField 0x1FE00000115 ≠ 0) ∧
    (opcField 0x1FF00000016 = 0x16 ∧ 510 < (wordField 0x1FF00000016).toNat) ∧
    (opcField 0x100000020 = 0x20 ∧ wordField 0x100000020 ≠ 0) ∧
    (opcField 0x121 = 0x21 ∧ (0x121 : CmdWord) ≠ 0x21) ∧
    (opcField 0x100000030 = 0x30 ∧ wordField 0x100000030 ≠ 0) ∧
    (opcField 0x100000031 = 0x31 ∧ wordField 0x100000031 ≠ 0) ∧
    (opcField 0x10032 = 0x32 ∧ rsvField 0x10032 ≠ 0) ∧
    (opcField 0x133 = 0x33 ∧ (0x133 : CmdWord) ≠ 0x33) := by decide

theorem witness_NopHasNoEffect : (State.reset.withFetchWord 64 0).port = .command 0 :: [] := by decide

theorem witness_ClearResetsFromEveryState : (abra.withFetchWord 64 1).port = .command 1 :: [] ∧
    ({ abra with err := 5, port := [.command 0x101] } : State).err ≠ 0 ∧ opcField 0x101 = 0x01 ∧ (0x101 : CmdWord) ≠ 1 := by
  refine ⟨rfl, ?_, ?_, ?_⟩ <;> decide

/-- Each stream open, and neither. -/
theorem witness_WfreqWritesOneWeight : State.reset.err = 0 ∧ ({ State.reset with encOpen := true } : State).encOpen = true ∧
    ({ State.reset with decOpen := true } : State).decOpen = true ∧ State.reset.encOpen = false ∧ State.reset.decOpen = false := by
  decide

theorem witness_RfreqReturnsThePattern : State.reset.err = 0 ∧ State.reset.encOpen = false ∧ State.reset.decOpen = false ∧
    ∃ t, exec (.wfreq 255 0x7FC00001) State.reset = .next t := ⟨rfl, rfl, rfl, _, rfl⟩

/-- A stream open; an illegal weight (-1.0 at 255); every weight legal. -/
theorem witness_BuildChecksThenBuilds : State.reset.err = 0 ∧ ({ State.reset with encOpen := true } : State).encOpen = true ∧
    legalWeight (({ State.reset with freq := State.reset.freq.set 255 0xBF800000 } : State).freqAt 255) = false ∧
    (∀ i, legalWeight (State.reset.freqAt i) = true) := by
  refine ⟨rfl, rfl, by decide +kernel, fun i => ?_⟩
  have : State.reset.freqAt i = 0 := atReset_reset.freq i
  rw [this]
  decide

theorem witness_BuilderMergesTheTwoLeast : allLegal State.reset.freq = true := legal_reset

/-- -0 and +infinity are legal; a chain of entries in order by weight, then by rep. -/
theorem witness_KeyOrderIsStrictAndTotal : legalWeight 0x80000000 = true ∧ legalWeight 0x7F800000 = true ∧
    keyLt ⟨0x80000000, 1, 1⟩ ⟨0, 2, 2⟩ = true ∧ keyLt ⟨0, 2, 2⟩ ⟨0x7F800000, 0, 0⟩ = true ∧ (1 : Byte) ≠ 2 := by decide

theorem witness_BuiltTreeIsFullAndOrdered : allLegal State.reset.freq = true ∧ (509 : NodeIdx).toNat < 510 :=
  ⟨legal_reset, by decide⟩

theorem witness_CodeIsThePathToTheLeaf : Invariants built ∧ built.treeValid = true ∧ (built.clenAt 0).toNat ≤ 255 :=
  ⟨built_meets_the_invariants, rfl, by have := (built.clenAt 0).isLt; omega⟩

theorem witness_CodesArePrefixFree : Invariants built ∧ built.treeValid = true ∧ (0 : Byte) ≠ 255 ∧
    [] <+: built.codeBitsOf 0 ∧ [] ≠ built.codeBitsOf 0 :=
  ⟨built_meets_the_invariants, rfl, by decide, List.nil_prefix, (built_meets_the_invariants.codeBitsOf_ne_nil rfl 0).symm⟩

/-- Two states that differ, in `PAD_IN`, with the same weights. -/
theorem witness_TreeIsAFunctionOfTheWeights : State.reset.freq = (State.reset.setPadIn 7).freq ∧
    exec .build State.reset = .next built ∧ exec .build (State.reset.setPadIn 7) = .next (State.reset.setPadIn 7).builtTree ∧
    built.err = 0 ∧ (State.reset.setPadIn 7).builtTree.err = 0 ∧ (Instr.rnode 510).wellFormed = true ∧
    (∃ u, exec (.rnode 510) built = .next u) ∧ ∃ u, exec (.rnode 510) (State.reset.setPadIn 7).builtTree = .next u :=
  ⟨rfl, exec_build_reset, exec_build_next _ rfl rfl rfl rfl, rfl, rfl, by decide, exec_rnode_next _ _ rfl rfl (by decide),
    exec_rnode_next _ _ rfl rfl (by decide)⟩

/-- A tree, a leaf index at the edge, and a command that changes `RESP`. -/
theorem witness_ReadCommandsRespond : abra.err = 0 ∧ abra.treeValid = true ∧ (255 : NodeIdx).toNat ≤ 255 ∧
    after (exec (.rclen 0x43) abra) State.resp ≠ some abra.resp := by decide +kernel

theorem witness_NoTreeStopsTheTreeCommands : State.reset.err = 0 ∧ State.reset.treeValid = false ∧
    (∀ i ∈ [Instr.rnode 256, .rwgt 510, .rclen 0, .rcode 0 7, .enc 0, .dec 0, .declast 0, .decend],
      needsTree i = true ∧ i.wellFormed = true) := by decide

theorem witness_StaleTreeCannotBeUsed : abra.err = 0 ∧ (∃ t, exec (.wfreq 0 0) abra = .next t ∧ t.err = 0) ∧
    needsTree (.enc 0x41) = true ∧ (Instr.enc 0x41).wellFormed = true := ⟨rfl, ⟨_, rfl, rfl⟩, rfl, rfl⟩

/-- A clean accumulator at both ends of `BITPOS`. -/
theorem witness_EncAppendsTheCode : abra.err = 0 ∧ abra.treeValid = true ∧ State.reset.treeValid = false ∧ abra.acc.toNat < 2 ^ abra.bitpos.toNat ∧
    (0x7F : Byte).toNat < 2 ^ (7 : BitVec 3).toNat ∧ 0 < 8 * (0 + 1) := by decide +kernel

theorem witness_EflushEndsTheStream : State.reset.err = 0 ∧ State.reset.bitpos = 0 ∧
    ({ State.reset with bitpos := 7 } : State).bitpos ≠ 0 := by decide

theorem witness_PaddingCountOfAStream : Invariants built ∧ ready built ∧ built.encOpen = false ∧
    ∃ t, runSession (encs [0]) built = .next t ∧ t.err = 0 :=
  ⟨built_meets_the_invariants, ⟨rfl, rfl⟩, rfl, built_encodes.imp fun _ h => ⟨h.1, h.2.1⟩⟩

theorem witness_EncodedBytesAreThePayload : Invariants built ∧ ready built ∧ built.encOpen = false ∧ built.treeValid = true ∧
    ∃ t, runSession (encs [0]) built = .next t ∧ t.err = 0 :=
  ⟨built_meets_the_invariants, ⟨rfl, rfl⟩, rfl, rfl, built_encodes.imp fun _ h => ⟨h.1, h.2.1⟩⟩

/-- Every one of the six commands answers a next state with a tree. -/
theorem witness_EncoderAndDecoderAreIndependent :
    ∀ i ∈ [Instr.eflush, .enc 0x43, .decend, .dec 0x69, .declast 0x69, .setpad 7], (after (exec i abra) State.err).isSome := by
  decide +kernel

/-- The edges of the range: 0, 7 and 8. -/
theorem witness_SetpadSetsTheCount : State.reset.err = 0 ∧ (0 : Byte).toNat ≤ 7 ∧ (7 : Byte).toNat ≤ 7 ∧ 7 < (8 : Byte).toNat := by
  decide

theorem witness_DecDescendsByEightBits : Invariants built ∧ built.err = 0 ∧ built.treeValid = true ∧
    State.reset.treeValid = false := ⟨built_meets_the_invariants, rfl, rfl, rfl⟩

theorem symbolsOf_one_bit (node : Vector NodeRec 255) (k : Fin 255) (b : Bool) : (symbolsOf node (internalIdx k) [b]).2 =
    if isLeafIdx (childAt node k b) then 510 else childAt node k b := by
  simp only [symbolsOf, nodeAt_internalIdx node k.isLt]
  show (if isLeafIdx (childAt node k b) then _ else _ : List Byte × NodeIdx).2 = _
  split <;> rfl

/-- One bit from node 256 ends at a leaf; one bit from the root, to node 509, does not; two bytes that differ in padding. -/
theorem witness_DeclastEndsTheStream :
    (∃ s : State, Invariants s ∧ s.err = 0 ∧ s.treeValid = true ∧
      (symbolsOf s.node s.cursor ((List.range (8 - s.padIn.toNat)).map (0 : Byte).getLsbD)).2 = 510) ∧
    (∃ (s : State) (x : Byte), Invariants s ∧ s.err = 0 ∧ s.treeValid = true ∧
      (symbolsOf s.node s.cursor ((List.range (8 - s.padIn.toNat)).map x.getLsbD)).2 ≠ 510) ∧
    (∀ j, j < 8 - ({ State.reset with padIn := 5 } : State).padIn.toNat → (0x07 : Byte).getLsbD j = (0xF7 : Byte).getLsbD j) := by
  have ht : FullTree built.node := fullTree_buildNodes _
  refine ⟨⟨{ built with cursor := 256, padIn := 7, encOpen := false, decOpen := true },
    built_invariants 256 7 false true (by decide) (by simp), rfl, rfl, ?_⟩, ?_, ?_⟩
  · exact (symbolsOf_one_bit built.node 0 false).trans (if_pos (decide_eq_true (ht.lt 0 false)))
  · obtain ⟨k, b, hk⟩ := ht.surj 509 (by decide)
    have hk1 := ht.lt k b
    have hk2 := k.isLt
    rw [hk] at hk1
    have hk3 : k = 254 := Fin.ext (by simp at hk1 ⊢; omega)
    subst hk3
    have hs := symbolsOf_one_bit built.node 254 b
    rw [hk] at hs
    refine ⟨{ built with cursor := 510, padIn := 7, encOpen := false, decOpen := false }, if b then 1 else 0,
      built_invariants 510 7 false false (by decide) (fun _ => rfl), rfl, rfl, ?_⟩
    have hb : (List.range (8 - (7 : BitVec 3).toNat)).map (if b then 1 else 0 : Byte).getLsbD = [b] := by
      cases b <;> rfl
    show (symbolsOf built.node (internalIdx (254 : Fin 255).val) ((List.range (8 - (7 : BitVec 3).toNat)).map (if b then 1 else 0 : Byte).getLsbD)).2 ≠ 510
    rw [hb, hs]
    decide
  · decide

theorem witness_DecendEndsTheStream : abra.err = 0 ∧ abra.treeValid = true ∧ State.reset.treeValid = false ∧ abra.cursor = 510 ∧
    ({ abra with cursor := 509 } : State).cursor ≠ 510 := by decide +kernel

theorem witness_DecodingInvertsEncoding : Invariants built ∧ ready built ∧ built.encOpen = false ∧ built.treeValid = true ∧
    built.decOpen = false ∧ ∃ t, runSession (encs [0]) built = .next t :=
  ⟨built_meets_the_invariants, ⟨rfl, rfl⟩, rfl, rfl, rfl, built_encodes.imp fun _ h => h.1⟩

theorem witness_DecompressInvertsCompress : State.reset.port = [] ∧ abra.port = [] := ⟨rfl, rfl⟩

theorem witness_StickyStateIgnoresCommands : ({ abra with err := 3, port := [.command 0x12] } : State).err ≠ 0 ∧
    (0x12 : CmdWord) ≠ 1 ∧ Instr.build ≠ .clear := by decide

/-- In the sticky state: an ignored command, CLEAR, and the reset input. -/
theorem witness_OnlyClearOrResetLeavesTheErrorState :
    ∀ p ∈ [HostInput.command 0x12, .command 1, .reset], (after (step { State.reset with err := 3, port := [p] }) State.err).isSome := by
  decide +kernel

/-- A command stopped by a check, and both end checks. -/
theorem witness_ErrorsArePrecise : after (exec (.enc 0) State.reset) State.err = some 2 ∧
    after (exec (.declast 0) { abra with padIn := 7 }) State.err = some 4 ∧
    after (exec .decend { abra with cursor := 509 }) State.err = some 4 := by decide +kernel

/-- Each of the five errors, and the fourth by both commands that raise it. -/
theorem witness_ErrorsHaveTheirCauses : after (exec (.rnode 255) State.reset) State.err = some 1 ∧
    after (exec (.enc 0) State.reset) State.err = some 2 ∧ after (exec (.setpad 8) State.reset) State.err = some 3 ∧
    after (exec .decend { abra with cursor := 509 }) State.err = some 4 ∧
    after (exec (.declast 0) { abra with padIn := 7 }) State.err = some 4 ∧
    after (exec (.wfreq 0 0) { abra with encOpen := true }) State.err = some 5 := by decide +kernel

theorem witness_StepKeepsTheInvariants : Invariants State.reset ∧ ∃ t, step (State.reset.withFetchWord 64 0x12) = .next t :=
  ⟨reset_meets_the_invariants, built, exec_build_reset⟩

theorem witness_EveryStepCompletes : Invariants State.reset ∧ Invariants built :=
  ⟨reset_meets_the_invariants, built_meets_the_invariants⟩

/-- A state no run reaches: a tree flag with no tree under the cursor. -/
theorem witness_OnlyTheDescentCanFault : exec (.dec 0) { State.reset with treeValid := true, cursor := 0 } = .fault (.noSuchNode 0) ∧
    (∀ x, Instr.decend ≠ .dec x) ∧ (∀ x, Instr.decend ≠ .declast x) := by
  refine ⟨?_, fun x => by simp, fun x => by simp⟩
  rw [exec_eq_execute (by simp), execute_of_passes rfl rfl]
  rfl

/-- Each flag set and cleared. -/
theorem witness_FlagsChangeOnlyAsListed : exec .build State.reset = .next built ∧ built.treeValid = true ∧
    after (exec (.wfreq 0 0) abra) State.treeValid = some false ∧ after (exec (.enc 0x41) abra) State.encOpen = some true ∧
    after (exec .eflush { abra with encOpen := true }) State.encOpen = some false ∧
    after (exec (.dec 0x69) abra) State.decOpen = some true ∧
    after (exec .decend { abra with decOpen := true }) State.decOpen = some false ∧
    after (exec .clear { abra with err := 3 }) State.err = some 0 := by
  refine ⟨exec_build_reset, rfl, ?_, ?_, ?_, ?_, ?_, ?_⟩ <;> decide +kernel

/-- Each register changed by a command. -/
theorem witness_RegistersHaveTheirWriters : after (exec (.wfreq 0x41 0) abra) (fun t => t.freqAt 0x41) ≠ some (abra.freqAt 0x41) ∧
    after (exec (.enc 0x41) abra) State.acc ≠ some abra.acc ∧
    after (exec .eflush { abra with bitpos := 1 }) State.padOut ≠ some abra.padOut ∧
    after (exec (.setpad 7) abra) State.padIn ≠ some abra.padIn ∧ after (exec (.dec 0x69) abra) State.cursor ≠ some abra.cursor ∧
    after (exec (.wfreq 0 0) abra) State.treeValid ≠ some abra.treeValid ∧ after (exec (.enc 0x41) abra) State.encOpen ≠ some abra.encOpen ∧
    after (exec (.dec 0x69) abra) State.decOpen ≠ some abra.decOpen ∧ after (exec (.rclen 0x43) abra) State.resp ≠ some abra.resp ∧
    after (exec (.rnode 0) abra) State.errOpc ≠ some abra.errOpc := by decide +kernel

theorem witness_OutOnlyGrows : after (exec (.dec 0x69) abra) State.out = some [0x41, 0x42, 0x52, 0x41] := by decide +kernel

/-- Two states that differ in the tables; BUILD is the step. -/
theorem witness_TablesWithoutATreeAreUnobservable :
    sameButTables (State.reset.withFetchWord 64 0x12) { abra with freq := State.reset.freq, treeValid := false, port := [.command 0x12] } ∧
    (State.reset.withFetchWord 64 0x12).treeValid = false ∧ step (State.reset.withFetchWord 64 0x12) = .next built ∧
    built.treeValid = true := ⟨⟨abra.node, abra.clen, abra.code, rfl⟩, rfl, exec_build_reset, rfl⟩

/-- The three ends, and an error with a stream open, which the model's order calls failed (log entry 19). -/
theorem witness_SessionEndReadsTheFlags : sessionEnd State.reset.statusView = .succeeded ∧
    sessionEnd ({ State.reset with decOpen := true } : State).statusView = .unfinished ∧
    sessionEnd ({ State.reset with err := 5 } : State).statusView = .failed ∧
    sessionEnd ({ State.reset with err := 5, encOpen := true } : State).statusView = .failed := by decide +kernel

/-- Finite operands: a rounded sum, a sum of 0 of each sign, the largest sum that stays finite and the least that does not. -/
theorem witness_SumIsRoundedToNearestEven : isNan 0x7F7FFFFF = false ∧ isInf 0x7F7FFFFF = false ∧
    isInf (f32Add 0x7F7FFFFF 0x72FFFFFF) = false ∧ isInf (f32Add 0x7F7FFFFF 0x73000000) = true ∧
    f32Add 0x80000000 0x80000000 = 0x80000000 ∧ f32Add 0x3F800000 0xBF800000 = 0 ∧
    signedUnits 0x3F800000 ≠ signedUnits 0x3F800001 := by decide +kernel

theorem witness_ComparisonIsByValue : isNan 0x80000000 = false ∧ isInf 0x80000000 = false ∧ isNan 0x7F7FFFFF = false ∧
    isInf 0x7F7FFFFF = false := by decide

/-- The empty input, an absent byte, and an input of one byte value. -/
theorem witness_NormalisedWeightsAreLegal : ([] : List Byte) = [] ∧ [(1 : Byte)].count 255 = 0 ∧ [(1 : Byte), 1] ≠ [] ∧
    [(1 : Byte), 1].count 1 = [(1 : Byte), 1].length := by decide

/-- Both ends of the range of quotients, and two finite patterns of different value. -/
theorem witness_QuotientIsRoundedToNearestEven : 0 ≤ 1 ∧ 1 ≤ 1 ∧ 0 < 1 ∧ isNan 0x7F7FFFFF = false ∧ isInf 0x7F7FFFFF = false ∧
    signedUnits 0x7F7FFFFF ≠ signedUnits 0 := by decide +kernel

theorem witness_HeaderCarriesWeightsAndPadding : (List.replicate 256 (0 : Word)).length = 256 ∧
    (List.replicate 1024 (0 : Byte)).length < 1025 := by
  constructor
  · rw [List.length_replicate]
  · rw [List.length_replicate]
    omega

end Sys2Proof.Tests
end

section
/-! Binary32 (00_scope.md R12, in the meaning of log entry 7): comparison is by value, and a sum is the nearest value.
A non-NaN pattern's place in the order (`orderKey`) fixes its value, by a strictly increasing function. -/

namespace Sys2Proof.Machine

/-! ### Comparison -/

theorem f32Lt_iff (a b : Word) : f32Lt a b = true ↔ isNan a = false ∧ isNan b = false ∧ orderKey a < orderKey b := by
  simp [f32Lt, and_assoc]

theorem f32Eq_iff (a b : Word) : f32Eq a b = true ↔ isNan a = false ∧ isNan b = false ∧ orderKey a = orderKey b := by
  simp [f32Eq, and_assoc]

theorem magField_lt_infMag {v : Word} (hn : isNan v = false) (hi : isInf v = false) : magField v < infMag := by
  rw [← Bool.not_eq_true, isNan_iff] at hn
  rw [← Bool.not_eq_true, isInf_iff] at hi
  omega

/-- The value, in units of 2^-149, of the finite pattern whose place in the order is `k`. -/
def placeUnits (k : Int) : Int := k.sign * magUnits k.natAbs

theorem placeUnits_natCast (m : Nat) : placeUnits m = magUnits m := by
  rw [placeUnits, Int.natAbs_natCast]
  cases m with
  | zero => rfl
  | succ m => rw [Int.sign_natCast_of_ne_zero m.succ_ne_zero, one_mul]

theorem placeUnits_neg (k : Int) : placeUnits (-k) = -placeUnits k := by simp [placeUnits]

/-- The order of places is the order of values. -/
theorem placeUnits_strictMono : StrictMono placeUnits := by
  refine strictMono_of_odd_strictMonoOn_nonneg placeUnits_neg fun j hj k hk hjk => ?_
  lift j to ℕ using hj
  lift k to ℕ using hk
  rw [placeUnits_natCast, placeUnits_natCast]
  exact_mod_cast magUnits_strictMono (by exact_mod_cast hjk)

theorem signedUnits_eq_placeUnits (v : Word) : signedUnits v = placeUnits (orderKey v) := by
  rw [signedUnits, orderKey, unitsOf_eq_magUnits]
  split
  · rw [placeUnits_neg, placeUnits_natCast]
  · rw [placeUnits_natCast]

theorem orderKey_lt_iff (a b : Word) : orderKey a < orderKey b ↔ signedUnits a < signedUnits b := by
  rw [signedUnits_eq_placeUnits, signedUnits_eq_placeUnits, placeUnits_strictMono.lt_iff_lt]

theorem orderKey_eq_iff (a b : Word) : orderKey a = orderKey b ↔ signedUnits a = signedUnits b := by
  rw [signedUnits_eq_placeUnits, signedUnits_eq_placeUnits, placeUnits_strictMono.injective.eq_iff]

theorem orderKey_lt_infMag {v : Word} (hn : isNan v = false) (hi : isInf v = false) : orderKey v < infMag := by
  have := magField_lt_infMag hn hi
  unfold orderKey
  split <;> omega

/-- Settles O52: on finite patterns the order of places is the order of values, and +infinity has the place above them. -/
theorem comparisonIsByValue : Obligations.ComparisonIsByValue := by
  unfold Obligations.ComparisonIsByValue
  refine ⟨fun a b na nb _ _ => ?_, fun a na ia => ?_, by decide, by decide⟩
  · rw [f32Lt_iff, f32Eq_iff, orderKey_lt_iff, orderKey_eq_iff]
    simp [na, nb]
  · have hkey : orderKey 0x7F800000 = infMag := by decide
    have hnan : isNan 0x7F800000 = false := by decide
    have hlt := orderKey_lt_infMag na ia
    rw [← Bool.not_eq_true, f32Lt_iff, f32Lt_iff, hkey]
    exact ⟨⟨na, hnan, hlt⟩, fun ⟨_, _, hgt⟩ => absurd hlt hgt.asymm⟩

/-! ### Addition -/

/-- The sign of a sum of finite patterns; a zero sum is -0 of two negative operands alone (log entry 7). -/
def sumSign (a b : Word) : Bool :=
  if signedUnits a + signedUnits b = 0 then signBit a && signBit b else decide (signedUnits a + signedUnits b < 0)

/-- A sum of finite patterns is its sign and its rounded magnitude; the zero sum is no exception. -/
theorem f32Add_of_finite {a b : Word} (na : isNan a = false) (nb : isNan b = false) (ia : isInf a = false) (ib : isInf b = false) :
    f32Add a b = withSign (sumSign a b) (roundMag (signedUnits a + signedUnits b).natAbs 1) := by
  have hzero : roundMag 0 1 = 0 := by decide
  simp only [f32Add, sumSign, na, nb, ia, ib, Bool.or_self, Bool.false_eq_true, if_false]
  split
  · rename_i hx
    rw [hx, Int.natAbs_zero, hzero]
  · rfl

theorem roundMag_lt_two_pow_31 (n d : Nat) : roundMag n d < 2 ^ 31 :=
  lt_of_le_of_lt (roundMag_le n d) (by norm_num [infMag])

theorem roundMag_eq_infMag_iff (n : Nat) : roundMag n 1 = infMag ↔ (2 ^ 25 - 1) * 2 ^ 252 ≤ n := by
  rw [← infMag_le_roundBits, roundMag, min_eq_right_iff]

theorem roundMag_of_ne_infMag {n d : Nat} (h : roundMag n d ≠ infMag) : roundMag n d = roundBits n d := by
  unfold roundMag at *
  omega

/-- A pattern with the sign of `x` is as far from `x` as its magnitude is from that of `x`. -/
theorem dist_of_sign {c : Word} {x : Int} (h : x ≠ 0 → signBit c = decide (x < 0)) :
    (signedUnits c - x).natAbs = ((unitsOf c : Int) - x.natAbs).natAbs := by
  unfold signedUnits
  by_cases hx : x = 0
  · split <;> omega
  · rw [h hx]
    simp only [decide_eq_true_eq]
    split <;> omega

/-- A pattern of either sign is no nearer to `x` than its magnitude is to that of `x`. -/
theorem dist_magnitude_le (c : Word) (x : Int) : ((unitsOf c : Int) - x.natAbs).natAbs ≤ (signedUnits c - x).natAbs := by
  unfold signedUnits
  split <;> omega

/-- The two patterns of one magnitude are as far from `x` only when `x` or both are 0. -/
theorem eq_zero_of_dist_eq {r c : Word} {x : Int} (hu : unitsOf c = unitsOf r)
    (hd : (signedUnits r - x).natAbs = (signedUnits c - x).natAbs) (hne : signedUnits c ≠ signedUnits r) : x = 0 := by
  unfold signedUnits at hd hne
  rw [hu] at hd hne
  split_ifs at hd hne <;> omega

theorem toNat_mod_two (v : Word) : v.toNat % 2 = magField v % 2 := by
  rw [toNat_eq_fields]
  split <;> omega

/-- A pattern with the sign of `x` and the rounded magnitude of `x` is nearest to `x`, and even when another is as near. -/
theorem nearest_of_sign {r : Word} {x : Int} (hsign : x ≠ 0 → signBit r = decide (x < 0))
    (hmag : magField r = roundBits x.natAbs 1) (c : Word) :
    (signedUnits r - x).natAbs ≤ (signedUnits c - x).natAbs ∧
    ((signedUnits r - x).natAbs = (signedUnits c - x).natAbs → signedUnits c ≠ signedUnits r → r.toNat % 2 = 0) := by
  obtain ⟨hle, heven⟩ := roundBits_nearest x.natAbs 1 Nat.one_pos (magField c)
  simp only [← hmag, ← unitsOf_eq_magUnits, Nat.cast_one, mul_one] at hle heven
  have hr := dist_of_sign hsign
  have hc := dist_magnitude_le c x
  refine ⟨by omega, fun heq hne => ?_⟩
  rw [toNat_mod_two]
  by_cases hm : magField c = magField r
  · have hu : unitsOf c = unitsOf r := by rw [unitsOf_eq_magUnits, unitsOf_eq_magUnits, hm]
    rw [hmag, eq_zero_of_dist_eq hu heq hne]
    rfl
  · exact heven (by omega) hm

/-- Settles O51: a sum is its sign and its rounded magnitude (`f32Add_of_finite`), and the magnitude is nearest. -/
theorem sumIsRoundedToNearestEven : Obligations.SumIsRoundedToNearestEven := by
  unfold Obligations.SumIsRoundedToNearestEven
  intro a b na nb ia ib x r
  have hr : r = withSign (sumSign a b) (roundMag x.natAbs 1) := f32Add_of_finite na nb ia ib
  have hlt := roundMag_lt_two_pow_31 x.natAbs 1
  have hmag : magField r = roundMag x.natAbs 1 := by rw [hr, magField_withSign _ _ hlt]
  have hsign : x ≠ 0 → signBit r = decide (x < 0) := fun hx => by rw [hr, signBit_withSign _ _ hlt, sumSign, if_neg hx]
  have hinf : isInf r = true ↔ (2 ^ 25 - 1) * 2 ^ 252 ≤ x.natAbs := by rw [isInf_iff, hmag, roundMag_eq_infMag_iff]
  refine ⟨hinf, ?_, fun hx => ?_, fun hi => ?_, fun hi c _ _ => ?_⟩
  · rw [← Bool.not_eq_true, isNan_iff, hmag, not_lt]
    exact roundMag_le ..
  · rw [hr, sumSign, if_pos hx, hx]
    cases signBit a && signBit b <;> decide
  · have hx : x ≠ 0 := by
      intro hx
      have := hinf.1 hi
      norm_num [hx] at this
    rw [hsign hx, decide_eq_true_eq]
  · refine nearest_of_sign hsign ?_ c
    rw [← Bool.not_eq_true, isInf_iff, hmag] at hi
    rw [hmag, roundMag_of_ne_infMag hi]

end Sys2Proof.Machine
end

section
/-! Every step keeps the invariants of 10_state.md: each command does, in each of its outcomes (`exec_cases`), and so do
the reset input and an illegal word. -/

namespace Sys2Proof.Machine

/-! ### What a command that passes its checks may rely on -/

theorem firstError_eq_none_iff {checks : List (Bool × ErrCode)} : firstError checks = none ↔ ∀ p ∈ checks, p.1 = false := by
  induction checks with
  | nil => simp
  | cons p ps ih =>
    obtain ⟨b, c⟩ := p
    cases b <;> simp [ih]

theorem treeCheck_mem_checksOf {i : Instr} (hi : needsTree i = true) (s : State) : s.treeCheck ∈ checksOf s i := by
  revert hi
  cases i <;> simp [needsTree, checksOf]

theorem treeValid_of_passes {i : Instr} {s : State} (hi : needsTree i = true) (h : firstError (checksOf s i) = none) :
    s.treeValid = true := by
  have hc := firstError_eq_none_iff.1 h _ (treeCheck_mem_checksOf hi s)
  simpa [State.treeCheck] using hc

theorem streamOpen_of_wfreq_passes {j : Byte} {v : Word} {s : State} (h : firstError (checksOf s (.wfreq j v)) = none) :
    s.streamOpen = false := firstError_eq_none_iff.1 h s.streamCheck (by simp [checksOf])

theorem allLegal_of_build_passes {s : State} (h : firstError (checksOf s .build) = none) : allLegal s.freq = true := by
  have hc := firstError_eq_none_iff.1 h (!allLegal s.freq, .corruptHeader) (by simp [checksOf])
  simpa using hc

/-! ### Updates that keep the invariants -/

theorem invariants_reset : Invariants State.reset where
  accClean := by decide
  encIdle _ := ⟨rfl, rfl⟩
  cursorInternal := isInternalIdx_root
  decIdle _ := rfl
  openHasTree h := absurd h (by decide)
  tablesCurrent h := absurd h (by decide)
  errCode := by decide
  errOpcClear _ := rfl

variable {s : State}

theorem Invariants.setPort (h : Invariants s) (p : List HostInput) : Invariants (s.setPort p) :=
  h.congr rfl rfl rfl rfl rfl rfl rfl rfl rfl rfl rfl rfl

theorem Invariants.respond (h : Invariants s) (v : Word) : Invariants (s.respond v) :=
  h.congr rfl rfl rfl rfl rfl rfl rfl rfl rfl rfl rfl rfl

theorem Invariants.setPadIn (h : Invariants s) (v : BitVec 3) : Invariants (s.setPadIn v) :=
  h.congr rfl rfl rfl rfl rfl rfl rfl rfl rfl rfl rfl rfl

theorem Invariants.resetRegs (s : State) : Invariants s.resetRegs :=
  invariants_reset.congr rfl rfl rfl rfl rfl rfl rfl rfl rfl rfl rfl rfl

theorem Invariants.setErr (h : Invariants s) (c : ErrCode) (opc : Byte) : Invariants (s.setErr c.bits opc) :=
  { h with errCode := errCode_le_five c, errOpcClear := fun hc => absurd hc (errCode_ne_zero c) }

/-- WFREQ's effect, with no stream open that could outlive its tree (R100). -/
theorem Invariants.setFreq_noTree (h : Invariants s) (hc : s.streamOpen = false) (j : Byte) (v : Word) :
    Invariants ((s.setFreq j v).setTreeValid false) :=
  { h with openHasTree := fun ho => absurd (hc.symm.trans ho) (by decide), tablesCurrent := fun hv => absurd hv (by simp) }

/-- BUILD's effect on legal weights (R121). -/
theorem Invariants.builtTree (h : Invariants s) (hl : allLegal s.freq = true) : Invariants s.builtTree := by
  rw [builtTree_eq]
  exact { h with
    cursorInternal := isInternalIdx_root
    decIdle := fun _ => rfl
    openHasTree := fun _ => rfl
    tablesCurrent := fun _ => ⟨hl, rfl, rfl, rfl⟩ }

/-- ENC's effect: the loop leaves `ACC` clean (R150). -/
theorem Invariants.appendBits (h : Invariants s) (hv : s.treeValid = true) (bits : List Bool) :
    Invariants ((appendBits s bits).setEncOpen true) := by
  obtain ⟨a, p, o, he, -, -, hclean, -⟩ := appendBits_value s bits h.accClean
  rw [he]
  exact { h with
    accClean := hclean
    encIdle := fun hc => absurd hc (by simp)
    openHasTree := fun _ => hv }

/-- EFLUSH's effect: the encoder is idle and holds nothing (R151). -/
theorem Invariants.flushed (h : Invariants s) : Invariants (flushed s) := by
  rw [flushed_eq]
  exact { h with
    accClean := Nat.one_pos
    encIdle := fun _ => ⟨rfl, rfl⟩
    openHasTree := fun ho => h.openHasTree (by simp_all [State.streamOpen]) }

/-- A descent from an internal node rests at one (R171, R173). -/
theorem Invariants.decBits (h : Invariants s) (hv : s.treeValid = true) {bits : List Bool} {t : State}
    (ht : decBits bits s = .next t) : Invariants (t.setDecOpen true) := by
  obtain ⟨he, hc, -⟩ := decBits_eq (bits := bits) (h.fullTree hv).childrenInTree h.cursorInternal
  rw [he, Host.Outcome.next.injEq] at ht
  subst ht
  exact { h with
    cursorInternal := hc
    decIdle := fun hd => absurd hd (by simp)
    openHasTree := fun _ => hv }

/-- The end check closes the decoder at the root, whatever it answers (R172). -/
theorem Invariants.endCheck (h : Invariants s) {opc : Byte} {t : State} (ht : endCheck opc s = .next t) : Invariants t := by
  have hopen : (s.setDecOpen false).streamOpen = true → s.treeValid = true :=
    fun ho => h.openHasTree (by simp_all [State.streamOpen])
  rcases endCheck_cases opc s with ⟨hc, he⟩ | ⟨-, he⟩ <;> rw [he, Host.Outcome.next.injEq] at ht <;> subst ht
  · exact { h with decIdle := fun _ => hc, openHasTree := hopen }
  · exact { h with
      cursorInternal := isInternalIdx_root
      decIdle := fun _ => rfl
      openHasTree := hopen
      errCode := errCode_le_five .corruptPayload
      errOpcClear := fun hc => absurd hc (errCode_ne_zero .corruptPayload) }

/-- The end check does not read `DEC_OPEN`, which it clears. -/
theorem endCheck_setDecOpen (opc : Byte) (s : State) (b : Bool) : endCheck opc (s.setDecOpen b) = endCheck opc s := rfl

/-! ### The commands and the step -/

/-- The effect of a command that passes its checks keeps the invariants. -/
theorem effectOf_keeps_invariants {i : Instr} {s t : State} (h : Invariants s) (hc : firstError (checksOf s i) = none)
    (ht : effectOf s i = .next t) : Invariants t := by
  have htree : needsTree i = true → s.treeValid = true := fun hi => treeValid_of_passes hi hc
  cases i with
  | rnode n =>
    simp only [effectOf, readNode_eq_next, Host.Outcome.next.injEq] at ht
    obtain ⟨r, -, rfl⟩ := ht
    exact h.respond _
  | rwgt n =>
    simp only [effectOf] at ht
    split at ht
    · cases ht
      exact h.respond _
    · simp only [readNode_eq_next, Host.Outcome.next.injEq] at ht
      obtain ⟨r, -, rfl⟩ := ht
      exact h.respond _
  | dec x =>
    simp only [effectOf, andThen_eq_next, Host.Outcome.next.injEq] at ht
    obtain ⟨m, hm, rfl⟩ := ht
    exact h.decBits (htree rfl) hm
  | declast x =>
    simp only [effectOf, andThen_eq_next] at ht
    obtain ⟨m, hm, hend⟩ := ht
    exact (h.decBits (htree rfl) hm).endCheck ((endCheck_setDecOpen _ m true).trans hend)
  | decend => exact h.endCheck ht
  | nop => cases ht; exact h
  | clear => cases ht; exact Invariants.resetRegs s
  | wfreq j v => cases ht; exact h.setFreq_noTree (streamOpen_of_wfreq_passes hc) j v
  | rfreq j => cases ht; exact h.respond _
  | build => cases ht; exact h.builtTree (allLegal_of_build_passes hc)
  | rclen b => cases ht; exact h.respond _
  | rcode b k => cases ht; exact h.respond _
  | enc b => cases ht; exact h.appendBits (htree rfl) _
  | eflush => cases ht; exact h.flushed
  | setpad p => cases ht; exact h.setPadIn _

theorem exec_keeps_invariants {i : Instr} {s t : State} (h : Invariants s) (ht : exec i s = .next t) : Invariants t := by
  rcases exec_cases i s with ⟨-, he⟩ | ⟨-, -, he⟩ | ⟨-, -, c, -, he⟩ | ⟨-, -, hc, he⟩ <;> rw [he] at ht
  · cases ht; exact Invariants.resetRegs s
  · cases ht; exact h
  · cases ht; exact h.setErr c _
  · exact effectOf_keeps_invariants h hc ht

theorem rejectWord_keeps_invariants {opc : Byte} {s t : State} (h : Invariants s) (ht : rejectWord opc s = .next t) :
    Invariants t := by
  by_cases he : s.err = 0
  · rw [rejectWord_of_clear he] at ht
    cases ht
    exact h.setErr .illegalCmd opc
  · rw [rejectWord_of_sticky he] at ht
    cases ht
    exact h

theorem takeEffect_keeps_invariants {x : HostInput} {s t : State} (h : Invariants s) (ht : takeEffect x s = .next t) :
    Invariants t := by
  cases x with
  | reset => cases ht; exact Invariants.resetRegs s
  | command w =>
    simp only [takeEffect] at ht
    cases hd : decode w with
    | ok i => rw [hd] at ht; exact exec_keeps_invariants h ht
    | error e => rw [hd] at ht; exact rejectWord_keeps_invariants h ht

/-- Settles O42: what is presented is taken from the port, and its effect keeps the invariants. -/
theorem stepKeepsTheInvariants : Obligations.StepKeepsTheInvariants := by
  unfold Obligations.StepKeepsTheInvariants
  intro s t h ht
  cases hp : s.port with
  | nil => rw [step_of_empty hp] at ht; cases ht; exact h
  | cons x xs => rw [step_eq_takeEffect hp] at ht; exact takeEffect_keeps_invariants (h.setPort xs) ht

/-- Settles O41. -/
theorem resetMeetsTheInvariants : Obligations.ResetMeetsTheInvariants := invariants_reset

end Sys2Proof.Machine
end

section
/-! Which words of an opcode are illegal, and what the commands that need the tree answer without one (30_encoding.md R73,
R74, R76; 10_state.md R23). -/

namespace Sys2Proof

/-- A decoded word meets the row of its opcode, whose operands are the command, in range. -/
theorem selects_of_decode {r : Row} {w : CmdWord} {i : Instr} (hr : r ∈ rows) (ho : opcField w = opcField r.pattern)
    (h : decode w = .ok i) : r.selects w = true ∧ r.operands w = i ∧ i.wellFormed = true := by
  obtain ⟨q, hq, hs, hi, hw⟩ := row_of_decode h
  obtain rfl := row_eq_of_opcode hr hq (ho.symm.trans (opcField_of_selects hq hs))
  exact ⟨hs, hi, hw⟩

/-- The bits from `n` up that a row asks to be 0 bound the field. -/
theorem toNat_lt_of_and_eq_zero {x m : Word} {n : Nat} (h : x &&& m = 0) (hm : ∀ j : Fin 32, n ≤ j → m.getLsbD j = true) :
    x.toNat < 2 ^ n := by
  refine Nat.lt_pow_two_of_testBit _ fun j hj => ?_
  by_cases hlt : j < 32
  · have hbit := congrArg (fun v : Word => v.getLsbD j) h
    simpa [hm ⟨j, hlt⟩ hj, BitVec.testBit_toNat] using hbit
  · exact BitVec.getLsbD_of_ge x j (by omega)

theorem toNat_nodeField {w : CmdWord} (h : (wordField w).toNat < 2 ^ 9) : (nodeField w).toNat = (wordField w).toNat := by
  simpa [nodeField] using h

end Sys2Proof

namespace Sys2Proof.Machine

/-- A row's opcode raises ILLEGAL_CMD on `bad` words when the words the row selects, with operands in range, are none. -/
theorem illegalWords_of_row {r : Row} {bad : CmdWord → Prop} (hr : r ∈ rows)
    (h : ∀ w, r.selects w = true → (r.operands w).wellFormed = true → ¬ bad w) : illegalWords (opcField r.pattern) bad := by
  intro s w ps he hp ho hbad
  cases hd : decode w with
  | ok i =>
    obtain ⟨hs, rfl, hw⟩ := selects_of_decode hr ho hd
    exact absurd hbad (h w hs hw)
  | error e =>
    rw [step_of_illegal hp hd, ho]
    exact rejectWord_of_clear he

theorem illegalWords_rclen : illegalWords 0x13 fun w => rsvField w ≠ 0 ∨ wordField w ≠ 0 := by
  have hr : rows[5] ∈ rows := List.getElem_mem _
  refine illegalWords_of_row hr fun w hs _ => ?_
  obtain ⟨-, -, -, hword⟩ := (selects_iff _ w).1 hs
  have hword : wordField w &&& 4294967295#32 = 0 := hword
  rw [word_and_ones] at hword
  simp [rsvField_of_selects hr hs, hword]

theorem illegalWords_rcode : illegalWords 0x14 fun w => rsvField w ≠ 0 ∨ (wordField w).toNat ≥ 8 := by
  have hr : rows[6] ∈ rows := List.getElem_mem _
  refine illegalWords_of_row hr fun w hs _ => ?_
  obtain ⟨-, -, -, hword⟩ := (selects_iff _ w).1 hs
  have hlt : (wordField w).toNat < 2 ^ 3 := toNat_lt_of_and_eq_zero hword (by decide)
  simpa [rsvField_of_selects hr hs] using hlt

/-- What the rows of RNODE and RWGT ask: `B` and `RSV` 0, and a word operand that is the node operand. -/
theorem fields_of_node_row {r : Row} {w : CmdWord} (hr : r ∈ rows) (hs : r.selects w = true)
    (hm : r.mask = 0xFFFFFE00FFFFFFFF) (hp : byteField r.pattern = 0 ∧ wordField r.pattern = 0) :
    byteField w = 0 ∧ rsvField w = 0 ∧ (nodeField w).toNat = (wordField w).toNat := by
  obtain ⟨-, hbyte, -, hword⟩ := (selects_iff r w).1 hs
  rw [hm, hp.1] at hbyte
  rw [hm, hp.2] at hword
  have hlt : (wordField w).toNat < 2 ^ 9 := toNat_lt_of_and_eq_zero hword (by decide)
  exact ⟨(byte_and_ones _).symm.trans hbyte, rsvField_of_selects hr hs, toNat_nodeField hlt⟩

theorem illegalWords_rnode : illegalWords 0x15 fun w =>
    byteField w ≠ 0 ∨ rsvField w ≠ 0 ∨ (wordField w).toNat < 256 ∨ 510 < (wordField w).toNat := by
  have hr : rows[7] ∈ rows := List.getElem_mem _
  refine illegalWords_of_row hr fun w hs hw => ?_
  obtain ⟨hbyte, hrsv, hnode⟩ := fields_of_node_row hr hs rfl (by decide)
  have hrange := isInternalIdx_iff.1 hw
  rw [hnode] at hrange
  simp [hbyte, hrsv, hrange]

theorem illegalWords_rwgt : illegalWords 0x16 fun w =>
    byteField w ≠ 0 ∨ rsvField w ≠ 0 ∨ 510 < (wordField w).toNat := by
  have hr : rows[8] ∈ rows := List.getElem_mem _
  refine illegalWords_of_row hr fun w hs hw => ?_
  obtain ⟨hbyte, hrsv, hnode⟩ := fields_of_node_row hr hs rfl (by decide)
  have hrange := isNodeIdx_iff.1 hw
  rw [hnode] at hrange
  simp [hbyte, hrsv, hrange]

/-- Without a tree, a well-formed command that needs one fails the tree check and no check before it. -/
theorem firstError_of_noTree {i : Instr} {s : State} (hi : needsTree i = true) (hw : i.wellFormed = true)
    (hv : s.treeValid = false) : firstError (checksOf s i) = some .noTree := by
  have ht : s.treeCheck = (true, .noTree) := by simp [State.treeCheck, hv]
  cases i with
  | rnode n => simp [checksOf, ht, show isInternalIdx n = true from hw]
  | rwgt n => simp [checksOf, ht, show isNodeIdx n = true from hw]
  | rclen | rcode | enc | dec | declast | decend => simp [checksOf, ht]
  | nop | clear | wfreq | rfreq | build | eflush | setpad => simp [needsTree] at hi

/-- R23: such a command records NO_TREE and does nothing else. -/
theorem exec_of_noTree {i : Instr} {s : State} (hi : needsTree i = true) (hw : i.wellFormed = true) (he : s.err = 0)
    (hv : s.treeValid = false) : exec i s = .next { s with err := 2, errOpc := i.opcode } := by
  have hc : i ≠ .clear := fun h => by simp [h, needsTree] at hi
  rw [exec_eq_execute hc, execute_of_fails he (firstError_of_noTree hi hw hv)]
  rfl

/-- Settles O24. -/
theorem noTreeStopsTheTreeCommands : Obligations.NoTreeStopsTheTreeCommands :=
  ⟨fun _ _ => exec_of_noTree, illegalWords_rclen, illegalWords_rcode, illegalWords_rnode, illegalWords_rwgt⟩

end Sys2Proof.Machine
end

section
/-! What each command writes and emits, read off its frame (`exec_next_cases`, `effectFrame`). -/

namespace Sys2Proof.Machine

/-- Settles O46. -/
theorem registersHaveTheirWriters : Obligations.RegistersHaveTheirWriters := by
  unfold Obligations.RegistersHaveTheirWriters
  intro i s t h hi
  rcases exec_next_cases h with ⟨hc, -⟩ | ⟨-, -, rfl⟩ | ⟨-, he, c, -, rfl⟩ | ⟨-, he, -, hf⟩
  · exact absurd hc hi
  · simp
  · simpa [he] using fun _ => errCode_ne_zero c
  · cases i with
    | clear => exact absurd rfl hi
    | nop => cases hf; simp
    | wfreq j v => cases hf; simp
    | rfreq j => cases hf; simp
    | build => cases hf; simp [builtTree_eq]
    | rclen b => cases hf; simp
    | rcode b k => cases hf; simp
    | rnode n => obtain ⟨v, rfl⟩ := hf; simp
    | rwgt n => obtain ⟨v, rfl⟩ := hf; simp
    | enc b => obtain ⟨a, p, o, rfl, -⟩ := hf; simp
    | eflush => obtain ⟨p, o, rfl, -⟩ := hf; simp
    | setpad p => cases hf; simp
    | dec x => obtain ⟨c, o, rfl, -⟩ := hf; simp
    | declast x => obtain ⟨o, -, rfl | rfl⟩ := hf <;> simp [he, Instr.opcode]
    | decend => obtain ⟨-, rfl⟩ | ⟨-, rfl⟩ := hf <;> simp [he, Instr.opcode]

/-- Settles O45: apart from CLEAR, from the writers of the flags (O46); CLEAR sets none. -/
theorem flagsChangeOnlyAsListed : Obligations.FlagsChangeOnlyAsListed := by
  unfold Obligations.FlagsChangeOnlyAsListed
  intro i s t h
  by_cases hi : i = .clear
  · subst hi
    rw [exec_clear] at h
    cases h
    simp [State.reset]
  · obtain ⟨-, -, -, -, -, -, htree, henc, hdec, -, herr, -⟩ := registersHaveTheirWriters i s t h hi
    exact ⟨fun hs ht => by simpa [hs, ht] using htree, fun hs ht => by simpa [hs, ht, hi] using htree,
      fun hs ht => by simpa [hs, ht] using henc, fun hs ht => by simpa [hs, ht, hi] using henc,
      fun hs ht => by simpa [hs, ht] using hdec, fun hs ht => by simpa [hs, ht, hi] using hdec,
      fun hs ht => absurd (herr (.inr fun hc => hs (hc ▸ ht))).1 hs⟩

/-- Settles O47. -/
theorem outOnlyGrows : Obligations.OutOnlyGrows := by
  unfold Obligations.OutOnlyGrows
  intro i s t h
  rcases exec_next_cases h with ⟨rfl, rfl⟩ | ⟨-, -, rfl⟩ | ⟨-, -, c, -, rfl⟩ | ⟨hi, -, -, hf⟩
  · simp
  · simp
  · simp
  · cases i with
    | clear => exact absurd rfl hi
    | build => cases hf; simp [builtTree_eq]
    | rnode n => obtain ⟨v, rfl⟩ := hf; simp
    | rwgt n => obtain ⟨v, rfl⟩ := hf; simp
    | enc b =>
      obtain ⟨a, p, o, rfl, hlen⟩ := hf
      have := s.bitpos.isLt
      have := (s.clenAt b).isLt
      simp; omega
    | eflush => obtain ⟨p, o, rfl, hlen⟩ := hf; simpa using hlen
    | dec x => obtain ⟨c, o, rfl, hlen⟩ := hf; simpa using hlen
    | declast x => obtain ⟨o, hlen, rfl | rfl⟩ := hf <;> simpa using hlen
    | decend => obtain ⟨-, rfl⟩ | ⟨-, rfl⟩ := hf <;> simp
    | _ => cases hf; simp

end Sys2Proof.Machine
end

section
/-! Without a tree no command reads `NODE`, `CLEN` and `CODE`, and the ones that write them write them whole (10_state.md
R23 to R25). -/

namespace Sys2Proof.Machine

/-- The states differ in the tables at most, and not at all once there is a tree. -/
def EqualUpToDeadTables (t t' : State) : Prop := sameButTables t t' ∧ (t.treeValid = true → t' = t)

theorem EqualUpToDeadTables.refl (t : State) : EqualUpToDeadTables t t := ⟨⟨t.node, t.clen, t.code, rfl⟩, fun _ => rfl⟩

variable {s t : State} (node : Vector NodeRec 255) (clen : Vector Byte 256) (code : Vector CodeBits 256)

theorem equalUpToDeadTables_setTables (ht : t.treeValid = false) : EqualUpToDeadTables t (t.setTables node clen code) :=
  ⟨⟨node, clen, code, rfl⟩, fun hv => absurd (ht.symm.trans hv) (by decide)⟩

theorem checksOf_setTables (s : State) (i : Instr) : checksOf (s.setTables node clen code) i = checksOf s i := by
  cases i <;> rfl

/-- The effect of a command that does not need the tree. -/
theorem effectOf_setTables {i : Instr} (hi : needsTree i = false) (hv : s.treeValid = false) (h : effectOf s i = .next t) :
    ∃ t', effectOf (s.setTables node clen code) i = .next t' ∧ EqualUpToDeadTables t t' := by
  cases i with
  | build => cases h; exact ⟨_, by simp only [effectOf, builtTree_eq]; rfl, .refl _⟩
  | clear => cases h; exact ⟨_, rfl, .refl _⟩
  | wfreq j v => cases h; exact ⟨_, rfl, equalUpToDeadTables_setTables node clen code rfl⟩
  | eflush =>
    cases h
    refine ⟨(flushed s).setTables node clen code, ?_, equalUpToDeadTables_setTables node clen code ?_⟩
    · simp only [effectOf, flushed_eq]; rfl
    · rw [flushed_eq]; exact hv
  | nop => cases h; exact ⟨_, rfl, equalUpToDeadTables_setTables node clen code hv⟩
  | rfreq j => cases h; exact ⟨_, rfl, equalUpToDeadTables_setTables node clen code hv⟩
  | setpad p => cases h; exact ⟨_, rfl, equalUpToDeadTables_setTables node clen code hv⟩
  | rclen | rcode | rnode | rwgt | enc | dec | declast | decend => simp [needsTree] at hi

/-- Behind the gate and the checks, which do not read the tables. -/
theorem execute_setTables {opc : Byte} {checks : List (Bool × ErrCode)} {e e' : Result} (hv : s.treeValid = false)
    (heff : firstError checks = none → e = .next t → ∃ t', e' = .next t' ∧ EqualUpToDeadTables t t')
    (h : execute opc checks s e = .next t) :
    ∃ t', execute opc checks (s.setTables node clen code) e' = .next t' ∧ EqualUpToDeadTables t t' := by
  rcases execute_cases opc checks s e with ⟨he, hx⟩ | ⟨he, c, hc, hx⟩ | ⟨he, hc, hx⟩ <;> rw [hx] at h
  · cases h
    exact ⟨_, execute_of_sticky he, equalUpToDeadTables_setTables node clen code hv⟩
  · cases h
    exact ⟨_, execute_of_fails he hc, equalUpToDeadTables_setTables node clen code hv⟩
  · rw [execute_of_passes (s := s.setTables node clen code) he hc]
    exact heff hc h

theorem exec_setTables {i : Instr} (hv : s.treeValid = false) (h : exec i s = .next t) :
    ∃ t', exec i (s.setTables node clen code) = .next t' ∧ EqualUpToDeadTables t t' := by
  by_cases hi : i = .clear
  · subst hi
    cases h
    exact ⟨_, rfl, .refl _⟩
  · rw [exec_eq_execute hi] at h ⊢
    rw [checksOf_setTables]
    refine execute_setTables node clen code hv (fun hc he => effectOf_setTables node clen code ?_ hv he) h
    by_contra hn
    exact absurd (hv.symm.trans (treeValid_of_passes (by simpa using hn) hc)) (by decide)

theorem takeEffect_setTables {x : HostInput} (hv : s.treeValid = false) (h : takeEffect x s = .next t) :
    ∃ t', takeEffect x (s.setTables node clen code) = .next t' ∧ EqualUpToDeadTables t t' := by
  cases x with
  | reset => cases h; exact ⟨_, rfl, .refl _⟩
  | command w =>
    simp only [takeEffect] at h ⊢
    cases hd : decode w with
    | ok i => rw [hd] at h; exact exec_setTables node clen code hv h
    | error e =>
      rw [hd] at h
      exact execute_setTables node clen code hv (fun hc => absurd hc (by simp)) h

/-- Settles O48. -/
theorem tablesWithoutATreeAreUnobservable : Obligations.TablesWithoutATreeAreUnobservable := by
  unfold Obligations.TablesWithoutATreeAreUnobservable
  rintro s s' t ⟨node, clen, code, rfl⟩ hv h
  show ∃ t', step (s.setTables node clen code) = .next t' ∧ EqualUpToDeadTables t t'
  cases hp : s.port with
  | nil =>
    rw [step_of_empty hp] at h
    cases h
    exact ⟨_, step_of_empty hp, equalUpToDeadTables_setTables node clen code hv⟩
  | cons x xs =>
    rw [step_eq_takeEffect hp] at h
    rw [step_eq_takeEffect (s := s.setTables node clen code) hp]
    exact takeEffect_setTables (s := s.setPort xs) node clen code hv h

end Sys2Proof.Machine
end

section
/-! The host's views: where each register stands in `STATUS` and `ERRINFO` (10_state.md R38, R39). -/

namespace Sys2Proof.Machine

@[simp] theorem getElem_flag_zero (b : Bool) : (flag b)[0] = b := by cases b <;> rfl

theorem statusView_err (s : State) : s.statusView.extractLsb' 0 4 = s.err := BitVec.extractLsb'_append_eq_right

/-- The flags of `STATUS`, and its reserved bit 7. -/
theorem statusView_flags (s : State) : s.statusView.getLsbD 4 = s.treeValid ∧ s.statusView.getLsbD 5 = s.encOpen ∧
    s.statusView.getLsbD 6 = s.decOpen ∧ s.statusView.getLsbD 7 = false := by
  simp only [State.statusView, BitVec.getLsbD_append]
  simp

/-- The fields of `STATUS` above bit 7: what is extracted is a part of one side of an append. -/
theorem statusView_fields (s : State) : s.statusView.extractLsb' 8 3 = s.bitpos ∧
    s.statusView.extractLsb' 11 3 = s.padOut ∧ s.statusView.extractLsb' 14 3 = s.padIn ∧
    s.statusView.extractLsb' 17 9 = s.cursor ∧ s.statusView.extractLsb' 26 6 = 0 := by
  unfold State.statusView
  refine ⟨?_, ?_, ?_, ?_, ?_⟩ <;>
    simp (disch := decide) only [BitVec.extractLsb'_append_eq_of_le, BitVec.extractLsb'_append_eq_of_add_le] <;>
    exact BitVec.extractLsb'_eq_self

theorem errInfoView_fields (s : State) : s.errInfoView.extractLsb' 0 8 = s.errOpc ∧ s.errInfoView.extractLsb' 8 24 = 0 :=
  ⟨BitVec.extractLsb'_append_eq_right, BitVec.extractLsb'_append_eq_left⟩

/-- Settles O49. -/
theorem viewsCopyTheRegisters : Obligations.ViewsCopyTheRegisters := by
  refine ⟨by decide, by decide, fun s => ?_⟩
  obtain ⟨htree, henc, hdec, h7⟩ := statusView_flags s
  obtain ⟨hbitpos, hpadOut, hpadIn, hcursor, h26⟩ := statusView_fields s
  obtain ⟨hopc, h8⟩ := errInfoView_fields s
  exact ⟨statusView_err s, htree, henc, hdec, h7, hbitpos, hpadOut, hpadIn, hcursor, h26, hopc, h8, rfl⟩

end Sys2Proof.Machine
end

section
/-! A command's word decodes to the command (30_encoding.md R73, R76), and the eight bytes of a byte-serial link carry a
word (20_memory.md R54). -/

namespace Sys2Proof

theorem encode_selects_row (i : Instr) : Laws.EncodingSelectsRow.Statement i := by
  cases i with
  | nop => exact Laws.EncodingSelectsRow.nop
  | clear => exact Laws.EncodingSelectsRow.clear
  | wfreq b v => exact Laws.EncodingSelectsRow.wfreq b v
  | rfreq b => exact Laws.EncodingSelectsRow.rfreq b
  | build => exact Laws.EncodingSelectsRow.build
  | rclen b => exact Laws.EncodingSelectsRow.rclen b
  | rcode b k => exact Laws.EncodingSelectsRow.rcode b k
  | rnode n => exact Laws.EncodingSelectsRow.rnode n
  | rwgt n => exact Laws.EncodingSelectsRow.rwgt n
  | enc b => exact Laws.EncodingSelectsRow.enc b
  | eflush => exact Laws.EncodingSelectsRow.eflush
  | setpad p => exact Laws.EncodingSelectsRow.setpad p
  | dec x => exact Laws.EncodingSelectsRow.dec x
  | declast x => exact Laws.EncodingSelectsRow.declast x
  | decend => exact Laws.EncodingSelectsRow.decend

theorem decode_encode {i : Instr} (hi : i.wellFormed = true) : decode (encode i) = .ok i := by
  obtain ⟨r, hr, hs, ho⟩ := encode_selects_row i
  rw [decode_of_selects hr hs, ho, if_pos hi]

theorem decodeTableWord_eq_some {nbits w : Nat} {i : Instr} :
    decodeTableWord nbits w = some i ↔ decode (tableWord nbits w) = .ok i := by
  unfold decodeTableWord
  cases decode (tableWord nbits w) <;> simp

/-! ### The byte-serial link -/

@[simp] theorem length_serialBytes (w : CmdWord) : (serialBytes w).length = 8 := by simp [serialBytes]

theorem getElem?_serialBytes (w : CmdWord) {j : Nat} (hj : j < 8) :
    (serialBytes w)[j]? = some (w.extractLsb' (8 * j) 8) := by
  simp [serialBytes, hj]

/-- Bit `i` of the word is bit `i % 8` of byte `i / 8`. -/
theorem getLsbD_wordOfSerial (bs : List Byte) {i : Nat} (hi : i < 64) :
    (wordOfSerial bs).getLsbD i = (bs.getD (i / 8) 0).getLsbD (i % 8) := by
  induction bs generalizing i with
  | nil => simp [wordOfSerial]
  | cons b bs ih =>
    rw [wordOfSerial, BitVec.getLsbD_or, BitVec.getLsbD_setWidth, BitVec.getLsbD_shiftLeft]
    by_cases h : i < 8
    · simp [hi, h, Nat.div_eq_of_lt h, Nat.mod_eq_of_lt h]
    · obtain ⟨k, rfl⟩ := Nat.exists_eq_add_of_le' (Nat.le_of_not_lt h)
      rw [BitVec.getLsbD_of_ge b (k + 8) (by omega), Nat.add_sub_cancel, ih (by omega)]
      simp [hi]

theorem wordOfSerial_serialBytes (w : CmdWord) : wordOfSerial (serialBytes w) = w := by
  apply BitVec.eq_of_getLsbD_eq
  intro i hi
  rw [getLsbD_wordOfSerial _ hi, List.getD_eq_getElem?_getD, getElem?_serialBytes w (by omega), Option.getD_some,
    BitVec.getLsbD_extractLsb', Nat.div_add_mod]
  simp [Nat.mod_lt]

theorem decodeBytes_serialBytes_append (w : CmdWord) (rest : List Byte) :
    decodeBytes (serialBytes w ++ rest) = some (decode w, rest) := by
  have hlen : ¬ (serialBytes w ++ rest).length < 8 := by simp
  rw [decodeBytes, if_neg hlen, List.take_left' (length_serialBytes w), List.drop_left' (length_serialBytes w),
    wordOfSerial_serialBytes]

/-- Settles O6. -/
theorem serialLinkCarriesTheWord : Obligations.SerialLinkCarriesTheWord := fun w rest =>
  ⟨length_serialBytes w, List.head?_eq_getElem?.trans (getElem?_serialBytes w (by decide)),
    fun _ hj => getElem?_serialBytes w hj, decodeBytes_serialBytes_append w rest⟩

end Sys2Proof
end

section
/-! The step runs the word it takes, and sessions run their commands in order (20_memory.md R59, R62, R65). -/

namespace Sys2Proof.Machine

theorem step_withFetchWord {s : State} {nbits w : Nat} {i : Instr} (h : decode (tableWord nbits w) = .ok i) :
    step (s.withFetchWord nbits w) = exec i s := step_of_ok (ps := s.port) rfl h

/-- Settles O8. -/
theorem stepRunsTheDecodedCommand : Obligations.StepRunsTheDecodedCommand :=
  ⟨fun _ _ _ _ hp hd => step_of_ok hp hd, fun _ _ _ _ hd => step_withFetchWord (decodeTableWord_eq_some.1 hd)⟩

/-- Settles O9. -/
theorem commandsRunInTheOrderPresented : Obligations.CommandsRunInTheOrderPresented :=
  ⟨fun _ _ _ h => exec_port h, fun is js _ hp => runSession_append is js hp,
    fun _ _ hp hw => runSession_singleton (decode_encode hw) hp⟩

end Sys2Proof.Machine
end

section
/-! The container's header: four bytes for each weight, then the padding count (20_memory.md R55, 41_weights.md R103, R104). -/

namespace Sys2Proof.Machine

theorem getElem?_leBytes (v : Word) {j : Nat} (hj : j < 4) : (leBytes v)[j]? = some (v.extractLsb' (8 * j) 8) := by
  simp [leBytes, hj]

@[simp] theorem length_leBytes (v : Word) : (leBytes v).length = 4 := by simp [leBytes]

theorem word_of_its_bytes (v : Word) :
    v.extractLsb' 24 8 ++ v.extractLsb' 16 8 ++ v.extractLsb' 8 8 ++ v.extractLsb' 0 8 = v := by
  simp (disch := decide) only [BitVec.extractLsb'_append_extractLsb'_eq_extractLsb']
  exact BitVec.extractLsb'_eq_self

theorem headerWeights_leBytes_append (v : Word) (rest : List Byte) :
    headerWeights (leBytes v ++ rest) = v :: headerWeights rest := congrArg (· :: headerWeights rest) (word_of_its_bytes v)

theorem headerWeights_flatMap_leBytes (t : List Word) : headerWeights (t.flatMap leBytes) = t := by
  induction t with
  | nil => rfl
  | cons v t ih => rw [List.flatMap_cons, headerWeights_leBytes_append, ih]

theorem length_flatMap_leBytes (t : List Word) : (t.flatMap leBytes).length = 4 * t.length := by
  simp [List.length_flatMap, Nat.mul_comm]

/-- Byte `4i + j` of the weights' bytes is byte `j` of weight `i`. -/
theorem getElem?_flatMap_leBytes (t : List Word) {i j : Nat} (hi : i < t.length) (hj : j < 4) :
    (t.flatMap leBytes)[4 * i + j]? = some ((t.getD i 0).extractLsb' (8 * j) 8) := by
  induction t generalizing i with
  | nil => simp at hi
  | cons v t ih =>
    cases i with
    | zero => simpa [List.getElem?_append_left, hj] using getElem?_leBytes v hj
    | succ i =>
      rw [List.flatMap_cons, List.getElem?_append_right (by simp; omega), length_leBytes,
        show 4 * (i + 1) + j - 4 = 4 * i + j by omega, ih (by simpa using hi), List.getD_cons_succ]

theorem getElem?_header (t : List Word) (p : Byte) {i j : Nat} (hi : i < t.length) (hj : j < 4) :
    (header t p)[4 * i + j]? = some ((t.getD i 0).extractLsb' (8 * j) 8) := by
  rw [header, List.getElem?_append_left (by rw [length_flatMap_leBytes]; omega), getElem?_flatMap_leBytes t hi hj]

section
variable {t : List Word} (ht : t.length = Config.nsym) (p : Byte)
include ht

theorem length_weightBytes : (t.flatMap leBytes).length = Config.hdrBytes - 1 := by
  rw [length_flatMap_leBytes, ht]; rfl

theorem take_header : (header t p).take (Config.hdrBytes - 1) = t.flatMap leBytes :=
  List.take_left' (length_weightBytes ht)

theorem drop_header : (header t p).drop (Config.hdrBytes - 1) = [p] := List.drop_left' (length_weightBytes ht)

theorem length_header : (header t p).length = Config.hdrBytes := by
  rw [header, List.length_append, length_weightBytes ht]; rfl

theorem headerWeights_take_header : headerWeights ((header t p).take (Config.hdrBytes - 1)) = t := by
  rw [take_header ht, headerWeights_flatMap_leBytes]

theorem getD_header_last : (header t p).getD (Config.hdrBytes - 1) 0 = p := by
  rw [header, List.getD_append_right _ _ _ _ (length_weightBytes ht).le, length_weightBytes ht]; rfl

theorem loadhdr_header : loadhdr (header t p) = loadw t ++ [.setpad p] := by
  rw [loadhdr, headerWeights_take_header ht, drop_header ht]; rfl

end

theorem decompress_of_short {c : List Byte} (h : c.length < Config.hdrBytes) (s : State) :
    decompress c s = .error .corruptHeader := if_pos h

/-- Settles O55. -/
theorem headerCarriesWeightsAndPadding : Obligations.HeaderCarriesWeightsAndPadding :=
  ⟨fun t p ht => ⟨length_header ht p, fun _ _ hi hj => getElem?_header t p (ht.symm ▸ hi) hj, headerWeights_take_header ht p,
    getD_header_last ht p, loadhdr_header ht p⟩, fun _ s h => decompress_of_short h s⟩

end Sys2Proof.Machine
end

section
/-! From a state that meets the invariants every step completes (70_reset_and_hazards.md R241): the node commands find their
record because their checks passed, and the descent never leaves the tree (44_decoder.md R171). -/

namespace Sys2Proof.Machine

theorem isInternalIdx_of_rnode_passes {n : NodeIdx} {s : State} (h : firstError (checksOf s (.rnode n)) = none) :
    isInternalIdx n = true := by
  have hc := firstError_eq_none_iff.1 h (!isInternalIdx n, .illegalCmd) (by simp [checksOf])
  simpa using hc

theorem isNodeIdx_of_rwgt_passes {n : NodeIdx} {s : State} (h : firstError (checksOf s (.rwgt n)) = none) :
    isNodeIdx n = true := by
  have hc := firstError_eq_none_iff.1 h (!isNodeIdx n, .illegalCmd) (by simp [checksOf])
  simpa using hc

theorem endCheck_completes (opc : Byte) (s : State) : ∃ t, endCheck opc s = .next t := by
  rcases endCheck_cases opc s with ⟨-, h⟩ | ⟨-, h⟩
  · exact ⟨_, h⟩
  · exact ⟨_, h⟩

/-- From any state, the effect of a command that does not descend completes once its checks pass. -/
theorem effectOf_completes_of_no_descent {i : Instr} {s : State} (hc : firstError (checksOf s i) = none)
    (hd : ∀ x, i ≠ .dec x) (hl : ∀ x, i ≠ .declast x) : ∃ t, effectOf s i = .next t := by
  cases i with
  | rnode n => exact ⟨_, readNode_of_some (nodeAt_of_internal s.node (isInternalIdx_of_rnode_passes hc))⟩
  | rwgt n =>
    by_cases hn : n.toNat < Config.firstInternal
    · exact ⟨_, if_pos hn⟩
    · have hi : isInternalIdx n = true :=
        isInternalIdx_iff.2 ⟨Nat.le_of_not_lt hn, isNodeIdx_iff.1 (isNodeIdx_of_rwgt_passes hc)⟩
      exact ⟨_, (if_neg hn).trans (readNode_of_some (nodeAt_of_internal s.node hi))⟩
  | dec x => exact absurd rfl (hd x)
  | declast x => exact absurd rfl (hl x)
  | decend => exact endCheck_completes 0x33 s
  | _ => exact ⟨_, rfl⟩

variable {s : State}

theorem Invariants.decBits_completes (h : Invariants s) (hv : s.treeValid = true) (bits : List Bool) :
    ∃ t, Machine.decBits bits s = .next t :=
  ⟨_, (decBits_eq (h.fullTree hv).childrenInTree h.cursorInternal).1⟩

theorem Invariants.effectOf_completes (h : Invariants s) {i : Instr} (hc : firstError (checksOf s i) = none) :
    ∃ t, effectOf s i = .next t := by
  cases i with
  | dec x =>
    obtain ⟨t, ht⟩ := h.decBits_completes (treeValid_of_passes rfl hc) (byteBits x)
    exact ⟨_, andThen_eq_next.2 ⟨t, ht, rfl⟩⟩
  | declast x =>
    obtain ⟨t, ht⟩ := h.decBits_completes (treeValid_of_passes rfl hc) (s.lastBits x)
    obtain ⟨u, hu⟩ := endCheck_completes 0x32 t
    exact ⟨u, andThen_eq_next.2 ⟨t, ht, hu⟩⟩
  | _ => exact effectOf_completes_of_no_descent hc (by simp) (by simp)

theorem Invariants.exec_completes (h : Invariants s) (i : Instr) : ∃ t, exec i s = .next t := by
  rcases exec_cases i s with ⟨-, he⟩ | ⟨-, -, he⟩ | ⟨-, -, c, -, he⟩ | ⟨-, -, hc, he⟩
  · exact ⟨_, he⟩
  · exact ⟨_, he⟩
  · exact ⟨_, he⟩
  · rw [he]
    exact h.effectOf_completes hc

theorem rejectWord_completes (opc : Byte) (s : State) : ∃ t, rejectWord opc s = .next t := by
  by_cases he : s.err = 0
  · exact ⟨_, rejectWord_of_clear he⟩
  · exact ⟨_, rejectWord_of_sticky he⟩

theorem Invariants.takeEffect_completes (h : Invariants s) (x : HostInput) : ∃ t, takeEffect x s = .next t := by
  cases x with
  | reset => exact ⟨_, rfl⟩
  | command w =>
    simp only [takeEffect]
    cases decode w with
    | ok i => exact h.exec_completes i
    | error e => exact rejectWord_completes _ s

/-- Settles O43: an empty port is an idle step, and what is taken from a port completes (`takeEffect_completes`). -/
theorem everyStepCompletes : Obligations.EveryStepCompletes := by
  unfold Obligations.EveryStepCompletes
  intro s h
  cases hp : s.port with
  | nil => exact ⟨s, step_of_empty hp⟩
  | cons x xs =>
    rw [step_eq_takeEffect hp]
    exact (h.setPort xs).takeEffect_completes x

end Sys2Proof.Machine
end

section
/-! The match table of 30_encoding.md R73 and the decoder of R77: the rows are disjoint, each word a row selects is the
encoding of the row's command, and the words without a command are those of R74. -/

namespace Sys2Proof

/-- Settles O2. -/
theorem decodeOfEncodeIsTheCommand : Obligations.DecodeOfEncodeIsTheCommand := fun _ => decode_encode

/-- Settles O4: a row that selects a word has the word's opcode, and the rows' opcodes differ. -/
theorem noWordSelectsTwoRows : Obligations.NoWordSelectsTwoRows :=
  (List.pairwise_map.1 rows_opcodes_nodup).imp_of_mem fun hr hq hne _ ⟨h, h'⟩ =>
    hne ((opcField_of_selects hr h).symm.trans (opcField_of_selects hq h'))

/-! ### The word of a decoded command -/

/-- A word a row selects has the row's opcode and `RSV` = 0. -/
theorem eq_cmdWord_of_selects {r : Row} {w : CmdWord} (hr : r ∈ rows) (hs : r.selects w = true) :
    w = cmdWord (opcField r.pattern) (byteField w) (wordField w) := by
  rw [← opcField_of_selects hr hs, cmdWord_fields w (rsvField_of_selects hr hs)]

/-- A word operand whose bits from `n` up are 0 is its low `n` bits. -/
theorem setWidth_extractLsb'_of_lt {n : Nat} {x : Word} (h : x.toNat < 2 ^ n) : (x.extractLsb' 0 n).setWidth 32 = x := by
  apply BitVec.eq_of_toNat_eq
  simpa [Nat.mod_eq_of_lt h] using x.isLt

/-- The encoding of the command a row reads from a word it selects is that word: each field is an operand, or the row
asks for it, or (a chunk or a node operand) the row asks for 0 above it. The cases are R73's rows in their order. -/
theorem encode_operands {r : Row} {w : CmdWord} (hr : r ∈ rows) (hs : r.selects w = true) : encode (r.operands w) = w := by
  refine Eq.trans ?_ (eq_cmdWord_of_selects hr hs).symm
  obtain ⟨-, hb, -, hw⟩ := (selects_iff r w).1 hs
  have hB : byteField r.mask = 255#8 → byteField w = byteField r.pattern := fun hm => by
    rw [← hb, hm, byte_and_ones]
  have hW : wordField r.mask = 4294967295#32 → wordField w = wordField r.pattern := fun hm => by
    rw [← hw, hm, word_and_ones]
  simp only [rows, List.mem_cons, List.not_mem_nil, or_false] at hr
  rcases hr with rfl | rfl | rfl | rfl | rfl | rfl | rfl | rfl | rfl | rfl | rfl | rfl | rfl | rfl | rfl
  · rw [hB rfl, hW rfl]; rfl
  · rw [hB rfl, hW rfl]; rfl
  · rfl
  · rw [hW rfl]; rfl
  · rw [hB rfl, hW rfl]; rfl
  · rw [hW rfl]; rfl
  · exact congrArg (cmdWord 0x14 _) (setWidth_extractLsb'_of_lt (toNat_lt_of_and_eq_zero hw (by decide)))
  · rw [hB rfl]
    exact congrArg (cmdWord 0x15 _) (setWidth_extractLsb'_of_lt (toNat_lt_of_and_eq_zero hw (by decide)))
  · rw [hB rfl]
    exact congrArg (cmdWord 0x16 _) (setWidth_extractLsb'_of_lt (toNat_lt_of_and_eq_zero hw (by decide)))
  · rw [hW rfl]; rfl
  · rw [hB rfl, hW rfl]; rfl
  · rw [hW rfl]; rfl
  · rw [hW rfl]; rfl
  · rw [hW rfl]; rfl
  · rw [hB rfl, hW rfl]; rfl

/-- Settles O3: a decoded word is selected by a row, and `encode_operands`. -/
theorem encodeOfDecodeIsTheWord : Obligations.EncodeOfDecodeIsTheWord := by
  unfold Obligations.EncodeOfDecodeIsTheWord
  intro w i h
  obtain ⟨r, hr, hs, rfl, hwf⟩ := row_of_decode h
  exact ⟨hwf, encode_operands hr hs⟩

/-! ### The words without a command -/

/-- A word is refused when every row that selects it reads an ill-formed command. -/
theorem decode_error_iff {w : CmdWord} :
    (∃ e, decode w = .error e) ↔ ∀ r ∈ rows, r.selects w = true → (r.operands w).wellFormed = false := by
  constructor
  · rintro ⟨e, he⟩ r hr hs
    by_contra hwf
    rw [decode_of_selects hr hs, if_pos (by simpa using hwf)] at he
    exact absurd he (by simp)
  · intro h
    cases hd : decode w with
    | error e => exact ⟨e, rfl⟩
    | ok i =>
      obtain ⟨r, hr, hs, rfl, hwf⟩ := row_of_decode hd
      exact absurd ((h r hr hs).symm.trans hwf) (by decide)

/-- Only RNODE and RWGT have an operand with a range of its own (R76). -/
theorem operands_illFormed_iff {r : Row} (hr : r ∈ rows) (w : CmdWord) : (r.operands w).wellFormed = false ↔
    (opcField r.pattern = 0x15 ∧ isInternalIdx (nodeField w) = false) ∨
    (opcField r.pattern = 0x16 ∧ isNodeIdx (nodeField w) = false) := by
  simp only [rows, List.mem_cons, List.not_mem_nil, or_false] at hr
  rcases hr with rfl | rfl | rfl | rfl | rfl | rfl | rfl | rfl | rfl | rfl | rfl | rfl | rfl | rfl | rfl <;>
    simp [Instr.wellFormed, opcField]

/-- The words R74 refuses: those no row selects, and node words out of range. -/
theorem decode_error_iff_of_fields {w : CmdWord} : (∃ e, decode w = .error e) ↔
    (∀ r ∈ rows, r.selects w = false) ∨ (opcField w = 0x15 ∧ isInternalIdx (nodeField w) = false) ∨
      (opcField w = 0x16 ∧ isNodeIdx (nodeField w) = false) := by
  rw [decode_error_iff]
  constructor
  · intro h
    by_cases hsel : ∃ r ∈ rows, r.selects w = true
    · obtain ⟨r, hr, hs⟩ := hsel
      rw [opcField_of_selects hr hs]
      exact .inr ((operands_illFormed_iff hr w).1 (h r hr hs))
    · exact .inl (by simpa using hsel)
  · rintro (h | h) r hr hs
    · exact absurd hs (by simp [h r hr])
    · rw [opcField_of_selects hr hs] at h
      exact (operands_illFormed_iff hr w).2 h

/-- A word with a reserved opcode is selected by no row. -/
theorem not_selects_of_reserved {w : CmdWord} (h : opcField w ∉ rows.map fun r => opcField r.pattern) :
    ∀ r ∈ rows, r.selects w = false := by
  intro r hr
  by_contra hs
  exact h (opcField_of_selects hr (by simpa using hs) ▸ List.mem_map_of_mem hr)

end Sys2Proof

namespace Sys2Proof.Machine

/-- Settles O5: a reserved opcode is one that no row has, and an illegal word is rejected (`rejectWord`). -/
theorem illegalWordsRaiseIllegalCmd : Obligations.IllegalWordsRaiseIllegalCmd := by
  unfold Obligations.IllegalWordsRaiseIllegalCmd
  refine ⟨fun w => ?_, by decide +kernel, fun s w ps e hp hd => ⟨fun he => ?_, fun he => ?_⟩⟩
  · rw [decode_error_iff_of_fields, ← isInternalIdx_iff, ← isNodeIdx_iff, Bool.not_eq_true, Bool.not_eq_true]
    exact ⟨.inr, fun h => h.elim (fun hres => .inl (not_selects_of_reserved hres)) id⟩
  · rw [step_of_illegal hp hd]
    exact rejectWord_of_clear he
  · rw [step_of_illegal hp hd]
    exact rejectWord_of_sticky he

end Sys2Proof.Machine
end

section
/-! The assembler's forms (30_encoding.md R82): an operand goes to its field of the command word, or there is no word. -/

namespace Sys2Proof.Machine

theorem toNat_append_eq_add {m n : Nat} (x : BitVec m) (y : BitVec n) : (x ++ y).toNat = 2 ^ n * x.toNat + y.toNat := by
  rw [BitVec.toNat_append, ← Nat.shiftLeft_add_eq_or_of_lt y.isLt, Nat.shiftLeft_eq, Nat.mul_comm]

theorem toNat_cmdWord (opc b : Byte) (w : Word) :
    (cmdWord opc b w).toNat = 2 ^ 32 * w.toNat + 2 ^ 8 * b.toNat + opc.toNat := by
  simp only [cmdWord, toNat_append_eq_add]
  simp
  omega

theorem cmdWord_or (opc opc' b b' : Byte) (w w' : Word) :
    cmdWord opc b w ||| cmdWord opc' b' w' = cmdWord (opc ||| opc') (b ||| b') (w ||| w') := by
  apply BitVec.eq_of_getLsbD_eq
  intro i hi
  simp only [BitVec.getLsbD_or, getLsbD_cmdWord]
  split_ifs <;> simp

theorem setWidth_eq_cmdWord (opc : Byte) : opc.setWidth 64 = cmdWord opc 0 0 := by
  apply BitVec.eq_of_toNat_eq
  rw [toNat_cmdWord]
  simp
  omega

theorem shiftLeft_eq_cmdWord_byte {v : Nat} (h : v < 2 ^ 8) : BitVec.ofNat 64 v <<< 8 = cmdWord 0 (BitVec.ofNat 8 v) 0 := by
  apply BitVec.eq_of_toNat_eq
  rw [toNat_cmdWord]
  simp
  omega

theorem shiftLeft_eq_cmdWord_word (v : Nat) : BitVec.ofNat 64 v <<< 32 = cmdWord 0 0 (BitVec.ofNat 32 v) := by
  apply BitVec.eq_of_toNat_eq
  rw [toNat_cmdWord]
  simp
  omega

/-- A byte operand goes to `B`. -/
theorem place_byte (opc : Byte) (w : Word) (v : Nat) : AsmField.byte.place v (cmdWord opc 0 w) =
    if v < 2 ^ 8 then some (cmdWord opc (BitVec.ofNat 8 v) w) else none := by
  refine ite_congr rfl (fun h => congrArg some ?_) fun _ => rfl
  refine (congrArg _ (shiftLeft_eq_cmdWord_byte h)).trans ?_
  simp [cmdWord_or]

/-- Every other operand goes to `W`. -/
theorem place_word {f : AsmField} (hf : f ≠ .byte) (opc b : Byte) (v : Nat) : f.place v (cmdWord opc b 0) =
    if v < f.bound then some (cmdWord opc b (BitVec.ofNat 32 v)) else none := by
  rw [AsmField.place, if_neg hf, shiftLeft_eq_cmdWord_word]
  simp [cmdWord_or]

theorem placeAll_one (f : AsmField) (v : Nat) (w : CmdWord) : placeAll [f] [v] w = f.place v w := by
  show (f.place v w).bind (placeAll [] []) = _
  cases f.place v w <;> rfl

theorem placeAll_byte (opc : Byte) (b : Nat) : placeAll [.byte] [b] (opc.setWidth 64) =
    if b < 2 ^ 8 then some (cmdWord opc (BitVec.ofNat 8 b) 0) else none := by
  rw [placeAll_one, setWidth_eq_cmdWord, place_byte]

theorem placeAll_word {f : AsmField} (hf : f ≠ .byte) (opc : Byte) (v : Nat) : placeAll [f] [v] (opc.setWidth 64) =
    if v < f.bound then some (cmdWord opc 0 (BitVec.ofNat 32 v)) else none := by
  rw [placeAll_one, setWidth_eq_cmdWord, place_word hf]

theorem placeAll_byte_word {f : AsmField} (hf : f ≠ .byte) (opc : Byte) (b v : Nat) :
    placeAll [.byte, f] [b, v] (opc.setWidth 64) =
      if b < 2 ^ 8 ∧ v < f.bound then some (cmdWord opc (BitVec.ofNat 8 b) (BitVec.ofNat 32 v)) else none := by
  rw [placeAll, setWidth_eq_cmdWord, place_byte]
  by_cases hb : b < 2 ^ 8
  · rw [if_pos hb, Option.bind_some, placeAll_one, place_word hf]
    simp only [hb, true_and]
  · rw [if_neg hb, if_neg fun h => hb h.1, Option.bind_none]

theorem placeAll_node (opc : Byte) (n : Nat) : placeAll [.node] [n] (opc.setWidth 64) =
    if n < 2 ^ 9 then some (cmdWord opc 0 ((BitVec.ofNat 9 n).setWidth 32)) else none := by
  rw [placeAll_word (by decide)]
  refine ite_congr rfl (fun h => ?_) fun _ => rfl
  rw [BitVec.setWidth_ofNat_of_le_of_lt (by decide) h]

/-- Settles O7: a form is its opcode with its operands placed, which the lemmas above say for each kind of form. -/
theorem assemblerFormsEncode : Obligations.AssemblerFormsEncode := by
  unfold Obligations.AssemblerFormsEncode
  refine ⟨fun i v => ?_, fun b k => ?_, fun n => ⟨?_, ?_⟩, fun b => ⟨?_, ?_, ?_, ?_, ?_, ?_⟩,
    by decide, by decide, by decide, by decide, by decide⟩
  · exact placeAll_byte_word (by decide) 0x10 i v
  · refine (placeAll_byte_word (f := .chunk) (by decide) 0x14 b k).trans (ite_congr rfl (fun h => ?_) fun _ => rfl)
    rw [← BitVec.setWidth_ofNat_of_le_of_lt (show 3 ≤ 32 by decide) h.2]
    rfl
  · exact placeAll_node 0x15 n
  · exact placeAll_node 0x16 n
  · exact placeAll_byte 0x11 b
  · exact placeAll_byte 0x13 b
  · exact placeAll_byte 0x20 b
  · exact placeAll_byte 0x30 b
  · exact placeAll_byte 0x31 b
  · exact placeAll_byte 0x32 b

end Sys2Proof.Machine
end

section
/-! The responses of the five read commands (30_encoding.md R79), and that no other command but CLEAR writes `RESP`. -/

namespace Sys2Proof.Machine

theorem exec_of_passes {i : Instr} {s : State} (hi : i ≠ .clear) (he : s.err = 0) (hc : firstError (checksOf s i) = none) :
    exec i s = effectOf s i := by
  rw [exec_eq_execute hi, execute_of_passes he hc]

/-- With no error recorded RFREQ answers, tree or not. -/
theorem exec_rfreq {s : State} (he : s.err = 0) (i : Byte) : exec (.rfreq i) s = .next (s.respond (s.freqAt i)) :=
  exec_of_passes (by simp) he rfl

section
variable {s : State} (he : s.err = 0) (hv : s.treeValid = true)
include he hv

/-- With a tree, an in-range command that needs it passes its checks and has its effect. -/
theorem exec_of_tree {i : Instr} (hi : needsTree i = true) (hw : i.wellFormed = true) : exec i s = effectOf s i := by
  have ht : s.treeCheck = (false, .noTree) := by simp [State.treeCheck, hv]
  have hne : i ≠ .clear := fun h => by simp [h, needsTree] at hi
  refine exec_of_passes hne he ?_
  cases i with
  | rnode n => simp [checksOf, ht, show isInternalIdx n = true from hw]
  | rwgt n => simp [checksOf, ht, show isNodeIdx n = true from hw]
  | rclen | rcode | enc | dec | declast | decend => simp [checksOf, ht]
  | nop | clear | wfreq | rfreq | build | eflush | setpad => simp [needsTree] at hi

theorem exec_rwgt_leaf {n : NodeIdx} (hn : n.toNat ≤ 255) :
    exec (.rwgt n) s = .next (s.respond (s.freqAt (n.setWidth 8))) := by
  have hw : (Instr.rwgt n).wellFormed = true := isNodeIdx_iff.2 (by omega)
  rw [exec_of_tree he hv rfl hw]
  exact if_pos (Nat.lt_succ_of_le hn)

theorem exec_rwgt_internal (k : Fin 255) : exec (.rwgt (internalIdx k)) s = .next (s.respond s.node[k].w) := by
  have hk := toNat_internalIdx (show k.val < 256 by omega)
  have hw : (Instr.rwgt (internalIdx k)).wellFormed = true := isNodeIdx_iff.2 (by omega)
  have hn : ¬ (internalIdx k).toNat < Config.firstInternal := by simp [hk, Config.firstInternal]
  rw [exec_of_tree he hv rfl hw]
  exact (if_neg hn).trans (readNode_of_some (nodeAt_internalIdx s.node k.isLt))

theorem exec_rnode_internal (k : Fin 255) :
    exec (.rnode (internalIdx k)) s = .next (s.respond (nodeResponse s.node[k])) := by
  have hk := toNat_internalIdx (show k.val < 256 by omega)
  have hw : (Instr.rnode (internalIdx k)).wellFormed = true := isInternalIdx_iff.2 (by omega)
  rw [exec_of_tree he hv rfl hw]
  exact readNode_of_some (nodeAt_internalIdx s.node k.isLt)

theorem exec_rclen (b : Byte) : exec (.rclen b) s = .next (s.respond ((s.clenAt b).setWidth 32)) :=
  exec_of_tree he hv rfl rfl

theorem exec_rcode (b : Byte) (k : BitVec 3) : exec (.rcode b k) s = .next (s.respond (s.codeChunk b k)) :=
  exec_of_tree he hv rfl rfl

end

/-- The fields of RNODE's response. -/
theorem nodeResponse_fields (r : NodeRec) : (nodeResponse r).extractLsb' 0 9 = r.child0 ∧
    (nodeResponse r).extractLsb' 9 9 = r.child1 ∧ (nodeResponse r).extractLsb' 18 8 = r.rep ∧
    (nodeResponse r).extractLsb' 26 6 = 0 := by
  unfold nodeResponse
  refine ⟨?_, ?_, ?_, ?_⟩ <;>
    simp (disch := decide) only [BitVec.extractLsb'_append_eq_of_le, BitVec.extractLsb'_append_eq_of_add_le] <;>
    exact BitVec.extractLsb'_eq_self

theorem getLsbD_codeChunk (s : State) (b : Byte) (k : BitVec 3) {j : Nat} (hj : j < 32) : (s.codeChunk b k).getLsbD j =
    (decide (32 * k.toNat + j < (s.clenAt b).toNat) && (s.codeAt b).getLsbD (32 * k.toNat + j)) := by
  rw [State.codeChunk, getLsbD_ofNat_bitsToNat]
  simp [hj]

/-- Settles O23: the five commands one by one; the other writers of `RESP` are ruled out by O46. -/
theorem readCommandsRespond : Obligations.ReadCommandsRespond := by
  unfold Obligations.ReadCommandsRespond
  refine ⟨fun i s he => exec_rfreq he i, fun n s he hv hn => exec_rwgt_leaf he hv hn, fun k s he hv =>
    ⟨exec_rwgt_internal he hv k, _, exec_rnode_internal he hv k, nodeResponse_fields _⟩, fun b s he hv => exec_rclen he hv b,
    fun b k s he hv => ⟨_, exec_rcode he hv b k, fun j hj => getLsbD_codeChunk s b k hj⟩, fun i s t h hresp => ?_⟩
  by_cases hi : i = .clear
  · exact .inl hi
  · obtain ⟨-, -, -, -, -, -, -, -, -, hwriter, -, -⟩ := registersHaveTheirWriters i s t h hi
    exact .inr (hwriter hresp)

end Sys2Proof.Machine
end

section
/-! Words written out from the field layout and the opcode map (30_encoding.md R70 to R73). -/

namespace Sys2Proof

/-- Settles O1: each word is the encoding of its command. -/
theorem writtenWordsDecode : Obligations.WrittenWordsDecode :=
  ⟨decode_encode (i := .nop) rfl, decode_encode (i := .wfreq 0x41 0x3F800000) rfl, decode_encode (i := .build) rfl,
    decode_encode (i := .rcode 6 7) rfl, decode_encode (i := .rnode 510) rfl, decode_encode (i := .enc 0x41) rfl,
    decode_encode (i := .declast 0xD3) rfl⟩

end Sys2Proof
end

section
/-! The weight table commands: WFREQ writes one weight while no stream is open, and RFREQ answers it (41_weights.md R100, R101). -/

namespace Sys2Proof.Machine

theorem illegalWords_wfreq : illegalWords 0x10 fun w => rsvField w ≠ 0 := by
  have hr : rows[2] ∈ rows := List.getElem_mem _
  exact illegalWords_of_row hr fun w hs _ hrsv => hrsv (rsvField_of_selects hr hs)

/-- A row that asks for `W` = 0 raises ILLEGAL_CMD on words with a nonzero `RSV` or `W`. -/
theorem illegalWords_of_wordless_row {r : Row} (hr : r ∈ rows) (hm : wordField r.mask = 4294967295#32)
    (hp : wordField r.pattern = 0) : illegalWords (opcField r.pattern) fun w => rsvField w ≠ 0 ∨ wordField w ≠ 0 := by
  refine illegalWords_of_row hr fun w hs _ => ?_
  obtain ⟨-, -, -, hword⟩ := (selects_iff r w).1 hs
  rw [hm, word_and_ones, hp] at hword
  simp [rsvField_of_selects hr hs, hword]

theorem illegalWords_rfreq : illegalWords 0x11 fun w => rsvField w ≠ 0 ∨ wordField w ≠ 0 :=
  illegalWords_of_wordless_row (r := rows[3]) (List.getElem_mem _) (by decide) (by decide)

theorem freqAt_setFreq (s : State) (i j : Byte) (v : Word) : (s.setFreq i v).freqAt j = if j = i then v else s.freqAt j := by
  simp only [State.freqAt, State.setFreq_freq, Vector.getElem_set, BitVec.toNat_inj, eq_comm]

section
variable {s : State} (he : s.err = 0)
include he

theorem exec_wfreq_of_open (ho : s.streamOpen = true) (i : Byte) (v : Word) :
    exec (.wfreq i v) s = .next { s with err := 5, errOpc := 0x10 } := by
  have hc : firstError (checksOf s (.wfreq i v)) = some .sequence := by simp [checksOf, State.streamCheck, ho]
  rw [exec_eq_execute (by simp), execute_of_fails he hc]
  rfl

theorem exec_wfreq_of_closed (ho : s.streamOpen = false) (i : Byte) (v : Word) :
    exec (.wfreq i v) s = .next ((s.setFreq i v).setTreeValid false) :=
  exec_of_passes (by simp) he (by simp [checksOf, State.streamCheck, ho])

end

/-- Settles O14. -/
theorem wfreqWritesOneWeight : Obligations.WfreqWritesOneWeight := by
  unfold Obligations.WfreqWritesOneWeight
  refine ⟨fun i v s he ho => ?_, fun i v s he henc hdec => ?_, illegalWords_wfreq⟩
  · exact exec_wfreq_of_open he (by simpa [State.streamOpen] using ho) i v
  · exact ⟨_, exec_wfreq_of_closed he (by simp [State.streamOpen, henc, hdec]) i v, rfl, fun j => freqAt_setFreq s i j v⟩

/-- Settles O15: WFREQ's effect leaves `ERR` 0, so that RFREQ answers the entry it wrote. -/
theorem rfreqReturnsThePattern : Obligations.RfreqReturnsThePattern := by
  unfold Obligations.RfreqReturnsThePattern
  refine ⟨fun i s he => exec_rfreq he i, fun i v s t he henc hdec h => ?_, illegalWords_rfreq⟩
  rw [exec_wfreq_of_closed he (by simp [State.streamOpen, henc, hdec]), Host.Outcome.next.injEq] at h
  subst h
  exact ⟨_, exec_rfreq (s := (s.setFreq i v).setTreeValid false) he i, (freqAt_setFreq s i i v).trans (if_pos rfl)⟩

end Sys2Proof.Machine
end

section
/-! `rnd32` of a quotient in [0, 1], and the host's weights, which are such quotients (41_weights.md R102). -/

namespace Sys2Proof.Machine

/-! ### Rounding at a pattern's own value -/

/-- A quotient at most the value of a pattern is rounded to that pattern at most. -/
theorem roundBits_le_of_le {n d m : Nat} (hd : 0 < d) (h : n ≤ magUnits m * d) : roundBits n d ≤ m := by
  by_contra hlt
  have hmul : magUnits m * d < magUnits (roundBits n d) * d :=
    Nat.mul_lt_mul_of_pos_right (magUnits_strictMono (by omega)) hd
  have hnear := (roundBits_nearest n d hd m).1
  zify at h hmul
  omega

/-- A quotient that is the value of a pattern is rounded to that pattern: no other is at distance 0. -/
theorem roundBits_of_exact {d : Nat} (hd : 0 < d) (m : Nat) : roundBits (magUnits m * d) d = m := by
  have hnear := (roundBits_nearest (magUnits m * d) d hd m).1
  rw [Nat.cast_mul, sub_self, Int.natAbs_zero, Nat.le_zero, Int.natAbs_eq_zero, sub_eq_zero] at hnear
  exact magUnits_strictMono.injective (Nat.eq_of_mul_eq_mul_right hd (by exact_mod_cast hnear))

/-! ### The pattern of a quotient in [0, 1] -/

/-- The magnitude bits of 1.0. -/
def oneMag : Nat := 0x3F800000

theorem magUnits_oneMag : magUnits oneMag = 2 ^ 149 := magUnits_pattern 126 (2 ^ 23) (by norm_num) fun _ => le_rfl

section
variable {n d : Nat} (h : n ≤ d) (hd : 0 < d)
include h hd

theorem roundBits_le_oneMag : roundBits (n * 2 ^ 149) d ≤ oneMag := by
  refine roundBits_le_of_le hd ?_
  rw [magUnits_oneMag, Nat.mul_comm]
  exact Nat.mul_le_mul_left _ h

/-- Such a quotient does not overflow. -/
theorem rnd32_of_le_one : rnd32 n d = withSign false (roundBits (n * 2 ^ 149) d) := by
  have hle := roundBits_le_oneMag h hd
  rw [rnd32, roundMag, min_eq_left (hle.trans (by decide))]

theorem signBit_rnd32 : signBit (rnd32 n d) = false := by
  rw [rnd32_of_le_one h hd]
  exact signBit_withSign _ _ ((roundBits_le_oneMag h hd).trans_lt (by decide))

theorem magField_rnd32 : magField (rnd32 n d) = roundBits (n * 2 ^ 149) d := by
  rw [rnd32_of_le_one h hd]
  exact magField_withSign _ _ ((roundBits_le_oneMag h hd).trans_lt (by decide))

theorem magField_rnd32_le : magField (rnd32 n d) ≤ oneMag := by
  rw [magField_rnd32 h hd]
  exact roundBits_le_oneMag h hd

theorem magField_rnd32_lt_infMag : magField (rnd32 n d) < infMag := (magField_rnd32_le h hd).trans_lt (by decide)

theorem toNat_rnd32_le : (rnd32 n d).toNat ≤ oneMag := by
  simpa [toNat_eq_fields, signBit_rnd32 h hd] using magField_rnd32_le h hd

theorem legalWeight_rnd32 : legalWeight (rnd32 n d) = true :=
  (legalWeight_iff _).2 ⟨(magField_rnd32_lt_infMag h hd).le, by simp [signBit_rnd32 h hd]⟩

theorem signedUnits_rnd32 : signedUnits (rnd32 n d) = magUnits (roundBits (n * 2 ^ 149) d) := by
  rw [signedUnits, if_neg (by simp [signBit_rnd32 h hd]), unitsOf_eq_magUnits, magField_rnd32 h hd]

end

theorem rnd32_zero {d : Nat} (hd : 0 < d) : rnd32 0 d = 0 := by
  have hbits : roundBits (0 * 2 ^ 149) d = 0 := by simpa [magUnits] using roundBits_of_exact hd 0
  rw [rnd32_of_le_one d.zero_le hd, hbits]
  rfl

theorem rnd32_self {d : Nat} (hd : 0 < d) : rnd32 d d = 0x3F800000 := by
  have hbits : roundBits (d * 2 ^ 149) d = oneMag := by
    rw [Nat.mul_comm, ← magUnits_oneMag, roundBits_of_exact hd]
  rw [rnd32_of_le_one le_rfl hd, hbits]
  rfl

/-! ### The nearest pattern -/

/-- A pattern of either sign is no nearer to a nonnegative quotient than some magnitude: its own, or for a negative
pattern 0. It is as near only when it has that value. -/
theorem exists_magnitude_as_near (c : Word) {d : Nat} (hd : 0 < d) (n : Nat) : ∃ m,
    ((magUnits m : Int) * d - n).natAbs ≤ (signedUnits c * d - n).natAbs ∧
    (((magUnits m : Int) * d - n).natAbs = (signedUnits c * d - n).natAbs → (magUnits m : Int) = signedUnits c) := by
  rw [signedUnits, unitsOf_eq_magUnits]
  split
  · have hzero : magUnits 0 = 0 := rfl
    have hprod : -(magUnits (magField c) : Int) * d = -((magUnits (magField c) * d : Nat) : Int) := by push_cast; ring
    refine ⟨0, ?_, fun heq => ?_⟩
    · rw [hprod, hzero]
      omega
    · rw [hprod, hzero] at heq
      have hmul : magUnits (magField c) * d = 0 := by omega
      have hmag : magUnits (magField c) = 0 := (Nat.mul_eq_zero.1 hmul).resolve_right hd.ne'
      simp [hzero, hmag]
  · exact ⟨magField c, le_rfl, fun _ => rfl⟩

/-- Settles O54: any pattern is compared with a magnitude as near, and no magnitude is nearer than the rounded one. -/
theorem quotientIsRoundedToNearestEven : Obligations.QuotientIsRoundedToNearestEven := by
  unfold Obligations.QuotientIsRoundedToNearestEven
  intro n d h hd r off
  have hlt : magField r < infMag := magField_rnd32_lt_infMag h hd
  refine ⟨?_, ?_, signBit_rnd32 h hd, fun c _ _ => ?_⟩
  · rw [← Bool.not_eq_true, isNan_iff]
    omega
  · rw [← Bool.not_eq_true, isInf_iff]
    omega
  have hr : signedUnits r = magUnits (roundBits (n * 2 ^ 149) d) := signedUnits_rnd32 h hd
  have hoff : ∀ v, off v = (signedUnits v * d - (n * 2 ^ 149 : Nat)).natAbs := fun v => by simp [off]
  obtain ⟨m, hm, hvalue⟩ := exists_magnitude_as_near c hd (n * 2 ^ 149)
  obtain ⟨hnear, heven⟩ := roundBits_nearest (n * 2 ^ 149) d hd m
  rw [hoff, hoff, hr]
  refine ⟨hnear.trans hm, fun htie hne => ?_⟩
  have hmc : (magUnits m : Int) = signedUnits c := hvalue (le_antisymm hm (htie ▸ hnear))
  rw [toNat_mod_two, magField_rnd32 h hd]
  refine heven (by rw [hmc]; exact htie) ?_
  rintro rfl
  exact hne hmc.symm

/-! ### The host's weights -/

theorem length_normalise (input : List Byte) : (normalise input).length = 256 := by simp [normalise, Config.nsym]

theorem normalise_nil : normalise [] = List.replicate 256 0 := by simp [normalise, Config.nsym]

section
variable {input : List Byte} (hi : input ≠ [])
include hi

theorem normalise_of_ne_nil :
    normalise input = (List.range 256).map fun b => rnd32 (input.count (BitVec.ofNat 8 b)) input.length := by
  simp [normalise, Config.nsym, hi]

theorem getElem?_normalise (b : Byte) : (normalise input)[b.toNat]? = some (rnd32 (input.count b) input.length) := by
  simp [normalise_of_ne_nil hi, b.isLt]

theorem exists_count_of_mem_normalise {v : Word} (hv : v ∈ normalise input) :
    ∃ b : Byte, v = rnd32 (input.count b) input.length := by
  rw [normalise_of_ne_nil hi] at hv
  obtain ⟨b, -, rfl⟩ := List.mem_map.1 hv
  exact ⟨_, rfl⟩

end

theorem eq_zero_of_mem_normalise_nil {v : Word} (hv : v ∈ normalise []) : v = 0 := by
  rw [normalise_nil] at hv
  exact List.eq_of_mem_replicate hv

theorem normalise_legal {input : List Byte} {v : Word} (hv : v ∈ normalise input) :
    legalWeight v = true ∧ v.toNat ≤ oneMag := by
  by_cases hi : input = []
  · subst hi
    rw [eq_zero_of_mem_normalise_nil hv]
    decide
  · obtain ⟨b, rfl⟩ := exists_count_of_mem_normalise hi hv
    have hle : input.count b ≤ input.length := List.count_le_length
    have hpos := List.length_pos_of_ne_nil hi
    exact ⟨legalWeight_rnd32 hle hpos, toNat_rnd32_le hle hpos⟩

theorem getElem?_normalise_of_absent {input : List Byte} {b : Byte} (hc : input.count b = 0) :
    (normalise input)[b.toNat]? = some 0 := by
  by_cases hi : input = []
  · subst hi
    rw [normalise_nil, List.getElem?_replicate_of_lt b.isLt]
  · rw [getElem?_normalise hi, hc, rnd32_zero (List.length_pos_of_ne_nil hi)]

/-- Settles O53: a weight is a quotient in [0, 1], rounded; the ends of the range are exact. -/
theorem normalisedWeightsAreLegal : Obligations.NormalisedWeightsAreLegal := by
  unfold Obligations.NormalisedWeightsAreLegal
  refine fun input => ⟨length_normalise input, fun v hv => normalise_legal hv, fun hi v hv => ?_,
    fun b hi => getElem?_normalise hi b, fun b hc => getElem?_normalise_of_absent hc, fun b hi hc => ?_⟩
  · subst hi
    exact eq_zero_of_mem_normalise_nil hv
  · rw [getElem?_normalise hi, hc, rnd32_self (List.length_pos_of_ne_nil hi)]

end Sys2Proof.Machine
end

section
/-! The builder's order and its merges: `key_lt` is a strict total order on a working set, so that the head of an ordered
queue is the entry R121's loop selects (42_tree_builder.md R120, R121). -/

namespace Sys2Proof.Machine

/-- Settles O18. -/
theorem keyOrderIsStrictAndTotal : Obligations.KeyOrderIsStrictAndTotal := by
  unfold Obligations.KeyOrderIsStrictAndTotal
  refine ⟨fun a b => legal_f32Add, keyLt_irrefl, fun x y z => keyLt_trans, fun x y hx hy hr => ⟨keyLt_asymm, fun h => ?_⟩⟩
  exact (keyLt_total hx hy hr).resolve_right (by simp [h])

/-- One turn of R121's loop, when two entries are left to take. -/
theorem selectMerges_succ {m k : Nat} {e f : Entry} {es fs : List Entry} (h : (takeLeast e es).2 = f :: fs) :
    selectMerges (m + 1) k (e :: es) = mergeRec (takeLeast e es).1 (takeLeast f fs).1 ::
      selectMerges m (k + 1) (mergeEntry k (takeLeast e es).1 (takeLeast f fs).1 :: (takeLeast f fs).2) := by
  rw [selectMerges, h]

/-- A queue in order makes the records R121's loop makes from the same entries in any order. -/
theorem merges_eq_selectMerges {m k : Nat} {q es : List Entry} (hw : WorkingSet es) (hp : q.Perm es) (ho : Ordered q) :
    merges m k q = selectMerges m k es := by
  induction m generalizing k q es with
  | zero => simp only [merges, selectMerges]
  | succ m ih =>
    match es, q, hp with
    | [], q, hp => simp only [hp.eq_nil, merges, selectMerges]
    | [e], q, hp => simp only [List.perm_singleton.1 hp, merges, selectMerges, takeLeast]
    | _ :: _ :: _, [], hp => exact absurd hp.symm.eq_nil (by simp)
    | _ :: _ :: _, [a], hp => exact absurd hp.length_eq (by simp)
    | e :: es, a :: b :: rest, hp =>
      obtain ⟨ha, hq⟩ := takeLeast_eq_head hw hp ho
      cases hf : (takeLeast e es).2 with
      | nil => exact absurd (hf ▸ hq).eq_nil (by simp)
      | cons f fs =>
        rw [hf] at hq
        have hw' : WorkingSet (a :: f :: fs) := (hw.perm hp.symm).perm (hq.cons a)
        obtain ⟨hb, hrest⟩ := takeLeast_eq_head hw'.tail hq ho.of_cons
        have hmerge : WorkingSet (mergeEntry k a b :: rest) := (hw.perm hp.symm).merge k
        rw [selectMerges_succ hf, ha, hb, merges]
        refine congrArg _ (ih (hmerge.perm (hrest.cons _)) ((enqueue_perm _ _).trans (hrest.cons _)) ?_)
        exact enqueue_ordered hmerge ho.of_cons.of_cons

/-- Settles O17: BUILD's queue starts in order with the leaves' entries. -/
theorem builderMergesTheTwoLeast : Obligations.BuilderMergesTheTwoLeast := by
  unfold Obligations.BuilderMergesTheTwoLeast
  intro freq hl
  have hw := leafEntries_workingSet hl
  rw [toList_buildNodes]
  exact merges_eq_selectMerges hw (foldr_enqueue_perm _) (foldr_enqueue_ordered hw)

end Sys2Proof.Machine
end

section
/-! The tree BUILD makes (42_tree_builder.md R122): a full tree (`FullTree`) whose records' reps are the least bytes below. -/

namespace Sys2Proof.Machine

variable {node : Vector NodeRec 255}

/-- Every node below the root is a child exactly once. -/
theorem FullTree.existsUnique_parent (ht : FullTree node) {n : NodeIdx} (hn : n.toNat < 510) :
    ∃! p : Fin 255 × Bool, childAt node p.1 p.2 = n := by
  obtain ⟨k, b, hk⟩ := ht.surj n hn
  refine ⟨(k, b), hk, fun p hp => ?_⟩
  obtain ⟨h1, h2⟩ := ht.inj _ _ _ _ (hp.trans hk.symm)
  exact Prod.ext h1 h2

/-- The least byte below the root of a full tree is 0, for every byte is below it. -/
theorem FullTree.eq_zero_of_leastBelow_root (ht : FullTree node) {b : Byte} (h : LeastBelow node Config.root b) : b = 0 :=
  BitVec.eq_of_toNat_eq (Nat.le_zero.1 (h.2 0 ⟨_, (ht.pathOf_spec 0).1⟩))

/-- The root is no leaf. -/
theorem ne_nil_of_descend_root {bits : List Bool} {b : Byte} (h : descend node Config.root bits = some (leafIdx b)) :
    bits ≠ [] := by
  rintro rfl
  simp only [descend, Option.some.injEq] at h
  have hleaf := isInternalIdx_leafIdx b
  rw [← h, isInternalIdx_root] at hleaf
  exact Bool.noConfusion hleaf

theorem buildNodes_leastBelow (freq : Vector Word 256) (k : Fin 255) :
    LeastBelow (buildNodes freq) (internalIdx k) (buildNodes freq)[k].rep := by
  have h := merges_leastBelow (node := buildNodes freq) (k := 0)
    (fun j r hr => by rw [Nat.zero_add]; exact nodeAt_buildNodes hr)
    (fun e he => leafEntries_leastBelow freq _ e (mem_startSet.1 he)) k _ (getElem?_merges_buildNodes freq k.isLt)
  rwa [Nat.zero_add] at h

/-- Settles O19: `fullTree_buildNodes`, and the reps by `buildNodes_leastBelow`. -/
theorem builtTreeIsFullAndOrdered : Obligations.BuiltTreeIsFullAndOrdered := by
  unfold Obligations.BuiltTreeIsFullAndOrdered
  intro freq _
  have ht := fullTree_buildNodes freq
  refine ⟨fun k => ⟨ht.lt k false, ht.lt k true⟩, fun n => ht.existsUnique_parent, buildNodes_leastBelow freq,
    ht.eq_zero_of_leastBelow_root (buildNodes_leastBelow freq 254), fun b => ?_⟩
  obtain ⟨hpath, hlen⟩ := ht.pathOf_spec b
  exact ⟨_, hpath, List.length_pos_of_ne_nil (ne_nil_of_descend_root hpath), hlen⟩

/-! ### Codes are paths (R123, R129) -/

/-- Settles O20. -/
theorem codeIsThePathToTheLeaf : Obligations.CodeIsThePathToTheLeaf := by
  unfold Obligations.CodeIsThePathToTheLeaf
  intro s h hv b
  have ht := h.fullTree hv
  obtain ⟨-, -, hclen, hcode⟩ := h.tablesCurrent hv
  refine ⟨fun bits => ⟨fun hd => ht.path_unique hd (h.descend_code hv b), ?_⟩, ht.codeAt_high hclen hcode b⟩
  rintro rfl
  exact h.descend_code hv b

/-- Before its end a descent rests at an internal node. -/
theorem descend_proper_prefix {n m : NodeIdx} {p q : List Bool} (hq : q ≠ []) (h : descend node n (p ++ q) = some m) :
    ∃ l, descend node n p = some l ∧ isInternalIdx l = true := by
  obtain ⟨b, bs, rfl⟩ := List.exists_cons_of_ne_nil hq
  rw [descend_append, Option.bind_eq_some_iff] at h
  obtain ⟨l, hl, hrest⟩ := h
  obtain ⟨k, rfl, -⟩ := descend_cons_some hrest
  have hk := toNat_internalIdx (show k.val < 256 by omega)
  exact ⟨_, hl, isInternalIdx_iff.2 (by omega)⟩

/-- A descent that goes on past a leaf goes nowhere. -/
theorem eq_of_descend_prefix {n : NodeIdx} {p q : List Bool} {b c : Byte} (hp : descend node n p = some (leafIdx b))
    (hq : descend node n q = some (leafIdx c)) (h : p <+: q) : b = c := by
  obtain ⟨r, rfl⟩ := h
  rw [descend_append, hp, Option.bind_some] at hq
  exact ((isBelow_leafIdx node b c).1 ⟨r, hq⟩).symm

/-- Settles O21. -/
theorem codesArePrefixFree : Obligations.CodesArePrefixFree := by
  unfold Obligations.CodesArePrefixFree
  intro s h hv
  refine ⟨fun b c hbc hp => hbc (eq_of_descend_prefix (h.descend_code hv b) (h.descend_code hv c) hp), h.descend_code hv,
    fun b bits hp hne => ?_⟩
  obtain ⟨r, hr⟩ := hp
  have hrest : r ≠ [] := by
    rintro rfl
    exact hne (by simpa using hr)
  exact descend_proper_prefix hrest (hr ▸ h.descend_code hv b)

end Sys2Proof.Machine
end

section
/-! BUILD: its checks and its effect (42_tree_builder.md R121, 60_exceptions.md R203), and that what the readback commands
answer after it depends on the weights alone (R128). -/

namespace Sys2Proof.Machine

/-- A row that fixes every bit raises ILLEGAL_CMD on every word of its opcode but its own. -/
theorem illegalWords_of_fixed_row {r : Row} (hr : r ∈ rows) (hm : r.mask = BitVec.allOnes 64) :
    illegalWords (opcField r.pattern) fun w => w ≠ r.pattern := by
  refine illegalWords_of_row hr fun w hs _ hne => hne ?_
  rw [Row.selects, hm, BitVec.and_allOnes] at hs
  exact eq_of_beq hs

theorem illegalWords_build : illegalWords 0x12 fun w => w ≠ 0x12 :=
  illegalWords_of_fixed_row (r := rows[4]) (List.getElem_mem _) rfl

/-! ### What BUILD's effect leaves -/

@[simp] theorem builtTree_treeValid (s : State) : s.builtTree.treeValid = true := rfl
@[simp] theorem builtTree_freq (s : State) : s.builtTree.freq = s.freq := by rw [builtTree_eq]
@[simp] theorem builtTree_node (s : State) : s.builtTree.node = buildNodes s.freq := rfl
@[simp] theorem builtTree_clen (s : State) : s.builtTree.clen = deriveClen (buildNodes s.freq) := rfl
@[simp] theorem builtTree_code (s : State) : s.builtTree.code = deriveCode (buildNodes s.freq) := rfl

/-! ### The checks -/

theorem allLegal_iff_freqAt (s : State) : allLegal s.freq = true ↔ ∀ i, legalWeight (s.freqAt i) = true := by
  rw [allLegal_iff]
  refine ⟨fun h i => h i.toNat i.isLt, fun h i hi => ?_⟩
  have hnat : (BitVec.ofNat 8 i).toNat = i := Nat.mod_eq_of_lt hi
  simpa only [State.freqAt, hnat] using h (BitVec.ofNat 8 i)

section
variable {s : State} (he : s.err = 0)
include he

theorem exec_build_of_open (ho : s.streamOpen = true) : exec .build s = .next { s with err := 5, errOpc := 0x12 } := by
  have hc : firstError (checksOf s .build) = some .sequence := by simp [checksOf, State.streamCheck, ho]
  rw [exec_eq_execute (by simp), execute_of_fails he hc]
  rfl

theorem exec_build_of_illegal (ho : s.streamOpen = false) (hl : allLegal s.freq = false) :
    exec .build s = .next { s with err := 3, errOpc := 0x12 } := by
  have hc : firstError (checksOf s .build) = some .corruptHeader := by simp [checksOf, State.streamCheck, ho, hl]
  rw [exec_eq_execute (by simp), execute_of_fails he hc]
  rfl

theorem exec_build_of_legal (ho : s.streamOpen = false) (hl : allLegal s.freq = true) : exec .build s = .next s.builtTree :=
  exec_of_passes (by simp) he (by simp [checksOf, State.streamCheck, ho, hl])

/-- A BUILD that records no error has built the tree. -/
theorem eq_builtTree_of_exec_build {t : State} (h : exec .build s = .next t) (ht : t.err = 0) : t = s.builtTree := by
  rcases exec_next_cases h with ⟨hi, -⟩ | ⟨-, hne, -⟩ | ⟨-, -, c, -, rfl⟩ | ⟨-, -, -, hb⟩
  · exact absurd hi (by simp)
  · exact absurd he hne
  · exact absurd ht (errCode_ne_zero c)
  · exact hb

end

/-- Settles O16. -/
theorem buildChecksThenBuilds : Obligations.BuildChecksThenBuilds := by
  unfold Obligations.BuildChecksThenBuilds
  refine ⟨fun s he ho => ?_, fun s i he henc hdec hi => ?_, fun s he henc hdec hl => ?_, illegalWords_build⟩
  · exact exec_build_of_open he (by simpa [State.streamOpen] using ho)
  · refine exec_build_of_illegal he (by simp [State.streamOpen, henc, hdec]) (Bool.eq_false_iff.2 fun hl => ?_)
    rw [(allLegal_iff_freqAt s).1 hl i] at hi
    exact Bool.noConfusion hi
  · refine ⟨s.builtTree, exec_build_of_legal he ?_ ((allLegal_iff_freqAt s).2 hl), builtTree_eq s, rfl, rfl⟩
    simp [State.streamOpen, henc, hdec]

section
variable {s t : State} (b : Byte)

theorem freqAt_congr (h : t.freq = s.freq) : t.freqAt b = s.freqAt b := by simp only [State.freqAt, h]

theorem clenAt_congr (h : t.clen = s.clen) : t.clenAt b = s.clenAt b := by simp only [State.clenAt, h]

theorem codeAt_congr (h : t.code = s.code) : t.codeAt b = s.codeAt b := by simp only [State.codeAt, h]

theorem codeChunk_congr (hl : t.clen = s.clen) (hc : t.code = s.code) (k : BitVec 3) : t.codeChunk b k = s.codeChunk b k := by
  rw [State.codeChunk, State.codeChunk, clenAt_congr b hl, codeAt_congr b hc]

end

/-- The commands that read the tree back (R124 to R127). -/
def IsReadback (i : Instr) : Prop := (∃ n, i = .rnode n) ∨ (∃ n, i = .rwgt n) ∨ (∃ b, i = .rclen b) ∨ ∃ b k, i = .rcode b k

/-- With a tree, a readback command answers what `FREQ`, `NODE`, `CLEN` and `CODE` hold, and nothing else. -/
theorem readback_answer {s : State} {i : Instr} (hi : IsReadback i) (hw : i.wellFormed = true) :
    ∃ v, ∀ t : State, t.err = 0 → t.treeValid = true → t.freq = s.freq → t.node = s.node → t.clen = s.clen →
      t.code = s.code → exec i t = .next (t.respond v) := by
  rcases hi with ⟨n, rfl⟩ | ⟨n, rfl⟩ | ⟨b, rfl⟩ | ⟨b, k, rfl⟩
  · obtain ⟨k, rfl⟩ := exists_internalIdx hw
    exact ⟨nodeResponse s.node[k], fun t he hv _ hn _ _ => hn ▸ exec_rnode_internal he hv k⟩
  · by_cases hleaf : n.toNat ≤ 255
    · exact ⟨_, fun t he hv hf _ _ _ => by rw [exec_rwgt_leaf he hv hleaf, freqAt_congr _ hf]⟩
    · have hn := isNodeIdx_iff.1 hw
      obtain ⟨k, rfl⟩ := exists_internalIdx (isInternalIdx_iff.2 ⟨by omega, hn⟩)
      exact ⟨s.node[k].w, fun t he hv _ hn _ _ => hn ▸ exec_rwgt_internal he hv k⟩
  · exact ⟨_, fun t he hv _ _ hl _ => by rw [exec_rclen he hv, clenAt_congr _ hl]⟩
  · exact ⟨_, fun t he hv _ _ hl hc => by rw [exec_rcode he hv, codeChunk_congr _ hl hc]⟩

/-- Settles O22: the two states BUILD leaves agree in all that a readback command reads. -/
theorem treeIsAFunctionOfTheWeights : Obligations.TreeIsAFunctionOfTheWeights := by
  unfold Obligations.TreeIsAFunctionOfTheWeights
  intro s s' t t' hf he he' hb hb' ht ht'
  obtain rfl := eq_builtTree_of_exec_build he hb ht
  obtain rfl := eq_builtTree_of_exec_build he' hb' ht'
  have hfreq : s'.builtTree.freq = s.builtTree.freq := by rw [builtTree_freq, builtTree_freq, hf]
  have hnode : s'.builtTree.node = s.builtTree.node := by rw [builtTree_node, builtTree_node, hf]
  have hclen : s'.builtTree.clen = s.builtTree.clen := by rw [builtTree_clen, builtTree_clen, hf]
  have hcode : s'.builtTree.code = s.builtTree.code := by rw [builtTree_code, builtTree_code, hf]
  refine ⟨hnode.symm, hclen.symm, hcode.symm, fun i u u' hi hw hu hu' => ?_⟩
  obtain ⟨v, hv⟩ := readback_answer (s := s.builtTree) hi hw
  rw [hv _ ht (builtTree_treeValid s) rfl rfl rfl rfl, Host.Outcome.next.injEq] at hu
  rw [hv _ ht' (builtTree_treeValid s') hfreq hnode hclen hcode, Host.Outcome.next.injEq] at hu'
  rw [← hu, ← hu', State.respond_resp, State.respond_resp]

end Sys2Proof.Machine
end

section
/-! The encoder's two commands: ENC appends a code (43_encoder.md R150), EFLUSH ends a stream (R151). -/

namespace Sys2Proof.Machine

theorem illegalWords_enc : illegalWords 0x20 fun w => rsvField w ≠ 0 ∨ wordField w ≠ 0 :=
  illegalWords_of_wordless_row (r := rows[9]) (List.getElem_mem _) (by decide) (by decide)

theorem illegalWords_eflush : illegalWords 0x21 fun w => w ≠ 0x21 :=
  illegalWords_of_fixed_row (r := rows[10]) (List.getElem_mem _) rfl

theorem exec_eflush {s : State} (he : s.err = 0) : exec .eflush s = .next (flushed s) := exec_of_passes (by simp) he rfl

theorem exec_enc {s : State} (he : s.err = 0) (hv : s.treeValid = true) (b : Byte) :
    exec (.enc b) s = .next ((appendBits s (s.codeBitsOf b)).setEncOpen true) := exec_of_tree he hv rfl rfl

theorem getD_codeBitsOf (s : State) (b : Byte) (j : Nat) :
    (s.codeBitsOf b).getD j false = (decide (j < (s.clenAt b).toNat) && (s.codeAt b).getLsbD j) := by
  by_cases hj : j < (s.clenAt b).toNat <;> simp [State.codeBitsOf, List.getD_eq_getElem?_getD, hj]

/-- From a clean `ACC`, the emitted bytes and the new `ACC` hold the bits held before and then the appended ones. -/
theorem getLsbD_appendBits {s : State} {bits : List Bool} {bytes : List Byte} (hclean : s.acc.toNat < 2 ^ s.bitpos.toNat)
    (hout : (appendBits s bits).out = s.out ++ bytes) (k : Nat) :
    ((bytes ++ [(appendBits s bits).acc]).getD (k / 8) 0).getLsbD (k % 8) =
      if k < s.bitpos.toNat then s.acc.getLsbD k else bits.getD (k - s.bitpos.toNat) false := by
  obtain ⟨a, p, o, he, -, -, -, hvalue⟩ := appendBits_value s bits hclean
  rw [he, List.append_cancel_left_eq] at hout
  rw [he, ← hout, ← testBit_leValue, hvalue, Nat.add_comm, Nat.testBit_two_pow_mul_add _ hclean, testBit_bitsToNat]
  rfl

/-- Settles O26: the frame and the counts from any state, the bits from a clean `ACC`. -/
theorem encAppendsTheCode : Obligations.EncAppendsTheCode := by
  unfold Obligations.EncAppendsTheCode
  refine ⟨fun b s he hv => ?_, fun b s he hv => exec_of_noTree rfl rfl he hv, illegalWords_enc⟩
  obtain ⟨a, p, bytes, happ, hpos, hlen⟩ := appendBits_frame s (s.codeBitsOf b)
  rw [length_codeBitsOf] at hpos hlen
  refine ⟨_, bytes, exec_enc he hv b, by rw [happ]; rfl, by rw [happ]; exact hpos, hlen, fun hclean k _ => ?_⟩
  rw [← getD_codeBitsOf]
  exact getLsbD_appendBits hclean (by rw [happ]) k

theorem toNat_padOut_flushed (s : State) :
    (flushed s).padOut.toNat = if s.bitpos = 0 then 0 else 8 - s.bitpos.toNat := by
  rw [flushed_eq]
  by_cases hp : s.bitpos = 0
  · simp [hp]
  · have hpos : s.bitpos.toNat ≠ 0 := fun h0 => hp (BitVec.eq_of_toNat_eq h0)
    simp only [if_neg hp, BitVec.toNat_ofNat]
    omega

/-- Settles O27. -/
theorem eflushEndsTheStream : Obligations.EflushEndsTheStream := by
  unfold Obligations.EflushEndsTheStream
  exact ⟨fun s he => ⟨_, exec_eflush he, by rw [flushed_eq], toNat_padOut_flushed s⟩, illegalWords_eflush⟩

end Sys2Proof.Machine
end

section
/-! The encoder's commands neither read nor change the decoder's registers, nor the decoder's the encoder's (R154): each
command commutes with a change of the other side's registers. -/

namespace Sys2Proof.Machine

/-- R150's loop reads `ACC` and `BITPOS` alone. -/
theorem appendBits_reads_acc_bitpos (bits : List Bool) (acc : Byte) (bitpos : BitVec 3) : ∃ a p o, ∀ s : State,
    s.acc = acc → s.bitpos = bitpos → appendBits s bits = { s with acc := a, bitpos := p, out := s.out ++ o } := by
  induction bits generalizing acc bitpos with
  | nil => exact ⟨acc, bitpos, [], by rintro s rfl rfl; simp [appendBits]⟩
  | cons b bs ih =>
    by_cases h7 : bitpos = 7
    · obtain ⟨a, p, o, hrest⟩ := ih 0 0
      refine ⟨a, p, setBit acc bitpos b :: o, ?_⟩
      rintro s rfl rfl
      rw [appendBits, List.foldl_cons, appendBit_full h7, ← appendBits, hrest _ rfl rfl]
      simp
    · obtain ⟨a, p, o, hrest⟩ := ih (setBit acc bitpos b) (bitpos + 1)
      refine ⟨a, p, o, ?_⟩
      rintro s rfl rfl
      rw [appendBits, List.foldl_cons, appendBit_partial h7, ← appendBits, hrest _ rfl rfl]

theorem appendBits_setEncOpen (s : State) (v : Bool) (bits : List Bool) :
    appendBits (s.setEncOpen v) bits = (appendBits s bits).setEncOpen v := by
  obtain ⟨a, p, o, h⟩ := appendBits_reads_acc_bitpos bits s.acc s.bitpos
  rw [h s rfl rfl, h (s.setEncOpen v) rfl rfl]
  rfl

/-- The state with other values in the decoder's registers. -/
def State.setDecoder (padIn : BitVec 3) (cursor : NodeIdx) (decOpen : Bool) (s : State) : State :=
  { s with padIn := padIn, cursor := cursor, decOpen := decOpen }

/-- The state with other values in the encoder's registers. -/
def State.setEncoder (acc : Byte) (bitpos padOut : BitVec 3) (encOpen : Bool) (s : State) : State :=
  { s with acc := acc, bitpos := bitpos, padOut := padOut, encOpen := encOpen }

/-- A command commutes with an update that leaves `ERR` and its checks alone, when its effect does. -/
theorem exec_commutes {f : State → State} (herr : ∀ s, (f s).err = s.err) (hset : ∀ s c o, f (s.setErr c o) = (f s).setErr c o)
    {i : Instr} {s t : State} (hi : i ≠ .clear) (hchecks : checksOf (f s) i = checksOf s i)
    (heffect : ∀ u, effectOf s i = .next u → effectOf (f s) i = .next (f u)) (h : exec i s = .next t) :
    exec i (f s) = .next (f t) := by
  rw [exec_eq_execute hi, hchecks]
  rcases exec_cases i s with ⟨hc, -⟩ | ⟨-, he, hx⟩ | ⟨-, he, c, hc, hx⟩ | ⟨-, he, hc, hx⟩
  · exact absurd hc hi
  · cases hx.symm.trans h
    exact execute_of_sticky (by rwa [herr])
  · cases hx.symm.trans h
    rw [execute_of_fails (by rwa [herr]) hc, hset]
  · rw [execute_of_passes (by rwa [herr]) hc]
    exact heffect t (hx.symm.trans h)

/-! ### The encoder's commands -/

theorem appendBits_setDecoder (q : BitVec 3) (c : NodeIdx) (d : Bool) (s : State) (bits : List Bool) :
    appendBits (s.setDecoder q c d) bits = (appendBits s bits).setDecoder q c d := by
  obtain ⟨a, p, o, h⟩ := appendBits_reads_acc_bitpos bits s.acc s.bitpos
  rw [h s rfl rfl, h (s.setDecoder q c d) rfl rfl]
  rfl

section
variable {i : Instr} (hi : i = .eflush ∨ ∃ b, i = .enc b) {s t : State} (p : BitVec 3) (c : NodeIdx) (d : Bool)
include hi

theorem effectOf_setDecoder (h : effectOf s i = .next t) : effectOf (s.setDecoder p c d) i = .next (t.setDecoder p c d) := by
  rcases hi with rfl | ⟨b, rfl⟩
  · cases h
    simp only [effectOf, flushed_eq]
    rfl
  · cases h
    have happ := appendBits_setDecoder p c d s (s.codeBitsOf b)
    exact congrArg (fun m : State => Host.Outcome.next (m.setEncOpen true)) happ

theorem exec_setDecoder (h : exec i s = .next t) : exec i (s.setDecoder p c d) = .next (t.setDecoder p c d) := by
  refine exec_commutes (f := State.setDecoder p c d) (fun _ => rfl) (fun _ _ _ => rfl) ?_ ?_
    (fun _ => effectOf_setDecoder hi p c d) h
  · rintro rfl
    simp at hi
  · rcases hi with rfl | ⟨b, rfl⟩ <;> rfl

end

/-! ### The decoder's commands -/

section
variable (a : Byte) (b p : BitVec 3) (e : Bool) {s t : State}

theorem landOn_setEncoder (n : NodeIdx) (s : State) : landOn n (s.setEncoder a b p e) = (landOn n s).setEncoder a b p e := by
  unfold landOn
  split <;> rfl

theorem decBits_setEncoder {bits : List Bool} (h : decBits bits s = .next t) :
    decBits bits (s.setEncoder a b p e) = .next (t.setEncoder a b p e) := by
  induction bits generalizing s with
  | nil => cases h; rfl
  | cons x xs ih =>
    rw [decBits, decBit, andThen_eq_next] at h ⊢
    obtain ⟨m, hbit, hrest⟩ := h
    obtain ⟨r, hnode, hm⟩ := readNode_eq_next.1 hbit
    cases hm
    exact ⟨_, readNode_eq_next.2 ⟨r, hnode, by rw [landOn_setEncoder]⟩, ih hrest⟩

theorem endCheck_setEncoder {opc : Byte} (h : endCheck opc s = .next t) :
    endCheck opc (s.setEncoder a b p e) = .next (t.setEncoder a b p e) := by
  rcases endCheck_cases opc s with ⟨hc, he⟩ | ⟨hc, he⟩
  · cases he.symm.trans h
    exact if_pos hc
  · cases he.symm.trans h
    exact if_neg hc

variable {i : Instr} (hi : i = .decend ∨ (∃ x, i = .dec x) ∨ (∃ x, i = .declast x) ∨ ∃ x, i = .setpad x)
include hi

theorem effectOf_setEncoder (h : effectOf s i = .next t) :
    effectOf (s.setEncoder a b p e) i = .next (t.setEncoder a b p e) := by
  rcases hi with rfl | ⟨x, rfl⟩ | ⟨x, rfl⟩ | ⟨x, rfl⟩
  · exact endCheck_setEncoder a b p e h
  · obtain ⟨m, hbits, hm⟩ := andThen_eq_next.1 h
    cases hm
    exact andThen_eq_next.2 ⟨_, decBits_setEncoder a b p e hbits, rfl⟩
  · obtain ⟨m, hbits, hend⟩ := andThen_eq_next.1 h
    exact andThen_eq_next.2 ⟨_, decBits_setEncoder a b p e hbits, endCheck_setEncoder a b p e hend⟩
  · cases h
    rfl

theorem exec_setEncoder (h : exec i s = .next t) : exec i (s.setEncoder a b p e) = .next (t.setEncoder a b p e) := by
  refine exec_commutes (f := State.setEncoder a b p e) (fun _ => rfl) (fun _ _ _ => rfl) ?_ ?_
    (fun _ => effectOf_setEncoder a b p e hi) h
  · rintro rfl
    simp at hi
  · rcases hi with rfl | ⟨x, rfl⟩ | ⟨x, rfl⟩ | ⟨x, rfl⟩ <;> rfl

end

/-- Settles O30. What a command leaves unchanged follows from what it does not read: setting the other side's registers to
the values they hold changes nothing before the command, so nothing after it. -/
theorem encoderAndDecoderAreIndependent : Obligations.EncoderAndDecoderAreIndependent := by
  unfold Obligations.EncoderAndDecoderAreIndependent
  refine ⟨fun i s t p c d hi h => ?_, fun i s t a b p e hi h => ?_⟩
  · have hself : exec i s = .next (t.setDecoder s.padIn s.cursor s.decOpen) := exec_setDecoder hi _ _ _ h
    have ht : t = t.setDecoder s.padIn s.cursor s.decOpen := Host.Outcome.next.inj (h.symm.trans hself)
    exact ⟨(congrArg State.padIn ht :), (congrArg State.cursor ht :), (congrArg State.decOpen ht :), exec_setDecoder hi p c d h⟩
  · have hself : exec i s = .next (t.setEncoder s.acc s.bitpos s.padOut s.encOpen) := exec_setEncoder _ _ _ _ hi h
    have ht : t = t.setEncoder s.acc s.bitpos s.padOut s.encOpen := Host.Outcome.next.inj (h.symm.trans hself)
    exact ⟨(congrArg State.acc ht :), (congrArg State.bitpos ht :), (congrArg State.padOut ht :), (congrArg State.encOpen ht :),
      exec_setEncoder a b p e hi h⟩

end Sys2Proof.Machine
end

section
/-! A stream of ENCs and its EFLUSH (R152, R153): the loop over the whole payload, then the rest in `ACC`. -/

namespace Sys2Proof.Machine

/-! ### The session of a stream -/

section
variable {s : State} (hp : s.port = [])
include hp

theorem runSession_encs_nil : runSession (encs []) s = exec .eflush s := runSession_singleton (decode_encode rfl) hp

theorem runSession_encs_cons (b : Byte) (bs : List Byte) :
    runSession (encs (b :: bs)) s = andThen (exec (.enc b) s) (runSession (encs bs)) :=
  runSession_cons (decode_encode rfl) _ hp

/-- In the sticky state the whole stream is ignored (60_exceptions.md R202). -/
theorem runSession_encs_of_sticky (he : s.err ≠ 0) (input : List Byte) : runSession (encs input) s = .next s := by
  induction input with
  | nil => rw [runSession_encs_nil hp, exec_eq_execute (by simp), execute_of_sticky he]
  | cons b bs ih => rw [runSession_encs_cons hp, exec_eq_execute (by simp), execute_of_sticky he, andThen_next, ih]

/-- With no error, and a tree for its codes, a stream is its payload through the loop of R150, then R151. -/
theorem runSession_encs (he : s.err = 0) {input : List Byte} (hv : input ≠ [] → s.treeValid = true) :
    runSession (encs input) s = .next (flushed (appendBits s (s.payloadBits input))) := by
  induction input generalizing s with
  | nil => rw [runSession_encs_nil hp, exec_eflush he]; rfl
  | cons b bs ih =>
    have hv := hv (by simp)
    obtain ⟨a, q, o, happ, -, -⟩ := appendBits_frame s (s.codeBitsOf b)
    rw [runSession_encs_cons hp, exec_enc he hv, andThen_next, ih (by rw [happ]; exact hp) (by rw [happ]; exact he)
      fun _ => by rw [happ]; exact hv]
    have hcodes : ((appendBits s (s.codeBitsOf b)).setEncOpen true).payloadBits bs = s.payloadBits bs := by rw [happ]; rfl
    rw [hcodes, appendBits_setEncOpen, ← appendBits_append, flushed_eq, flushed_eq]
    rfl

end

/-- A stream that ends with no error had a tree, or no byte. -/
theorem eq_flushed_of_runSession_encs {s t : State} {input : List Byte} (hready : ready s)
    (h : runSession (encs input) s = .next t) (ht : t.err = 0) : t = flushed (appendBits s (s.payloadBits input)) := by
  obtain ⟨he, hp⟩ := hready
  have hv : input ≠ [] → s.treeValid = true := by
    intro hne
    by_contra hn
    obtain ⟨b, bs, rfl⟩ := List.exists_cons_of_ne_nil hne
    rw [runSession_encs_cons hp, exec_of_noTree rfl rfl he (by simpa using hn), andThen_next,
      runSession_encs_of_sticky (s := { s with err := 2, errOpc := _ }) hp (by simp)] at h
    cases h
    exact absurd ht (by simp)
  rw [runSession_encs hp he hv] at h
  exact (Host.Outcome.next.inj h).symm

/-! ### The bytes and the padding count -/

/-- From an idle encoder, the bits and then R151 emit the bytes that hold the bits. -/
theorem flushed_appendBits_packs {s : State} (hacc : s.acc = 0) (hpos : s.bitpos = 0) (bits : List Bool) :
    ∃ bytes, (flushed (appendBits s bits)).out = s.out ++ bytes ∧ packs bytes bits := by
  obtain ⟨a, p, o, happ, hp, hlen, hclean, hvalue⟩ := appendBits_value s bits (by rw [hacc, hpos]; decide)
  simp only [show s.acc.toNat = 0 by rw [hacc]; rfl, show s.bitpos.toNat = 0 by rw [hpos]; rfl, Nat.zero_add, Nat.pow_zero,
    Nat.one_mul] at hp hlen hvalue
  rw [happ, flushed_eq]
  by_cases h0 : p = 0
  · subst h0
    have ha : a.toNat = 0 := Nat.lt_one_iff.1 hclean
    refine ⟨o, by simp, packs_of_leValue ?_ ?_⟩
    · have hfull : bits.length % 8 = 0 := hp.symm
      rw [hlen]
      omega
    · rw [← hvalue, leValue_append]
      simp [leValue, ha]
  · have hne : p.toNat ≠ 0 := fun hc => h0 (BitVec.eq_of_toNat_eq hc)
    refine ⟨o ++ [a], by simp only [if_neg h0, List.append_assoc], packs_of_leValue ?_ hvalue⟩
    rw [List.length_append, hlen, List.length_singleton]
    omega

theorem padOut_flushed_appendBits {s : State} (hpos : s.bitpos = 0) (bits : List Bool) :
    (flushed (appendBits s bits)).padOut.toNat = (8 - bits.length % 8) % 8 := by
  obtain ⟨a, p, o, happ, hp, -⟩ := appendBits_frame s bits
  rw [show s.bitpos.toNat = 0 by rw [hpos]; rfl, Nat.zero_add] at hp
  rw [toNat_padOut_flushed, happ, ← hp]
  by_cases h0 : p = 0
  · simp [h0]
  · have hne : p.toNat ≠ 0 := fun hc => h0 (BitVec.eq_of_toNat_eq hc)
    simp only [if_neg h0]
    omega

/-- What a stream from a closed encoder has emitted when it ends with no error. -/
theorem stream_emits {s t : State} {input : List Byte} (hinv : Invariants s) (hready : ready s) (henc : s.encOpen = false)
    (h : runSession (encs input) s = .next t) (ht : t.err = 0) :
    t.out = s.out ++ sessionOut s t ∧ packs (sessionOut s t) (s.payloadBits input) ∧
      t.padOut.toNat = (8 - (s.payloadBits input).length % 8) % 8 := by
  obtain ⟨hacc, hpos⟩ := hinv.encIdle henc
  obtain rfl := eq_flushed_of_runSession_encs hready h ht
  obtain ⟨bytes, hout, hpacks⟩ := flushed_appendBits_packs hacc hpos (s.payloadBits input)
  have hsession : sessionOut s (flushed (appendBits s (s.payloadBits input))) = bytes := by
    rw [sessionOut, hout, List.drop_left]
  rw [hsession]
  exact ⟨hout, hpacks, padOut_flushed_appendBits hpos _⟩

/-- Settles O28: the bytes are `ceil(T/8)`, so that the bits past `T` are `PAD_OUT` many. -/
theorem paddingCountOfAStream : Obligations.PaddingCountOfAStream := by
  unfold Obligations.PaddingCountOfAStream
  intro s input t hinv hready henc h ht
  obtain ⟨-, ⟨hlen, -⟩, hpad⟩ := stream_emits hinv hready henc h ht
  rw [length_payloadBits] at hlen hpad
  refine ⟨hpad, hpad, ?_⟩
  rw [hlen, hpad]
  omega

/-- Settles O29. -/
theorem encodedBytesAreThePayload : Obligations.EncodedBytesAreThePayload := by
  unfold Obligations.EncodedBytesAreThePayload
  refine ⟨fun s input t hinv hready henc h ht => ?_, fun s input hinv hready henc hv => ?_⟩
  · obtain ⟨hout, hpacks, -⟩ := stream_emits hinv hready henc h ht
    exact ⟨hout, hpacks⟩
  · obtain ⟨he, hp⟩ := hready
    obtain ⟨a, p, o, happ, -, -⟩ := appendBits_frame s (s.payloadBits input)
    exact ⟨_, runSession_encs hp he fun _ => hv, by rw [happ, flushed_eq]; exact he, by rw [flushed_eq]⟩

end Sys2Proof.Machine
end

section
/-! The decoder's four commands: SETPAD stores a count (44_decoder.md R170), DEC and DECLAST descend (R173, R174), DECLAST and
DECEND end a stream (R172, R174, R175). -/

namespace Sys2Proof.Machine

theorem illegalWords_setpad : illegalWords 0x30 fun w => rsvField w ≠ 0 ∨ wordField w ≠ 0 :=
  illegalWords_of_wordless_row (r := rows[11]) (List.getElem_mem _) (by decide) (by decide)

theorem illegalWords_dec : illegalWords 0x31 fun w => rsvField w ≠ 0 ∨ wordField w ≠ 0 :=
  illegalWords_of_wordless_row (r := rows[12]) (List.getElem_mem _) (by decide) (by decide)

theorem illegalWords_declast : illegalWords 0x32 fun w => rsvField w ≠ 0 ∨ wordField w ≠ 0 :=
  illegalWords_of_wordless_row (r := rows[13]) (List.getElem_mem _) (by decide) (by decide)

theorem illegalWords_decend : illegalWords 0x33 fun w => w ≠ 0x33 :=
  illegalWords_of_fixed_row (r := rows[14]) (List.getElem_mem _) rfl

/-! ### SETPAD -/

section
variable {s : State} (he : s.err = 0) {p : Byte}
include he

theorem exec_setpad_of_le (hp : p.toNat ≤ 7) : exec (.setpad p) s = .next (s.setPadIn (p.setWidth 3)) :=
  exec_of_passes (by simp) he (by simpa [checksOf, Config.padMax, BitVec.ult] using hp)

theorem exec_setpad_of_gt (hp : 7 < p.toNat) : exec (.setpad p) s = .next { s with err := 3, errOpc := 0x30 } := by
  have hc : firstError (checksOf s (.setpad p)) = some .corruptHeader := by
    simpa [checksOf, Config.padMax, BitVec.ult] using hp
  rw [exec_eq_execute (by simp), execute_of_fails he hc]
  rfl

end

/-- Settles O31. -/
theorem setpadSetsTheCount : Obligations.SetpadSetsTheCount := by
  unfold Obligations.SetpadSetsTheCount
  refine ⟨fun p s he hp => ⟨_, exec_setpad_of_le he hp, rfl, ?_⟩, fun p s he hp => exec_setpad_of_gt he hp,
    illegalWords_setpad⟩
  exact Nat.mod_eq_of_lt (Nat.lt_succ_of_le hp)

/-! ### DECEND -/

section
variable {s : State} (he : s.err = 0) (hv : s.treeValid = true)
include he hv

theorem exec_decend_of_root (hc : s.cursor = Config.root) : exec .decend s = .next { s with decOpen := false } :=
  (exec_of_tree he hv rfl rfl).trans (if_pos hc)

theorem exec_decend_of_inside (hc : s.cursor ≠ Config.root) :
    exec .decend s = .next { s with cursor := Config.root, decOpen := false, err := 4, errOpc := 0x33 } :=
  (exec_of_tree he hv rfl rfl).trans (if_neg hc)

end

/-- Settles O34. -/
theorem decendEndsTheStream : Obligations.DecendEndsTheStream :=
  ⟨fun _ he hv hc => exec_decend_of_root he hv hc, fun _ he hv hc => exec_decend_of_inside he hv hc,
    fun _ he hv => exec_of_noTree rfl rfl he hv, illegalWords_decend⟩

/-! ### DEC and DECLAST -/

/-- The bits R174 consumes, read from the byte. -/
theorem lastBits_eq (s : State) (x : Byte) : s.lastBits x = (List.range (8 - s.padIn.toNat)).map x.getLsbD := by
  rw [State.lastBits, byteBits, ← List.map_take, List.take_range, Nat.min_eq_left (Nat.sub_le _ _)]

section
variable {s : State} (h : Invariants s) (he : s.err = 0) (hv : s.treeValid = true) (x : Byte)
include h hv

/-- From a state that meets the invariants a descent rests at an internal node, with a symbol for each bit at most (R171). -/
theorem Invariants.symbolsOf_rests (bits : List Bool) :
    isInternalIdx (symbolsOf s.node s.cursor bits).2 = true ∧ (symbolsOf s.node s.cursor bits).1.length ≤ bits.length :=
  (decBits_eq (h.fullTree hv).childrenInTree h.cursorInternal).2

include he

theorem exec_dec : exec (.dec x) s = .next { s with
    out := s.out ++ (symbolsOf s.node s.cursor (byteBits x)).1
    cursor := (symbolsOf s.node s.cursor (byteBits x)).2
    decOpen := true } := by
  rw [exec_of_tree he hv rfl rfl, effectOf, (decBits_eq (h.fullTree hv).childrenInTree h.cursorInternal).1]
  rfl

/-- DECLAST is the descent, then the end check where it rests. -/
theorem exec_declast : exec (.declast x) s = endCheck 0x32 { s with
    out := s.out ++ (symbolsOf s.node s.cursor (s.lastBits x)).1
    cursor := (symbolsOf s.node s.cursor (s.lastBits x)).2 } := by
  rw [exec_of_tree he hv rfl rfl, effectOf, (decBits_eq (h.fullTree hv).childrenInTree h.cursorInternal).1]
  rfl

theorem exec_declast_of_root (hc : (symbolsOf s.node s.cursor (s.lastBits x)).2 = Config.root) :
    exec (.declast x) s = .next { s with
      out := s.out ++ (symbolsOf s.node s.cursor (s.lastBits x)).1, cursor := Config.root, decOpen := false } := by
  rw [exec_declast h he hv, hc]
  exact if_pos rfl

theorem exec_declast_of_inside (hc : (symbolsOf s.node s.cursor (s.lastBits x)).2 ≠ Config.root) :
    exec (.declast x) s = .next { s with
      out := s.out ++ (symbolsOf s.node s.cursor (s.lastBits x)).1, cursor := Config.root, decOpen := false, err := 4,
      errOpc := 0x32 } := by
  rw [exec_declast h he hv]
  exact if_neg hc

end

/-- From any state, DECLAST reads its byte through the bits that are no padding. -/
theorem exec_declast_congr {s : State} {x y : Byte} (h : s.lastBits x = s.lastBits y) :
    exec (.declast x) s = exec (.declast y) s := by
  rw [exec_eq_execute (by simp), exec_eq_execute (by simp), effectOf, effectOf, h]
  rfl

/-- Settles O32. -/
theorem decDescendsByEightBits : Obligations.DecDescendsByEightBits := by
  unfold Obligations.DecDescendsByEightBits
  refine ⟨fun x s h he hv => ?_, fun x s he hv => exec_of_noTree rfl rfl he hv, illegalWords_dec⟩
  obtain ⟨hrests, hlen⟩ := h.symbolsOf_rests hv (byteBits x)
  exact ⟨exec_dec h he hv x, hlen.trans_eq (length_byteBits x), hrests⟩

/-- Settles O33. -/
theorem declastEndsTheStream : Obligations.DeclastEndsTheStream := by
  unfold Obligations.DeclastEndsTheStream
  refine ⟨fun x s h he hv => ?_, fun x y s hxy => exec_declast_congr ?_, fun x s he hv => exec_of_noTree rfl rfl he hv,
    illegalWords_declast⟩
  · rw [← lastBits_eq]
    have hlen := (h.symbolsOf_rests hv (s.lastBits x)).2
    exact ⟨exec_declast_of_root h he hv x, exec_declast_of_inside h he hv x,
      hlen.trans ((List.length_take_le' _ _).trans_eq (length_byteBits x))⟩
  · rw [lastBits_eq, lastBits_eq]
    exact List.map_congr_left fun j hj => hxy j (List.mem_range.1 hj)

end Sys2Proof.Machine
end

section
/-! A stream of DECs undoes the stream of ENCs that made its bytes (44_decoder.md R176). -/

namespace Sys2Proof.Machine

section
variable {u : State} (hp : u.port = [])
include hp

theorem runSession_decs_nil : runSession (decs []) u = exec .decend u := runSession_singleton (decode_encode rfl) hp

theorem runSession_decs_singleton (x : Byte) : runSession (decs [x]) u = exec (.declast x) u :=
  runSession_singleton (decode_encode rfl) hp

theorem runSession_decs_cons (x y : Byte) (rest : List Byte) :
    runSession (decs (x :: y :: rest)) u = andThen (exec (.dec x) u) (runSession (decs (y :: rest))) :=
  runSession_cons (decode_encode rfl) _ hp

end

/-- The bits DECS consumes of a payload: all but the padding (R174). -/
def consumedBits (padIn : BitVec 3) (payload : List Byte) : List Bool :=
  (payload.flatMap byteBits).take (8 * payload.length - padIn.toNat)

theorem consumedBits_nil (padIn : BitVec 3) : consumedBits padIn [] = [] := List.take_nil

theorem consumedBits_singleton (s : State) (x : Byte) : consumedBits s.padIn [x] = s.lastBits x := by
  simp [consumedBits, State.lastBits]

/-- There are at most seven padding bits, so they all lie in the last byte. -/
theorem consumedBits_cons (padIn : BitVec 3) (x y : Byte) (rest : List Byte) :
    consumedBits padIn (x :: y :: rest) = byteBits x ++ consumedBits padIn (y :: rest) := by
  have hpad := padIn.isLt
  have hsplit : 8 * (x :: y :: rest).length - padIn.toNat = (byteBits x).length + (8 * (y :: rest).length - padIn.toNat) := by
    simp only [List.length_cons, length_byteBits]
    omega
  rw [consumedBits, hsplit, List.flatMap_cons, List.take_length_add_append]
  rfl

/-- A payload whose descent from the cursor rests at the root is decoded, and ends its stream with no error. -/
theorem runSession_decs {u : State} {payload input : List Byte} (h : Invariants u) (he : u.err = 0) (hp : u.port = [])
    (hv : u.treeValid = true) (hs : symbolsOf u.node u.cursor (consumedBits u.padIn payload) = (input, Config.root)) :
    runSession (decs payload) u = .next { u with out := u.out ++ input, cursor := Config.root, decOpen := false } := by
  induction payload using decs.induct generalizing u input with
  | case1 =>
    rw [consumedBits_nil] at hs
    obtain ⟨rfl, hc⟩ := Prod.mk.inj hs
    rw [runSession_decs_nil hp, exec_decend_of_root he hv hc, List.append_nil, ← hc]
  | case2 x =>
    rw [consumedBits_singleton] at hs
    rw [runSession_decs_singleton hp, exec_declast_of_root h he hv x (congrArg Prod.snd hs), hs]
  | case3 x y rest ih =>
    rw [consumedBits_cons, symbolsOf_append _ (h.fullTree hv).childrenInTree _ h.cursorInternal] at hs
    obtain ⟨rfl, hrests⟩ := Prod.mk.inj hs
    have hdec := exec_dec h he hv x
    rw [runSession_decs_cons hp, hdec, andThen_next,
      ih (exec_keeps_invariants h hdec) he hp hv (Prod.ext rfl hrests), List.append_assoc]

/-- A packed stream of codes is decoded by any block with the encoder's tree, at rest, and the stream's padding count. -/
theorem runSession_decs_of_packs {u : State} {payload input : List Byte} (h : Invariants u) (hready : ready u)
    (hv : u.treeValid = true) (hd : u.decOpen = false) (hpacks : packs payload (u.payloadBits input))
    (hpad : u.padIn.toNat = (8 - (u.payloadBits input).length % 8) % 8) :
    runSession (decs payload) u = .next { u with out := u.out ++ input } := by
  have hbits : consumedBits u.padIn payload = u.payloadBits input := by
    have hlen : 8 * payload.length - u.padIn.toNat = (u.payloadBits input).length := by
      rw [hpacks.1, hpad]
      omega
    rw [consumedBits, hlen, take_of_packs hpacks]
  have hcursor := h.decIdle hd
  rw [runSession_decs (input := input) h hready.1 hready.2 hv, ← hcursor, ← hd]
  rw [hbits, hcursor]
  exact symbolsOf_payloadBits (h.descend_code hv) (h.codeBitsOf_ne_nil hv) input

/-- The codes are a function of the weights (42_tree_builder.md R128). -/
theorem payloadBits_eq_of_freq {s u : State} (hs : Invariants s) (hu : Invariants u) (hsv : s.treeValid = true)
    (huv : u.treeValid = true) (hf : u.freq = s.freq) (input : List Byte) : u.payloadBits input = s.payloadBits input := by
  obtain ⟨-, hns, hls, hcs⟩ := hs.tablesCurrent hsv
  obtain ⟨-, hnu, hlu, hcu⟩ := hu.tablesCurrent huv
  have hnode : u.node = s.node := by rw [hnu, hns, hf]
  have hcodes : u.codeBitsOf = s.codeBitsOf :=
    funext (codeBitsOf_congr (by rw [hlu, hls, hnode]) (by rw [hcu, hcs, hnode]))
  rw [State.payloadBits, State.payloadBits, hcodes]

/-- R176: on a block with a tree from the encoder's weights, and the stream's padding count in `PAD_IN`, DECS of what ENCS
emitted emits the input and changes nothing else. -/
theorem runSession_decs_of_stream {s t u : State} {input : List Byte} (hs : Invariants s) (hsready : ready s)
    (henc : s.encOpen = false) (hsv : s.treeValid = true) (ht : runSession (encs input) s = .next t)
    (hu : Invariants u) (huready : ready u) (hf : u.freq = s.freq) (huv : u.treeValid = true) (hd : u.decOpen = false)
    (hpad : u.padIn = t.padOut) : runSession (decs (sessionOut s t)) u = .next { u with out := u.out ++ input } := by
  obtain ⟨t', ht', herr, -⟩ := encodedBytesAreThePayload.2 s input hs hsready henc hsv
  obtain rfl := Host.Outcome.next.inj (ht'.symm.trans ht)
  obtain ⟨-, hpacks, hcount⟩ := stream_emits hs hsready henc ht herr
  rw [← payloadBits_eq_of_freq hs hu hsv huv hf, ← hpad] at hcount
  rw [← payloadBits_eq_of_freq hs hu hsv huv hf] at hpacks
  exact runSession_decs_of_packs hu huready huv hd hpacks hcount

/-- SETPAD of a padding count, as a byte of the host, stores it. -/
theorem runSession_setpad_cons {u : State} (hready : ready u) (p : BitVec 3) (is : List Instr) :
    runSession (.setpad (p.setWidth 8) :: is) u = runSession is (u.setPadIn p) := by
  have hle : (p.setWidth 8).toNat ≤ 7 := by
    rw [BitVec.toNat_setWidth]
    omega
  have hback : (p.setWidth 8).setWidth 3 = p := by simp
  rw [runSession_cons (decode_encode rfl) is hready.2, exec_setpad_of_le hready.1 hle, andThen_next, hback]

/-- Settles O35: `runSession_decs_of_stream`, after SETPAD. -/
theorem decodingInvertsEncoding : Obligations.DecodingInvertsEncoding := by
  unfold Obligations.DecodingInvertsEncoding
  intro s t u input hs hsready henc hsv ht hu huready hf huv hd
  have hrun := runSession_decs_of_stream (u := u.setPadIn t.padOut) hs hsready henc hsv ht (hu.setPadIn _) huready hf huv hd rfl
  rw [runSession_setpad_cons huready, hrun]
  exact ⟨_, rfl, List.drop_left, huready.1, hd, hu.decIdle hd⟩

end Sys2Proof.Machine
end

section
/-! The host's sequences (70_reset_and_hazards.md R233, R234): the weights reach `FREQ`, BUILD accepts them, and a container is
decoded with the tree and the padding count it was made with. -/

namespace Sys2Proof.Machine

/-! ### Loading the weights (30_encoding.md R83) -/

/-- `FREQ` after `LOADW` of a list into cleared registers. -/
def weightTable (weights : List Word) : Vector Word 256 := Vector.ofFn fun i => weights.getD i 0

theorem weightTable_nil : weightTable [] = State.reset.freq := by
  ext i hi
  simp [weightTable, State.reset]

theorem weightTable_snoc (weights : List Word) (v : Word) (h : weights.length < 256) :
    (weightTable weights).set weights.length v = weightTable (weights ++ [v]) := by
  ext1 i hi
  simp only [weightTable, Vector.getElem_set, Vector.getElem_ofFn, List.getD_eq_getElem?_getD]
  rcases lt_trichotomy i weights.length with hlt | rfl | hgt
  · rw [if_neg hlt.ne', List.getElem?_append_left hlt]
  · simp
  · rw [if_neg hgt.ne, List.getElem?_eq_none hgt.le, List.getElem?_eq_none (by simpa using hgt)]

theorem allLegal_weightTable {weights : List Word} (hlen : weights.length = 256) (h : ∀ v ∈ weights, legalWeight v = true) :
    allLegal (weightTable weights) = true := by
  rw [allLegal_iff]
  intro i hi
  rw [weightTable, Vector.getElem_ofFn, List.getD_eq_getElem _ _ (hi.trans_eq hlen.symm)]
  exact h _ (List.getElem_mem _)

/-- Cleared registers, but for a header's weights and padding count. -/
def State.loaded (s : State) (freq : Vector Word 256) (pad : BitVec 3) : State := { s.resetRegs with freq := freq, padIn := pad }

section
variable (s : State) (freq : Vector Word 256) (pad : BitVec 3)

@[simp] theorem State.loaded_port : (s.loaded freq pad).port = s.port := rfl
@[simp] theorem State.loaded_out : (s.loaded freq pad).out = s.out := rfl
@[simp] theorem State.loaded_freq : (s.loaded freq pad).freq = freq := rfl
@[simp] theorem State.loaded_padIn : (s.loaded freq pad).padIn = pad := rfl
@[simp] theorem State.loaded_err : (s.loaded freq pad).err = 0 := rfl
@[simp] theorem State.loaded_encOpen : (s.loaded freq pad).encOpen = false := rfl
@[simp] theorem State.loaded_decOpen : (s.loaded freq pad).decOpen = false := rfl
theorem State.loaded_streamOpen : (s.loaded freq pad).streamOpen = false := rfl

theorem State.loaded_setFreq (i : Byte) (v : Word) :
    ((s.loaded freq pad).setFreq i v).setTreeValid false = s.loaded (freq.set i.toNat v i.isLt) pad := rfl

theorem State.loaded_setPadIn (p : BitVec 3) : (s.loaded freq pad).setPadIn p = s.loaded freq p := rfl

theorem invariants_loaded : Invariants (s.loaded freq pad) :=
  { Invariants.resetRegs s with tablesCurrent := fun h => Bool.noConfusion h }

end

theorem loadw_snoc (weights : List Word) (v : Word) :
    loadw (weights ++ [v]) = loadw weights ++ [.wfreq (BitVec.ofNat 8 weights.length) v] := by
  simp [loadw, List.zipIdx_append]

section
variable {s : State} (hp : s.port = [])
include hp

theorem runSession_wfreq_loaded (freq : Vector Word 256) (pad : BitVec 3) (i : Byte) (v : Word) :
    runSession [.wfreq i v] (s.loaded freq pad) = .next (s.loaded (freq.set i.toNat v i.isLt) pad) := by
  rw [runSession_singleton (decode_encode (i := .wfreq i v) rfl) ((s.loaded_port freq pad).trans hp),
    exec_wfreq_of_closed (s.loaded_err freq pad) (s.loaded_streamOpen freq pad), State.loaded_setFreq]

theorem runSession_loadw (weights : List Word) (h : weights.length ≤ 256) :
    runSession (loadw weights) (s.loaded (weightTable []) 0) = .next (s.loaded (weightTable weights) 0) := by
  induction weights using List.reverseRecOn with
  | nil => exact runSession_nil ((s.loaded_port _ 0).trans hp)
  | append_singleton weights v ih =>
    rw [List.length_append, List.length_singleton] at h
    have hidx : (BitVec.ofNat 8 weights.length).toNat = weights.length := Nat.mod_eq_of_lt (by omega)
    rw [loadw_snoc, runSession_append _ _ ((s.loaded_port _ 0).trans hp), ih (by omega), andThen_next, runSession_wfreq_loaded hp]
    simp only [hidx]
    rw [weightTable_snoc weights v (by omega)]

/-- CLEAR and LOADW, whatever the state before. -/
theorem runSession_clear_loadw (weights : List Word) (h : weights.length ≤ 256) (is : List Instr) :
    runSession (.clear :: (loadw weights ++ is)) s = runSession is (s.loaded (weightTable weights) 0) := by
  have hclear : s.resetRegs = s.loaded (weightTable []) 0 := by rw [weightTable_nil]; rfl
  rw [runSession_cons (decode_encode rfl) _ hp, exec_clear, andThen_next, hclear,
    runSession_append _ _ ((s.loaded_port _ 0).trans hp), runSession_loadw hp weights h, andThen_next]

theorem runSession_build_loaded {freq : Vector Word 256} (hl : allLegal freq = true) (pad : BitVec 3) (is : List Instr) :
    runSession (.build :: is) (s.loaded freq pad) = runSession is (s.loaded freq pad).builtTree := by
  rw [runSession_cons (decode_encode rfl) is ((s.loaded_port freq pad).trans hp),
    exec_build_of_legal (s.loaded_err freq pad) (s.loaded_streamOpen freq pad) hl, andThen_next]

end

/-! ### The block after BUILD -/

/-- The block the host's sequences stream through: the header's weights and padding count, and their tree. -/
def State.prepared (s : State) (weights : List Word) (pad : BitVec 3) : State := (s.loaded (weightTable weights) pad).builtTree

section
variable (s : State) (weights : List Word) (pad : BitVec 3)

theorem State.prepared_eq : s.prepared weights pad = { s.loaded (weightTable weights) pad with
    treeValid := true, cursor := Config.root, node := buildNodes (weightTable weights),
    clen := deriveClen (buildNodes (weightTable weights)), code := deriveCode (buildNodes (weightTable weights)) } :=
  builtTree_eq _

@[simp] theorem State.prepared_freq : (s.prepared weights pad).freq = weightTable weights := by
  simp only [State.prepared_eq, State.loaded_freq]
@[simp] theorem State.prepared_treeValid : (s.prepared weights pad).treeValid = true := by rw [State.prepared_eq]
@[simp] theorem State.prepared_port : (s.prepared weights pad).port = s.port := by
  simp only [State.prepared_eq, State.loaded_port]
@[simp] theorem State.prepared_out : (s.prepared weights pad).out = s.out := by
  simp only [State.prepared_eq, State.loaded_out]
@[simp] theorem State.prepared_err : (s.prepared weights pad).err = 0 := by
  simp only [State.prepared_eq, State.loaded_err]
@[simp] theorem State.prepared_padIn : (s.prepared weights pad).padIn = pad := by
  simp only [State.prepared_eq, State.loaded_padIn]
@[simp] theorem State.prepared_encOpen : (s.prepared weights pad).encOpen = false := by
  simp only [State.prepared_eq, State.loaded_encOpen]
@[simp] theorem State.prepared_decOpen : (s.prepared weights pad).decOpen = false := by
  simp only [State.prepared_eq, State.loaded_decOpen]

/-- What a session has emitted since the block was prepared, which emits nothing. -/
@[simp] theorem sessionOut_prepared (t : State) : sessionOut (s.prepared weights pad) t = sessionOut s t := by
  rw [sessionOut, sessionOut, State.prepared_out]

end

section
variable {s : State} (hp : s.port = []) {weights : List Word} (hlen : weights.length = 256)
  (hlegal : ∀ v ∈ weights, legalWeight v = true) (pad : BitVec 3)

include hp in
theorem ready_prepared : ready (s.prepared weights pad) := 
  ⟨s.prepared_err weights pad, (s.prepared_port weights pad).trans hp⟩

include hlen hlegal

theorem invariants_prepared : Invariants (s.prepared weights pad) :=
  (invariants_loaded s _ pad).builtTree (allLegal_weightTable hlen hlegal)

include hp

/-- The decompress sequence on a container of its two parts. -/
theorem runSession_decompressCmds (payload : List Byte) :
    runSession (decompressCmds (header weights (pad.setWidth 8) ++ payload)) s =
      runSession (decs payload) (s.prepared weights pad) := by
  have hheader := length_header hlen (pad.setWidth 8)
  have hloaded : ready (s.loaded (weightTable weights) 0) := ⟨s.loaded_err _ 0, (s.loaded_port _ 0).trans hp⟩
  rw [decompressCmds, List.take_left' hheader, List.drop_left' hheader, loadhdr_header hlen, List.append_assoc,
    runSession_clear_loadw hp weights hlen.le, List.singleton_append, runSession_setpad_cons hloaded, State.loaded_setPadIn,
    runSession_build_loaded hp (allLegal_weightTable hlen hlegal), State.prepared]

end

theorem runSession_compressCmds {s : State} (hp : s.port = []) (input : List Byte) :
    runSession (compressCmds input) s = runSession (encs input) (s.prepared (normalise input) 0) := by
  have hlen := length_normalise input
  have hlegal := allLegal_weightTable hlen fun _ hv => (normalise_legal hv).1
  rw [compressCmds, runSession_clear_loadw hp _ hlen.le, runSession_build_loaded hp hlegal, State.prepared]

/-! ### What the host makes of a session (70_reset_and_hazards.md R236) -/

theorem sessionEnd_of_closed {t : State} (he : t.err = 0) (henc : t.encOpen = false) (hdec : t.decOpen = false) :
    sessionEnd t.statusView = .succeeded := by
  obtain ⟨-, h5, h6, -⟩ := statusView_flags t
  rw [sessionEnd, statusView_err, h5, h6, he, henc, hdec]
  rfl

theorem afterSession_of_closed {α : Type} {is : List Instr} {s t : State} (h : runSession is s = .next t) (he : t.err = 0)
    (henc : t.encOpen = false) (hdec : t.decOpen = false) (f : State → α) : afterSession is s f = .ok (f t) := by
  rw [afterSession, h]
  exact if_pos (sessionEnd_of_closed he henc hdec)

theorem decOpen_flushed_appendBits (s : State) (bits : List Bool) : (flushed (appendBits s bits)).decOpen = s.decOpen := by
  obtain ⟨a, p, o, happ, -, -⟩ := appendBits_frame s bits
  rw [happ, flushed_eq]

/-- R233: compress answers the header and the payload, from a stream through the prepared block. -/
theorem compress_eq {s : State} (hp : s.port = []) (input : List Byte) :
    ∃ t, runSession (encs input) (s.prepared (normalise input) 0) = .next t ∧
      compress input s = .ok (header (normalise input) (t.padOut.setWidth 8) ++ sessionOut s t) := by
  have hready := ready_prepared hp (weights := normalise input) 0
  have hinv := invariants_prepared (s := s) (length_normalise input) (fun _ hv => (normalise_legal hv).1) 0
  obtain ⟨t, ht, herr, henc⟩ := encodedBytesAreThePayload.2 _ input hinv hready (by simp) (by simp)
  have hdec : t.decOpen = false := by
    rw [eq_flushed_of_runSession_encs hready ht herr, decOpen_flushed_appendBits, State.prepared_decOpen]
  obtain ⟨-, hpad, -⟩ := statusView_fields t
  refine ⟨t, ht, ?_⟩
  rw [compress, afterSession_of_closed ((runSession_compressCmds hp input).trans ht) herr henc hdec, hpad]

/-- Settles O36: both sequences prepare their block with the same weights, and R176 gives the stream back. -/
theorem decompressInvertsCompress : Obligations.DecompressInvertsCompress := by
  unfold Obligations.DecompressInvertsCompress
  intro input s s' hp hp'
  have hlen := length_normalise input
  have hlegal : ∀ v ∈ normalise input, legalWeight v = true := fun _ hv => (normalise_legal hv).1
  obtain ⟨t, ht, hcompress⟩ := compress_eq hp input
  have hbytes : Config.hdrBytes ≤ (header (normalise input) (t.padOut.setWidth 8) ++ sessionOut s t).length := by
    rw [List.length_append, length_header hlen]
    exact Nat.le_add_right _ _
  have hrun := runSession_decs_of_stream (u := s'.prepared (normalise input) t.padOut) (invariants_prepared hlen hlegal 0)
    (ready_prepared hp 0) (by simp) (by simp) ht (invariants_prepared hlen hlegal _) (ready_prepared hp' _) (by simp) (by simp)
    (by simp) (by simp)
  rw [sessionOut_prepared, ← runSession_decompressCmds hp' hlen hlegal] at hrun
  refine ⟨_, hcompress, hbytes, ?_⟩
  rw [decompress, if_neg (Nat.not_lt.2 hbytes), afterSession_of_closed hrun (by simp) (by simp) (by simp)]
  simp [sessionOut]

end Sys2Proof.Machine
end

section
/-! NOP and CLEAR, which no recorded error stops (45_control.md R190, R191), and what it does stop: every word but CLEAR's
(60_exceptions.md R202). -/

namespace Sys2Proof.Machine

theorem illegalWords_nop : illegalWords 0x00 fun w => w ≠ 0 :=
  illegalWords_of_fixed_row (r := rows[0]) (List.getElem_mem _) rfl

theorem illegalWords_clear : illegalWords 0x01 fun w => w ≠ 1 :=
  illegalWords_of_fixed_row (r := rows[1]) (List.getElem_mem _) rfl

theorem exec_nop (s : State) : exec .nop s = .next s := rfl

theorem freqAt_resetRegs (s : State) (i : Byte) : s.resetRegs.freqAt i = 0 := by simp [State.freqAt, State.reset]

theorem atReset_resetRegs (s : State) : AtReset s.resetRegs :=
  ⟨freqAt_resetRegs s, rfl, rfl, rfl, rfl, rfl, rfl, rfl, rfl, rfl, rfl, rfl⟩

section
variable {s : State} {ps : List HostInput}

theorem step_of_nop (hp : s.port = .command 0 :: ps) : step s = .next { s with port := ps } :=
  step_of_ok hp (decode_encode (i := .nop) rfl)

theorem step_of_clear (hp : s.port = .command 1 :: ps) : step s = .next ({ s with port := ps } : State).resetRegs :=
  step_of_ok hp (decode_encode (i := .clear) rfl)

/-- In the sticky state a word other than CLEAR's is taken from the port and ignored, whether it is legal or not. -/
theorem step_of_sticky {w : CmdWord} (he : s.err ≠ 0) (hp : s.port = .command w :: ps) (hw : w ≠ 1) :
    step s = .next { s with port := ps } := by
  cases hd : decode w with
  | ok i =>
    have hi : i ≠ .clear := by
      rintro rfl
      exact hw (encodeOfDecodeIsTheWord w .clear hd).2.symm
    rw [step_of_ok hp hd, exec_eq_execute hi]
    exact execute_of_sticky he
  | error e =>
    rw [step_of_illegal hp hd]
    exact rejectWord_of_sticky he

end

/-- Settles O12. -/
theorem nopHasNoEffect : Obligations.NopHasNoEffect :=
  ⟨exec_nop, fun _ _ hp => step_of_nop hp, illegalWords_nop⟩

/-- Settles O13: a malformed CLEAR is one of the words that `step_of_sticky` speaks of. -/
theorem clearResetsFromEveryState : Obligations.ClearResetsFromEveryState :=
  ⟨fun s => ⟨_, exec_clear s, atReset_resetRegs s, rfl⟩, fun _ _ hp => ⟨_, step_of_clear hp, atReset_resetRegs _, rfl, rfl⟩,
    illegalWords_clear, fun _ _ _ he hp _ hw => step_of_sticky he hp hw⟩

end Sys2Proof.Machine
end

section
/-! The error state: what a recorded error stops and what ends it (60_exceptions.md R202, R206), what a command that raises
has done and why it raised (R200, R203, R204). -/

namespace Sys2Proof.Machine

/-- Settles O37. -/
theorem stickyStateIgnoresCommands : Obligations.StickyStateIgnoresCommands :=
  ⟨fun _ _ _ he hp hw => step_of_sticky he hp hw, fun _ _ _ hp => ⟨_, step_of_clear hp, atReset_resetRegs _⟩,
    fun _ s he hi => (exec_eq_execute hi s).trans (execute_of_sticky he)⟩

/-- Settles O38: by what stands first in the port. -/
theorem onlyClearOrResetLeavesTheErrorState : Obligations.OnlyClearOrResetLeavesTheErrorState := by
  unfold Obligations.OnlyClearOrResetLeavesTheErrorState
  intro s t he ht
  rcases hp : s.port with _ | ⟨w | _, ps⟩
  · rw [step_of_empty hp] at ht
    cases ht
    exact .inl ⟨rfl, rfl⟩
  · by_cases hw : w = 1
    · subst hw
      rw [step_of_clear hp] at ht
      cases ht
      exact .inr ⟨⟨ps, .inl rfl⟩, atReset_resetRegs _⟩
    · rw [step_of_sticky he hp hw] at ht
      cases ht
      exact .inl ⟨rfl, rfl⟩
  · rw [step_of_reset hp] at ht
    cases ht
    exact .inr ⟨⟨ps, .inr rfl⟩, atReset_resetRegs { s with port := ps }⟩

section
variable {i : Instr} {s t : State} {c : ErrCode}

/-- What the first failing check says of the command and the state, error by error (R200, R203). No check raises
CORRUPT_PAYLOAD, which is the end check's (R172). -/
def checkCause (s : State) (i : Instr) : ErrCode → Prop
  | .illegalCmd => i.wellFormed = false
  | .noTree => i.wellFormed = true ∧ needsTree i = true ∧ s.treeValid = false
  | .corruptHeader => (i = .build ∧ s.streamOpen = false ∧ allLegal s.freq = false) ∨ ∃ p, i = .setpad p ∧ 7 < p.toNat
  | .corruptPayload => False
  | .sequence => s.streamOpen = true ∧ (i = .build ∨ ∃ j v, i = .wfreq j v)

/-- The checks of a command that needs the tree: its operand's range, which only RNODE and RWGT can miss (R76), and the tree. -/
theorem checkCause_of_tree_checks {ok : Bool} (hw : i.wellFormed = ok) (hn : needsTree i = true)
    (h : firstError [(!ok, .illegalCmd), s.treeCheck] = some c) : checkCause s i c := by
  cases ok with
  | false => cases h; exact hw
  | true =>
    obtain ⟨hv, rfl⟩ : s.treeValid = false ∧ ErrCode.noTree = c := by simpa [State.treeCheck] using h
    exact ⟨hw, hn, hv⟩

theorem checkCause_of_firstError (h : firstError (checksOf s i) = some c) : checkCause s i c := by
  cases i with
  | nop | clear | rfreq | eflush => simp [checksOf] at h
  | wfreq j v =>
    obtain ⟨ho, rfl⟩ : s.streamOpen = true ∧ ErrCode.sequence = c := by simpa [checksOf, State.streamCheck] using h
    exact ⟨ho, .inr ⟨j, v, rfl⟩⟩
  | build =>
    cases ho : s.streamOpen with
    | true =>
      obtain rfl : ErrCode.sequence = c := by simpa [checksOf, State.streamCheck, ho] using h
      exact ⟨ho, .inl rfl⟩
    | false =>
      obtain ⟨hl, rfl⟩ : allLegal s.freq = false ∧ ErrCode.corruptHeader = c := by
        simpa [checksOf, State.streamCheck, ho] using h
      exact .inl ⟨rfl, ho, hl⟩
  | setpad p =>
    obtain ⟨hp, rfl⟩ : 7 < p.toNat ∧ ErrCode.corruptHeader = c := by
      simpa [checksOf, Config.padMax, BitVec.ult] using h
    exact .inr ⟨p, rfl, hp⟩
  | rnode n => exact checkCause_of_tree_checks (ok := isInternalIdx n) rfl rfl h
  | rwgt n => exact checkCause_of_tree_checks (ok := isNodeIdx n) rfl rfl h
  | rclen | rcode | enc | dec | declast | decend =>
    exact checkCause_of_tree_checks (ok := true) rfl rfl h

/-- The end check of `i` found the cursor inside a code, and `t` is what it left (R172, R204). -/
def endCheckFails (s t : State) (i : Instr) : Prop :=
  (∃ x, i = .declast x ∧ (symbolsOf s.node s.cursor (s.lastBits x)).2 ≠ Config.root ∧
    t = { s with out := s.out ++ (symbolsOf s.node s.cursor (s.lastBits x)).1, cursor := Config.root, decOpen := false,
                 err := 4, errOpc := 0x32 }) ∨
  (i = .decend ∧ s.cursor ≠ Config.root ∧
    t = { s with cursor := Config.root, decOpen := false, err := 4, errOpc := 0x33 })

theorem endCheckFails_of_declast {x : Byte} (he : s.err = 0) (h : effectOf s (.declast x) = .next t) (ht : t.err ≠ 0) :
    endCheckFails s t (.declast x) := by
  obtain ⟨m, hm, hend⟩ := andThen_eq_next.1 h
  obtain rfl := decBits_next hm
  rcases endCheck_cases 0x32 _ with ⟨-, hc⟩ | ⟨hinside, hc⟩ <;> rw [hc] at hend <;> cases hend
  · exact absurd he ht
  · exact .inl ⟨x, rfl, hinside, rfl⟩

/-- No effect but an end check's raises. -/
theorem endCheckFails_of_effectOf (he : s.err = 0) (hi : i ≠ .clear) (h : effectOf s i = .next t) (ht : t.err ≠ 0) :
    endCheckFails s t i := by
  have hf := effectOf_frame h
  cases i with
  | clear => exact absurd rfl hi
  | declast x => exact endCheckFails_of_declast he h ht
  | decend =>
    rcases hf with ⟨-, rfl⟩ | hfails
    · exact absurd he ht
    · exact .inr ⟨rfl, hfails⟩
  | nop | wfreq | rfreq | rclen | rcode | setpad => cases hf; exact absurd he ht
  | build => rw [hf, builtTree_eq] at ht; exact absurd he ht
  | rnode | rwgt => obtain ⟨v, rfl⟩ := hf; exact absurd he ht
  | enc => obtain ⟨a, p, o, rfl, -⟩ := hf; exact absurd he ht
  | eflush | dec => obtain ⟨a, o, rfl, -⟩ := hf; exact absurd he ht

/-- What a command that raises has done: recorded the error of its first failing check, or failed its end check. -/
theorem exec_raises_cases (he : s.err = 0) (h : exec i s = .next t) (ht : t.err ≠ 0) :
    (∃ c, firstError (checksOf s i) = some c ∧ t = s.setErr c.bits i.opcode) ∨
    (firstError (checksOf s i) = none ∧ endCheckFails s t i) := by
  rcases exec_cases i s with ⟨-, hx⟩ | ⟨-, hne, -⟩ | ⟨-, -, c, hc, hx⟩ | ⟨hi, -, hc, hx⟩
  · rw [hx] at h
    cases h
    exact absurd rfl ht
  · exact absurd he hne
  · rw [hx] at h
    cases h
    exact .inl ⟨c, hc, rfl⟩
  · exact .inr ⟨hc, endCheckFails_of_effectOf he hi (hx ▸ h) ht⟩

end

/-- Settles O39: the checks record an error and do nothing else, and none of them records code 4. -/
theorem errorsArePrecise : Obligations.ErrorsArePrecise := by
  unfold Obligations.ErrorsArePrecise
  intro i s t he h ht
  rcases exec_raises_cases he h ht with ⟨c, hc, rfl⟩ | ⟨-, ⟨x, rfl, -, rfl⟩ | ⟨rfl, -, rfl⟩⟩
  · refine .inl ⟨fun h4 => ?_, rfl⟩
    obtain rfl : c = .corruptPayload := errCode_injective h4
    exact checkCause_of_firstError hc
  · exact .inr (.inl ⟨rfl, ⟨x, rfl⟩, List.prefix_append _ _, rfl⟩)
  · exact .inr (.inr ⟨rfl, rfl, rfl⟩)

/-- Settles O40: each error of the checks by `checkCause`, code 4 by the end check, which comes after the tree check. -/
theorem errorsHaveTheirCauses : Obligations.ErrorsHaveTheirCauses := by
  unfold Obligations.ErrorsHaveTheirCauses
  intro i s t he h ht
  rcases exec_raises_cases he h ht with ⟨c, hc, rfl⟩ | ⟨hpass, ⟨x, rfl, hinside, rfl⟩ | ⟨rfl, hinside, rfl⟩⟩
  · have hcause := checkCause_of_firstError hc
    cases c with
    | illegalCmd => exact .inl ⟨rfl, hcause⟩
    | noTree => exact .inr (.inl ⟨rfl, hcause⟩)
    | corruptHeader => exact .inr (.inr (.inl ⟨rfl, hcause⟩))
    | corruptPayload => exact hcause.elim
    | sequence => exact .inr (.inr (.inr (.inr ⟨rfl, hcause⟩)))
  · rw [lastBits_eq] at hinside
    exact .inr (.inr (.inr (.inl ⟨rfl, treeValid_of_passes rfl hpass, .inr ⟨x, rfl, hinside⟩⟩)))
  · exact .inr (.inr (.inr (.inl ⟨rfl, treeValid_of_passes rfl hpass, .inl ⟨rfl, hinside⟩⟩)))

end Sys2Proof.Machine
end

section
/-! Reset, the end of a session and the stale tree: the host reads `STATUS` after reset and after its last command
(70_reset_and_hazards.md R230, R236), and a write of a weight shuts out the tree that was built before it (R238). -/

namespace Sys2Proof.Machine

/-! ### What the host reads after reset (10_state.md R38, R39, R41) -/

section
variable {s : State}

theorem AtReset.statusView_eq (h : AtReset s) : s.statusView = 0x03FC0000 := by
  rw [State.statusView, h.cursor, h.padIn, h.padOut, h.bitpos, h.decOpen, h.encOpen, h.treeValid, h.err]
  rfl

theorem AtReset.errInfoView_eq_zero (h : AtReset s) : s.errInfoView = 0 := by
  rw [State.errInfoView, h.errOpc]
  rfl

end

/-- Settles O10: CLEAR and the reset input both leave `resetRegs`, which takes nothing from `OUT` or the port. -/
theorem resetGivesTheResetValues : Obligations.ResetGivesTheResetValues :=
  ⟨atReset_resetRegs State.reset,
    fun s => ⟨_, exec_clear s, atReset_resetRegs s, rfl, rfl⟩,
    fun s ps hp => ⟨_, step_of_reset hp, atReset_resetRegs { s with port := ps }, rfl, rfl⟩,
    fun _ h => ⟨h.statusView_eq, h.errInfoView_eq_zero, h.resp⟩⟩

/-! ### The end of a session -/

/-- R236 on the registers that `STATUS` shows; an error comes before an open stream (log entry 19). -/
theorem sessionEnd_statusView (s : State) : sessionEnd s.statusView =
    if s.err ≠ 0 then .failed else if s.streamOpen then .unfinished else .succeeded := by
  obtain ⟨-, henc, hdec, -⟩ := statusView_flags s
  rw [sessionEnd, statusView_err, henc, hdec, State.streamOpen]

/-- Settles O50, by whether an error is recorded and whether a stream is open. -/
theorem sessionEndReadsTheFlags : Obligations.SessionEndReadsTheFlags := by
  unfold Obligations.SessionEndReadsTheFlags
  intro s
  rw [sessionEnd_statusView, ← Bool.or_eq_true, ← Bool.or_eq_false_iff, ← State.streamOpen]
  by_cases he : s.err = 0
  · cases s.streamOpen <;> simp [he]
  · simp only [ne_eq, he, not_false_eq_true, if_true, false_and, reduceCtorEq, iff_self, and_self]

/-! ### The stale tree -/

/-- Settles O25: with a stream open WFREQ raises; with both closed it clears `TREE_VALID` and leaves the tables, and without
`TREE_VALID` no command gets past the tree check. -/
theorem staleTreeCannotBeUsed : Obligations.StaleTreeCannotBeUsed := by
  unfold Obligations.StaleTreeCannotBeUsed
  intro i v s t h hs ht
  cases ho : s.streamOpen with
  | true =>
    rw [exec_wfreq_of_open hs ho] at h
    cases h
    exact absurd (show (5 : BitVec 4) = 0 from ht) (by decide)
  | false =>
    rw [exec_wfreq_of_closed hs ho] at h
    cases h
    exact ⟨rfl, rfl, rfl, rfl, fun _ hn hw => exec_of_noTree hn hw ht rfl⟩

end Sys2Proof.Machine
end

section
/-! Where the model can stop (its own choices, log entries 2 and 5): an empty port leaves the state as it is, and from any
state, invariants or not, a command answers a next state or its descent has met a node index without a record. -/

namespace Sys2Proof.Machine

/-- Settles O11. -/
theorem emptyPortStepIsIdle : Obligations.EmptyPortStepIsIdle := fun _ h => step_of_empty h

/-- The answer is a next state, or the fault of a node index without a record. -/
def CompletesOrMeetsNoNode (r : Result) : Prop :=
  (∃ t, r = .next t) ∨ ∃ n, r = .fault (.noSuchNode n) ∧ isInternalIdx n = false

/-- What follows a result adds no way to stop, if it always completes. -/
theorem CompletesOrMeetsNoNode.andThen {r : Result} {f : State → Result} (h : CompletesOrMeetsNoNode r)
    (hf : ∀ t, ∃ u, f t = .next u) : CompletesOrMeetsNoNode (andThen r f) := by
  rcases h with ⟨t, rfl⟩ | ⟨n, rfl, hn⟩
  · exact .inl (hf t)
  · exact .inr ⟨n, rfl, hn⟩

section
variable {i : Instr} {s : State}

/-- What holds of every next state, and of the effect once the checks pass, holds of the command's answer. -/
theorem exec_of_effectOf {P : Result → Prop} (hnext : ∀ t, P (.next t))
    (heffect : firstError (checksOf s i) = none → P (effectOf s i)) : P (exec i s) := by
  rcases exec_cases i s with ⟨-, he⟩ | ⟨-, -, he⟩ | ⟨-, -, c, -, he⟩ | ⟨-, -, hc, he⟩ <;> rw [he]
  · exact hnext _
  · exact hnext _
  · exact hnext _
  · exact heffect hc

theorem exec_completes_of_no_descent (hd : ∀ x, i ≠ .dec x) (hl : ∀ x, i ≠ .declast x) : ∃ t, exec i s = .next t :=
  exec_of_effectOf (P := fun r => ∃ t, r = .next t) (fun t => ⟨t, rfl⟩) fun hc => effectOf_completes_of_no_descent hc hd hl

/-- DEC and DECLAST stop where their descent does (`decBits_stops`); no other command stops. -/
theorem effectOf_completesOrMeetsNoNode (hc : firstError (checksOf s i) = none) :
    CompletesOrMeetsNoNode (effectOf s i) := by
  cases i with
  | dec x => exact CompletesOrMeetsNoNode.andThen decBits_stops fun t => ⟨_, rfl⟩
  | declast x => exact CompletesOrMeetsNoNode.andThen decBits_stops (endCheck_completes 0x32)
  | _ => exact .inl (effectOf_completes_of_no_descent hc (by simp) (by simp))

theorem exec_completesOrMeetsNoNode (i : Instr) (s : State) : CompletesOrMeetsNoNode (exec i s) :=
  exec_of_effectOf (fun t => .inl ⟨t, rfl⟩) effectOf_completesOrMeetsNoNode

end

/-- Settles O44: the two answers of `exec_completesOrMeetsNoNode`, the second of them the descent's alone. -/
theorem onlyTheDescentCanFault : Obligations.OnlyTheDescentCanFault := by
  unfold Obligations.OnlyTheDescentCanFault
  refine ⟨fun i s hd hl => exec_completes_of_no_descent hd hl, fun i s r h => ?_, fun i s n h => ?_⟩
  · rcases exec_completesOrMeetsNoNode i s with ⟨t, ht⟩ | ⟨m, hm, -⟩
    · cases h.symm.trans ht
    · cases h.symm.trans hm
  · rcases exec_completesOrMeetsNoNode i s with ⟨t, ht⟩ | ⟨m, hm, hnode⟩
    · cases h.symm.trans ht
    · cases h.symm.trans hm
      exact hnode

end Sys2Proof.Machine
end
